-- ==== Sys2Proof/Word.lean ====
section
/-! DEFINITION. The widths of the block's data: command and register words, bytes, the 24-bit operand and
dimension fields (`00_scope.md` R12, `30_encoding.md` R69). -/

namespace Sys2Proof

/-- One byte: a BUF or NAME cell, a pixel component, an output symbol, an opcode, a register index (R12). -/
abbrev Byte := BitVec 8

/-- A 24-bit unsigned field: the operand of a command word, WIDTH, HEIGHT and the cursor (R12, R69). -/
abbrev U24 := BitVec 24

/-- A 32-bit command word or register word (R12). -/
abbrev Word := BitVec 32

end Sys2Proof
end

