-- ==== Sys2Proof/Config.lean ====
section
/-! DEFINITION. What is fixed when the block is built: the parameters BUF_BYTES, NAME_MAX and HEX_CASE
(`00_scope.md` R9 to R11). The machine's State carries them as the three read-only constants CONFIG_ID, BUF_SIZE
and NAME_CAP, so every statement about a state holds for every value of them. -/

namespace Sys2Proof

/-- HEX_CASE, the hex digit alphabet (R11). -/
inductive HexCase where
  | upper
  | lower
  deriving DecidableEq, Repr

/-- The build parameters (R9, R10, R11). Their 32-bit widths are those of BUF_SIZE and NAME_CAP (R38, R39). -/
structure Params where
  /-- BUF_BYTES, the number of bytes of BUF (R9). -/
  bufBytes : Word
  /-- NAME_MAX, the number of bytes of the name store (R10). -/
  nameMax : Word
  /-- HEX_CASE (R11). -/
  hexCase : HexCase
  deriving DecidableEq, Repr

/-- The range R9 and R10 give: at least 1. The upper bound 2^32 - 1 is the width of the field. -/
def Params.valid (p : Params) : Bool :=
  decide (1 ≤ p.bufBytes.toNat) && decide (1 ≤ p.nameMax.toNat)

/-- The parameters of the one block `State.reset` is. HEX_CASE is the spec's default (R11). DESIGN CHOICE (log 1,
unsafe): the spec leaves BUF_BYTES and NAME_MAX open; no statement rests on these two values. -/
def Config.build : Params :=
  { bufBytes := 65536#32, nameMax := 256#32, hexCase := .upper }

end Sys2Proof
end

