-- ==== Sys2Proof/Syntax.lean ====
section
/-! DEFINITION. The commands of IT-CMD version 1: one constructor of `Instr` per row of the opcode map
(`30_encoding.md` R75), with the operands its format gives it (R70 to R74); the opcodes and formats by name; and the
written form of a command, the assembler's (R81, R82). -/

namespace Sys2Proof

/-- A decoded command with its operands (R75). Every operand has exactly its field's width, so every value of this
type is a command the encoding admits (R74). -/
inductive Instr where
  /-- NOP (R161). -/
  | nop
  /-- SETW, the width in pixels (R162). -/
  | setw (imm : U24)
  /-- SETH, the height in rows (R163). -/
  | seth (imm : U24)
  /-- SETF, the new INVERT and LINEBREAK (R164). -/
  | setf (inv lb : Bool)
  /-- NCLR (R165). -/
  | nclr
  /-- NBYTE, the byte to append (R166). -/
  | nbyte (byte : Byte)
  /-- START (R110). -/
  | start
  /-- PIXEL, one pixel's components (R112). -/
  | pixel (r g b : Byte)
  /-- THRESH, one pixel's components (R97). -/
  | thresh (r g b : Byte)
  /-- FINISH (R149). -/
  | finish
  /-- ABORT (R167). -/
  | abort
  deriving DecidableEq, Repr

/-- The eleven assigned opcodes, by mnemonic (R75). -/
inductive Op where
  | nop | setw | seth | setf | nclr | nbyte | start | pixel | thresh | finish | abort
  deriving DecidableEq, Repr

/-- The five formats of the operand field (R70). -/
inductive Format where
  | z | u24 | f2 | b8 | rgb
  deriving DecidableEq, Repr

/-- The opcode of a command. -/
def Instr.op : Instr → Op
  | .nop => .nop
  | .setw _ => .setw
  | .seth _ => .seth
  | .setf _ _ => .setf
  | .nclr => .nclr
  | .nbyte _ => .nbyte
  | .start => .start
  | .pixel _ _ _ => .pixel
  | .thresh _ _ _ => .thresh
  | .finish => .finish
  | .abort => .abort

/-- One written command: a form of R81 or a pseudo-instruction of R82. An operand is the number as written, of any
size; whether it fits its field is checked in `WellFormed`. -/
inductive Asm where
  | nop
  | setw (imm : Nat)
  | seth (imm : Nat)
  | setf (inv lb : Nat)
  | nclr
  | nbyte (byte : Nat)
  | start
  | pixel (r g b : Nat)
  | thresh (r g b : Nat)
  | finish
  | abort
  /-- NAME "s", the character codes of s (R82). -/
  | name (s : List Nat)
  /-- CONFIG w, h, inv, lb (R82). -/
  | config (w h inv lb : Nat)
  /-- BLACK (R82). -/
  | black
  /-- WHITE (R82). -/
  | white
  /-- ROW n, r, g, b (R82). -/
  | row (n r g b : Nat)
  deriving DecidableEq, Repr

end Sys2Proof
end

