-- ==== Sys2Proof/Machine/State.lean ====
section
/-! DEFINITION. The whole state of the block and of its host, as plain data (`10_state.md` R20 to R48), the reasons
the model stops, and the state after reset (`70_reset_and_hazards.md` R193). -/

namespace Sys2Proof.Machine

/-- The block state (R21). Codes 5 to 7 are never shown and have no constructor (I12, log 12). -/
inductive BlockState where
  | idle
  | load
  | emit
  | done
  | error
  deriving DecidableEq, Repr

/-- The error codes of STATUS.ERR (`60_exceptions.md` R171). Codes 9 to 15 are never written and have no constructor
(I12, log 12). -/
inductive ErrCode where
  /-- 0: no fault since the last START, ABORT or reset. -/
  | noError
  /-- 1: ERR_DIM (R176). -/
  | dim
  /-- 2: ERR_CAPACITY (R177). -/
  | capacity
  /-- 3: ERR_OVERRUN (R178). -/
  | overrun
  /-- 4: ERR_UNDERRUN (R178). -/
  | underrun
  /-- 5: ERR_SEQUENCE (R179). -/
  | sequence
  /-- 6: ERR_OPCODE (R77). -/
  | opcode
  /-- 7: ERR_RESERVED (R78). -/
  | reserved
  /-- 8: ERR_NAME (R180). -/
  | nameFull
  deriving DecidableEq, Repr

/-- One thing the HOST does (R20, R45, R46). -/
inductive HostAction where
  /-- Offer a command word on CMD (R45). -/
  | send (w : Word)
  /-- Take the byte OUT offers (R153). -/
  | take
  /-- Read the register at an index through READ (R40). -/
  | read (index : Byte)
  /-- Assert RST (R193). -/
  | reset
  deriving DecidableEq, Repr

/-- BUF or NAME (R43, R49): cells at strictly rising addresses. An unlisted address has no value (R48, log 2). -/
abbrev Memory := List Host.Cell

/-- The block's registers and memories (R48), the ports, and what the host does and has received. -/
structure State where
  /-- The build parameters, read as CONFIG_ID, BUF_SIZE and NAME_CAP (R37 to R39). No step writes them. -/
  params : Params
  /-- The block state (R21). -/
  blockState : BlockState
  /-- STATUS.ERR (R24). -/
  err : ErrCode
  /-- WIDTH (R25). -/
  width : U24
  /-- HEIGHT (R26). -/
  height : U24
  /-- FLAGS.INVERT (R27). -/
  invert : Bool
  /-- FLAGS.LINEBREAK (R27). -/
  lineBreak : Bool
  /-- NAME_LEN (R28). -/
  nameLen : Word
  /-- The name store (R28, R43). -/
  name : Memory
  /-- ROW_STRIDE (R29). -/
  rowStride : Word
  /-- BYTE_LENGTH (R30). -/
  byteLength : Word
  /-- CUR_X (R31). -/
  curX : U24
  /-- CUR_Y (R32). -/
  curY : U24
  /-- THRESH_RESULT's nine significant bits: GRAY in 7..0, LIGHT in 8 (R34). -/
  threshResult : BitVec 9
  /-- The emission index, which OUT_COUNT shows mod 2^32 (R35, R36). -/
  outCount : Nat
  /-- The bitmap buffer BUF (R43). -/
  buf : Memory
  /-- The word offered on CMD and not accepted yet (R45, R198). -/
  cmdPort : Option Word
  /-- The host's actions to come, in order. The model's own field (log 4). -/
  hostAgenda : List HostAction
  /-- The bytes the host has taken in the current or last emission, those OUT_COUNT counts (R35, R205). The model's
  own field (log 10). -/
  hostTaken : List Byte
  /-- The artifacts the host has taken up to their OUT_LAST byte, oldest first (R154, R157). The model's own field
  (log 10). -/
  hostArtifacts : List (List Byte)
  /-- What the host has read through READ: index and word, oldest first (R40). The model's own field (log 10). -/
  hostReads : List (Byte × Word)
  deriving DecidableEq, Repr

/-- Why the model stops. None is the block's own fault: that one is a next state (R173). No reachable state raises
any of these (R53, R153, R194); each is safe (log 2, log 11). -/
inductive Fault where
  /-- Raised by a read of a BUF byte that has no value (PIXEL, FINISH, the output step). Safe. -/
  | bufNoValue
  /-- Raised by an access to BUF at or above BUF_BYTES, where the spec has no byte (R49). Safe. -/
  | bufNoSuchByte
  /-- Raised by a read of a NAME byte that has no value (the output step). Safe. -/
  | nameNoValue
  /-- Raised by an access to NAME at or above NAME_MAX, where the spec has no byte (R49). Safe. -/
  | nameNoSuchByte
  /-- Raised by an output step whose index is not below the length of E; R153 gives one only below it. Safe. -/
  | outPastEnd
  deriving DecidableEq, Repr

/-- Why an instruction has no meaning. Every instruction has one, so nothing raises this. -/
inductive Refusal where
  /-- Raised by `exec` for an instruction that is not modelled yet; no arm does. Safe. -/
  | notModelled (mnemonic : String)
  deriving DecidableEq, Repr

/-- The state right after reset of a block built with parameters `p` (R193, R206): IDLE, every register 0, BUF and NAME
without values (R48), nothing offered and nothing taken. -/
def State.resetWith (p : Params) : State where
  params := p
  blockState := .idle
  err := .noError
  width := 0#24
  height := 0#24
  invert := false
  lineBreak := false
  nameLen := 0#32
  name := []
  rowStride := 0#32
  byteLength := 0#32
  curX := 0#24
  curY := 0#24
  threshResult := 0#9
  outCount := 0
  buf := []
  cmdPort := none
  hostAgenda := []
  hostTaken := []
  hostArtifacts := []
  hostReads := []

/-- The machine right after reset, built with `Config.build` (R193, log 1). -/
def State.reset : State := State.resetWith Config.build

end Sys2Proof.Machine
end

