-- ==== Sys2Proof/Machine/Flags.lean ====
section
/-! DEFINITION. The one-bit results and the words that show them: the threshold function (`40_thresholder.md` R93,
R97), the codes of STATUS (`10_state.md` R21, R24; `60_exceptions.md` R171) and the register words of the read port
(R23 to R40). -/

namespace Sys2Proof.Machine

/-- `floor((r + g + b) / 3)`, sum first, then one truncating division (R93, R94). -/
def gray (r g b : Byte) : Nat := (r.toNat + g.toNat + b.toNat) / 3

/-- The threshold function T: true is light (R93). -/
def light (r g b : Byte) : Bool := decide (127 ≤ gray r g b)

/-- THRESH_RESULT's nine bits: LIGHT in bit 8, GRAY in bits 7..0 (R34, R97). -/
def threshWord (r g b : Byte) : BitVec 9 :=
  BitVec.ofBool (light r g b) ++ BitVec.ofNat 8 (gray r g b)

/-- STATUS.STATE (R21). -/
def BlockState.code : BlockState → BitVec 3
  | .idle => 0#3
  | .load => 1#3
  | .emit => 2#3
  | .done => 3#3
  | .error => 4#3

/-- STATUS.ERR (R171). -/
def ErrCode.code : ErrCode → BitVec 4
  | .noError => 0#4
  | .dim => 1#4
  | .capacity => 2#4
  | .overrun => 3#4
  | .underrun => 4#4
  | .sequence => 5#4
  | .opcode => 6#4
  | .reserved => 7#4
  | .nameFull => 8#4

/-- CONFIG_ID bit 0 (R37). -/
def hexCaseBit : HexCase → Bool
  | .upper => false
  | .lower => true

/-- STATUS: ERR in 7..4, STATE in 2..0, the rest 0 (R24). -/
def statusWord (s : State) : Word := 0#24 ++ s.err.code ++ 0#1 ++ s.blockState.code

/-- FLAGS: LINEBREAK in bit 1, INVERT in bit 0 (R27). -/
def flagsWord (s : State) : Word := 0#30 ++ BitVec.ofBool s.lineBreak ++ BitVec.ofBool s.invert

/-- The register read port: the word at an index; 0x0E to 0xFF read 0 (R23, R40). -/
def readReg (s : State) (index : Byte) : Word :=
  match index.toNat with
  | 0x00 => statusWord s
  | 0x01 => s.width.setWidth 32
  | 0x02 => s.height.setWidth 32
  | 0x03 => flagsWord s
  | 0x04 => s.nameLen
  | 0x05 => s.rowStride
  | 0x06 => s.byteLength
  | 0x07 => s.curX.setWidth 32
  | 0x08 => s.curY.setWidth 32
  | 0x09 => s.threshResult.setWidth 32
  | 0x0A => BitVec.ofNat 32 s.outCount
  | 0x0B => 0#31 ++ BitVec.ofBool (hexCaseBit s.params.hexCase)
  | 0x0C => s.params.bufBytes
  | 0x0D => s.params.nameMax
  | _ => 0#32

end Sys2Proof.Machine
end

