-- ==== Sys2Proof/Machine/Operands.lean ====
section
/-! DEFINITION. Where a command's operand lies and how large an encode is: row stride, byte length, pixel address and
mask (`20_memory.md` R50, R51; `41_bit_packer.md` R102, R103; `44_line_breaker.md` R135). -/

namespace Sys2Proof.Machine

/-- Bytes per row: `ceil(w / 8) = (w + 7) / 8` (R102). -/
def rowStrideOf (w : Nat) : Nat := (w + 7) / 8

/-- Bytes of an image, exact (R103, R111). -/
def byteLengthOf (w h : Nat) : Nat := h * rowStrideOf w

/-- BUF address of the pixel at column x of row y (R50). -/
def pixelAddr (rowStride x y : Nat) : Nat := y * rowStride + x / 8

/-- The bit of column x in its byte, `0x80 >> (x mod 8)` (R51, C1). -/
def pixelMask (x : Nat) : Byte := 0x80#8 >>> (x % 8)

/-- Hex characters per image row (R135). -/
def breakEvery (rowStride : Nat) : Nat := rowStride * 2

end Sys2Proof.Machine
end

