-- ==== Sys2Proof/Decode.lean ====
section
/-! DEFINITION. Decoding a 32-bit command word (`30_encoding.md` R69 to R80), total over all 2^32 words and
independent of the block's state; and encoding, written from the same tables. -/

namespace Sys2Proof

/-- What a word decodes to (R76). -/
inductive Decoded where
  | command (i : Instr)
  | reservedOpcode
  | reservedBits
  deriving DecidableEq, Repr

/-- OP, bits 31..24 (R69). -/
def opField (w : Word) : Byte := w.extractLsb' 24 8

/-- The operand field, bits 23..0 (R69). -/
def operandField (w : Word) : U24 := w.extractLsb' 0 24

/-- The opcode map (R75). -/
def Op.code : Op → Byte
  | .nop => 0x00#8
  | .setw => 0x01#8
  | .seth => 0x02#8
  | .setf => 0x03#8
  | .nclr => 0x04#8
  | .nbyte => 0x05#8
  | .start => 0x08#8
  | .pixel => 0x09#8
  | .thresh => 0x0A#8
  | .finish => 0x0B#8
  | .abort => 0x0F#8

/-- The opcode map read the other way; `none` is a reserved opcode (R75, R77). -/
def Op.ofCode (c : Byte) : Option Op :=
  match c.toNat with
  | 0x00 => some .nop
  | 0x01 => some .setw
  | 0x02 => some .seth
  | 0x03 => some .setf
  | 0x04 => some .nclr
  | 0x05 => some .nbyte
  | 0x08 => some .start
  | 0x09 => some .pixel
  | 0x0A => some .thresh
  | 0x0B => some .finish
  | 0x0F => some .abort
  | _ => none

/-- The format column of the opcode map (R75). -/
def Op.format : Op → Format
  | .nop => .z
  | .setw => .u24
  | .seth => .u24
  | .setf => .f2
  | .nclr => .z
  | .nbyte => .b8
  | .start => .z
  | .pixel => .rgb
  | .thresh => .rgb
  | .finish => .z
  | .abort => .z

/-- A reserved operand bit of the format is set (R70, R78). -/
def reservedBitSet (f : Format) (v : U24) : Bool :=
  match f with
  | .z => v != 0#24
  | .f2 => v.extractLsb' 2 22 != 0#22
  | .b8 => v.extractLsb' 8 16 != 0#16
  | .u24 => false
  | .rgb => false

/-- INV, bit 0 (R72). -/
def invField (v : U24) : Bool := v.getLsbD 0

/-- LB, bit 1 (R72). -/
def lbField (v : U24) : Bool := v.getLsbD 1

/-- BYTE, bits 7..0 (R73). -/
def byteField (v : U24) : Byte := v.extractLsb' 0 8

/-- R, bits 23..16 (R74). -/
def rField (v : U24) : Byte := v.extractLsb' 16 8

/-- G, bits 15..8 (R74). -/
def gField (v : U24) : Byte := v.extractLsb' 8 8

/-- B, bits 7..0 (R74). -/
def bField (v : U24) : Byte := v.extractLsb' 0 8

/-- The command an opcode and its operand field make (R70 to R74). -/
def Op.instr : Op → U24 → Instr
  | .nop, _ => .nop
  | .setw, v => .setw v
  | .seth, v => .seth v
  | .setf, v => .setf (invField v) (lbField v)
  | .nclr, _ => .nclr
  | .nbyte, v => .nbyte (byteField v)
  | .start, _ => .start
  | .pixel, v => .pixel (rField v) (gField v) (bField v)
  | .thresh, v => .thresh (rField v) (gField v) (bField v)
  | .finish, _ => .finish
  | .abort, _ => .abort

/-- The decoder (R76): the opcode first, then the format's reserved bits. -/
def decode (w : Word) : Decoded :=
  match Op.ofCode (opField w) with
  | none => .reservedOpcode
  | some op =>
    if reservedBitSet op.format (operandField w) then .reservedBits
    else .command (op.instr (operandField w))

/-- A command word from its opcode and operand field (R69). -/
def opWord (op : Op) (v : U24) : Word := op.code ++ v

/-- The F2 operand field: reserved bits 0, LB in bit 1, INV in bit 0 (R70). -/
def flagOperand (inv lb : Bool) : U24 := 0#22 ++ BitVec.ofBool lb ++ BitVec.ofBool inv

/-- The B8 operand field: reserved bits 0, BYTE in bits 7..0 (R70). -/
def byteOperand (byte : Byte) : U24 := 0#16 ++ byte

/-- The RGB operand field (R70). -/
def rgbOperand (r g b : Byte) : U24 := r ++ g ++ b

/-- The command's word (R70, R75). -/
def encode : Instr → Word
  | .nop => opWord .nop 0#24
  | .setw imm => opWord .setw imm
  | .seth imm => opWord .seth imm
  | .setf inv lb => opWord .setf (flagOperand inv lb)
  | .nclr => opWord .nclr 0#24
  | .nbyte byte => opWord .nbyte (byteOperand byte)
  | .start => opWord .start 0#24
  | .pixel r g b => opWord .pixel (rgbOperand r g b)
  | .thresh r g b => opWord .thresh (rgbOperand r g b)
  | .finish => opWord .finish 0#24
  | .abort => opWord .abort 0#24

/-- The command word an instruction's bits make: the low `nbits` bits as the opcode table numbers them, every bit
above them 0. A word is one 32-bit unit and is never split into bytes (R55), so no byte order enters. -/
def tableWord (nbits w : Nat) : Word := BitVec.ofNat 32 (w % 2 ^ nbits)

/-- The command the decoder reads from a row's bits; `none` where it refuses the word. -/
def decodeTableWord (nbits w : Nat) : Option Instr :=
  match decode (tableWord nbits w) with
  | .command i => some i
  | .reservedOpcode => none
  | .reservedBits => none

end Sys2Proof
end

