-- ==== Sys2Proof/Machine/Ops.lean ====
section
/-! DEFINITION. The shared operations: reading and writing one byte of BUF or NAME (`20_memory.md` R49, R57), loops
over an address range (`00_scope.md` R16), taking a fault and leaving ERROR (`60_exceptions.md` R173, R183), and the
check every command passes first (R159, R179). -/

namespace Sys2Proof.Machine

/-- The value of a byte, if it has one. -/
def Memory.read : Memory → Nat → Option Byte
  | [], _ => none
  | (b, v) :: m, a => if a = b then some v else Memory.read m a

/-- Give the byte at `a` the value `v`, keeping the addresses strictly rising. -/
def Memory.write : Memory → Nat → Byte → Memory
  | [], a, v => [(a, v)]
  | (b, u) :: m, a, v =>
    if a < b then (a, v) :: (b, u) :: m
    else if a = b then (a, v) :: m
    else (b, u) :: Memory.write m a v

/-- The canonical form: addresses strictly rising. An unlisted address has no value, so no entry can equal what an
unlisted address reads as. -/
def Memory.wf : Memory → Bool
  | [] => true
  | [_] => true
  | (a, _) :: (b, v) :: m => decide (a < b) && Memory.wf ((b, v) :: m)

/-- MemRead(a, 1): one byte of BUF (R16, R49). -/
def memRead (s : State) (a : Nat) : Except Fault Byte :=
  if a < s.params.bufBytes.toNat then
    match s.buf.read a with
    | some v => .ok v
    | none => .error .bufNoValue
  else .error .bufNoSuchByte

/-- The state with this BUF and nothing else changed. -/
def State.withBuf (s : State) (m : Memory) : State := { s with buf := m }

/-- The state with this name store and nothing else changed. -/
def State.withName (s : State) (m : Memory) : State := { s with name := m }

/-- The state with this STATUS and nothing else changed. -/
def State.withStatus (s : State) (b : BlockState) (e : ErrCode) : State := { s with blockState := b, err := e }

/-- The state with this word, or none, on CMD and nothing else changed. -/
def State.withPort (s : State) (w : Option Word) : State := { s with cmdPort := w }

/-- The state with this host agenda and nothing else changed. -/
def State.withAgenda (s : State) (h : List HostAction) : State := { s with hostAgenda := h }

/-- The state with this cursor and nothing else changed. -/
def State.withCursor (s : State) (x y : U24) : State := { s with curX := x, curY := y }

/-- MemWrite(a, 1, v): one byte of BUF (R16, R49). -/
def memWrite (s : State) (a : Nat) (v : Byte) : Except Fault State :=
  if a < s.params.bufBytes.toNat then .ok (s.withBuf (s.buf.write a v)) else .error .bufNoSuchByte

/-- One read-modify-write of a BUF byte (R57). -/
def memModify (s : State) (a : Nat) (f : Byte → Byte) : Except Fault State :=
  match memRead s a with
  | .ok v => memWrite s a (f v)
  | .error e => .error e

/-- NameRead(k): one byte of the name store (R16, R49). -/
def nameRead (s : State) (k : Nat) : Except Fault Byte :=
  if k < s.params.nameMax.toNat then
    match s.name.read k with
    | some v => .ok v
    | none => .error .nameNoValue
  else .error .nameNoSuchByte

/-- NameWrite(k, v): one byte of the name store (R16, R49). -/
def nameWrite (s : State) (k : Nat) (v : Byte) : Except Fault State :=
  if k < s.params.nameMax.toNat then .ok (s.withName (s.name.write k v)) else .error .nameNoSuchByte

/-- `for i in [lo, lo + n)`: the body at each i in rising order (R16). -/
def forRange (f : Nat → State → Except Fault State) : Nat → Nat → State → Except Fault State
  | _, 0, s => .ok s
  | lo, n + 1, s =>
    match f lo s with
    | .ok s' => forRange f (lo + 1) n s'
    | .error e => .error e

/-- The values `f lo, ..., f (lo + n - 1)` in that order. -/
def collect (f : Nat → Except Fault Byte) : Nat → Nat → Except Fault (List Byte)
  | _, 0 => .ok []
  | lo, n + 1 =>
    match f lo with
    | .error e => .error e
    | .ok b =>
      match collect f (lo + 1) n with
      | .ok bs => .ok (b :: bs)
      | .error e => .error e

/-- Taking the block's fault: in ERROR the command is dropped and nothing changes; otherwise the block goes to ERROR
and STATUS.ERR takes the code (R173, R184). Nothing else is recorded (R174). -/
def raiseFault (code : ErrCode) (s : State) : State :=
  if s.blockState = .error then s else s.withStatus .error code

/-- Leaving ERROR, and any other state, for IDLE with no error: the first write of START and the effect of ABORT (R110,
R167, R183). -/
def clearError (s : State) : State := s.withStatus .idle .noError

/-- IDLE, LOAD, DONE and ERROR: every state in which the block accepts a command (R45, R198). -/
def outsideEmit : BlockState → Bool
  | .idle => true
  | .load => true
  | .emit => false
  | .done => true
  | .error => true

/-- IDLE, DONE and ERROR: no encode in progress (R47, R179). -/
def outsideEncode : BlockState → Bool
  | .idle => true
  | .load => false
  | .emit => false
  | .done => true
  | .error => true

/-- LOAD (R179). -/
def inLoad : BlockState → Bool
  | .idle => false
  | .load => true
  | .emit => false
  | .done => false
  | .error => false

/-- The legality table (R179). -/
def legal : Op → BlockState → Bool
  | .nop => outsideEmit
  | .setw => outsideEncode
  | .seth => outsideEncode
  | .setf => outsideEncode
  | .nclr => outsideEncode
  | .nbyte => outsideEncode
  | .start => outsideEncode
  | .pixel => inLoad
  | .thresh => outsideEmit
  | .finish => inLoad
  | .abort => outsideEmit

/-- The command waits: in EMIT the block accepts nothing and the word stays on CMD (R45, R198, log 7). -/
def holdCommand (i : Instr) (s : State) : State := s.withPort (some (encode i))

/-- What every command meets before its own rule (R159): held in EMIT (R198), ERR_SEQUENCE where it is not legal
(R179), its own effect otherwise. -/
def gate (i : Instr) (s : State) (effect : Host.Outcome State Fault Refusal) : Host.Outcome State Fault Refusal :=
  if s.blockState = .emit then .next (holdCommand i s)
  else if legal i.op s.blockState then effect
  else .next (raiseFault .sequence s)

/-- The outcome of a sequence of memory accesses and register writes. -/
def outcomeOf : Except Fault State → Host.Outcome State Fault Refusal
  | .ok s => .next s
  | .error e => .fault e

/-- Reset of the block (R193): `State.resetWith` of its own parameters. The host keeps its agenda, its complete
artifacts and its reads; it discards the bytes of an emission cut short (R203, log 10). -/
def resetBlock (s : State) : State :=
  { State.resetWith s.params with
    hostAgenda := s.hostAgenda
    hostArtifacts := s.hostArtifacts
    hostReads := s.hostReads }

end Sys2Proof.Machine
end

