-- ==== Sys2Proof/Machine/BitPacker.lean ====
section
/-! DEFINITION. The bit packer: START creates the zeroed buffer, PIXEL packs one pixel (`41_bit_packer.md` R105, R110,
R112; `10_state.md` R33). -/

namespace Sys2Proof.Machine

/-- Write 0 to each BUF byte in [0, n) (R104, R110). -/
def clearBuf (n : Nat) (s : State) : Except Fault State :=
  forRange (fun a t => memWrite t a 0x00#8) 0 n s

/-- The registers a successful START leaves (R110). `hostTaken` starts afresh with OUT_COUNT (log 10). -/
def startRegs (s : State) (rs bl : Nat) : State :=
  { s with
    rowStride := BitVec.ofNat 32 rs
    byteLength := BitVec.ofNat 32 bl
    curX := 0#24
    curY := 0#24
    outCount := 0
    hostTaken := []
    blockState := .load }

/-- START's own rule, from the state with the error already cleared: the dimension check, the exact capacity check,
then the zeroed buffer and the cursor (R110, R111, R176, R177). -/
def startEncode (s : State) : Host.Outcome State Fault Refusal :=
  if s.width = 0#24 ∨ s.height = 0#24 then .next (raiseFault .dim s)
  else if s.params.bufBytes.toNat < byteLengthOf s.width.toNat s.height.toNat then .next (raiseFault .capacity s)
  else
    outcomeOf (clearBuf (byteLengthOf s.width.toNat s.height.toNat)
      (startRegs s (rowStrideOf s.width.toNat) (byteLengthOf s.width.toNat s.height.toNat)))

/-- START: begin an encode (R110). Its first write, IDLE and ERR 0, comes before its checks, so its own fault is
recorded from any state (R17, R173). -/
def execStart (s : State) : Host.Outcome State Fault Refusal :=
  gate .start s (startEncode (clearError s))

/-- SetPixelBit(x, y): OR the column's mask into its byte (R105). -/
def setPixelBit (x y : Nat) (s : State) : Except Fault State :=
  memModify s (pixelAddr s.rowStride.toNat x y) (fun v => v ||| pixelMask x)

/-- The cursor after a pixel: the next column, or the first column of the next row (R33, R112). -/
def advanceCursor (s : State) : State :=
  if s.curX.toNat + 1 < s.width.toNat then s.withCursor (s.curX + 1#24) s.curY
  else s.withCursor 0#24 (s.curY + 1#24)

/-- PIXEL's own rule: ERR_OVERRUN after the last pixel, else set the bit of a light pixel and move the cursor (R112,
R178). -/
def packPixel (r g b : Byte) (s : State) : Host.Outcome State Fault Refusal :=
  if s.curY = s.height then .next (raiseFault .overrun s)
  else if light r g b then
    match setPixelBit s.curX.toNat s.curY.toNat s with
    | .ok t => .next (advanceCursor t)
    | .error e => .fault e
  else .next (advanceCursor s)

/-- PIXEL: pack the pixel at the cursor (R112). -/
def execPixel (r g b : Byte) (s : State) : Host.Outcome State Fault Refusal :=
  gate (.pixel r g b) s (packPixel r g b s)

end Sys2Proof.Machine
end

