-- ==== Sys2Proof/Machine/Configure.lean ====
section
/-! DEFINITION. The configuration commands SETW, SETH, SETF, NCLR and NBYTE (`46_control.md` R160, R162 to R166). -/

namespace Sys2Proof.Machine

/-- SETW: WIDTH <- IMM24; 0 is accepted here (R162). -/
def execSetw (imm : U24) (s : State) : Host.Outcome State Fault Refusal :=
  gate (.setw imm) s (.next { s with width := imm })

/-- SETH: HEIGHT <- IMM24; 0 is accepted here (R163). -/
def execSeth (imm : U24) (s : State) : Host.Outcome State Fault Refusal :=
  gate (.seth imm) s (.next { s with height := imm })

/-- SETF: both flags at once (R164). -/
def execSetf (inv lb : Bool) (s : State) : Host.Outcome State Fault Refusal :=
  gate (.setf inv lb) s (.next { s with invert := inv, lineBreak := lb })

/-- NCLR: NAME_LEN <- 0; the NAME bytes keep their values (R165). -/
def execNclr (s : State) : Host.Outcome State Fault Refusal :=
  gate .nclr s (.next { s with nameLen := 0#32 })

/-- NBYTE's own rule: ERR_NAME when the store is full, else write the byte at NAME_LEN and add 1 (R166, R180). -/
def appendName (byte : Byte) (s : State) : Host.Outcome State Fault Refusal :=
  if s.nameLen = s.params.nameMax then .next (raiseFault .nameFull s)
  else
    match nameWrite s s.nameLen.toNat byte with
    | .error e => .fault e
    | .ok t => .next { t with nameLen := s.nameLen + 1#32 }

/-- NBYTE: append one byte to the name (R166). -/
def execNbyte (byte : Byte) (s : State) : Host.Outcome State Fault Refusal :=
  gate (.nbyte byte) s (appendName byte s)

end Sys2Proof.Machine
end

