-- ==== Sys2Proof/Machine/Inverter.lean ====
section
/-! DEFINITION. The polarity inverter: the two ordered loops over BUF that FINISH runs when INVERT = 1
(`42_polarity_inverter.md` R119 to R121). -/

namespace Sys2Proof.Machine

/-- Set the bit of one column of one row (the body of R120's loops; the same access as R105). -/
def forceBit (y x : Nat) (s : State) : Except Fault State :=
  memModify s (pixelAddr s.rowStride.toNat x y) (fun v => v ||| pixelMask x)

/-- The padding columns of one row, [WIDTH, rowStride * 8) (R54, R120). -/
def forceRowPadding (y : Nat) (s : State) : Except Fault State :=
  forRange (forceBit y) s.width.toNat (s.rowStride.toNat * 8 - s.width.toNat) s

/-- Step 1: every padding bit to 1 (R120). -/
def forcePadding (s : State) : Except Fault State :=
  forRange forceRowPadding 0 s.height.toNat s

/-- Step 2: flip every bit of [0, byteLength) (R121). -/
def flipAll (s : State) : Except Fault State :=
  forRange (fun a t => memModify t a (fun v => v ^^^ 0xFF#8)) 0 s.byteLength.toNat s

/-- Invert: step 1 to the end, then step 2 (R119). -/
def invertBuf (s : State) : Except Fault State :=
  match forcePadding s with
  | .ok t => flipAll t
  | .error e => .error e

end Sys2Proof.Machine
end

