-- ==== Sys2Proof/Machine/Serializer.lean ====
section
/-! DEFINITION. The byte strings of the output: hex digits and characters (`43_hex_serializer.md` R129 to R131), line
breaks (`44_line_breaker.md` R136), decimal numbers and the container (`45_container_builder.md` R144 to R147). The
character codes are from general knowledge, as the spec marks them (G1, G2, log 15). -/

namespace Sys2Proof.Machine

/-- The code of the first letter digit, ten (R131). -/
def hexLetter : HexCase → Byte
  | .upper => 0x41#8
  | .lower => 0x61#8

/-- The character of a nibble (R131). -/
def hexDigit (hc : HexCase) (n : BitVec 4) : Byte :=
  if n.toNat < 10 then 0x30#8 + n.setWidth 8 else hexLetter hc + (n.setWidth 8 - 10#8)

/-- The two characters of a byte, high nibble first (R130). -/
def hex2 (hc : HexCase) (v : Byte) : List Byte :=
  [hexDigit hc (v.extractLsb' 4 4), hexDigit hc (v.extractLsb' 0 4)]

/-- The characters of a string of bytes, in order (R129). -/
def hexString (hc : HexCase) (bytes : List Byte) : List Byte := bytes.flatMap (hex2 hc)

/-- LF, the line-break character (R140). -/
def lineFeed : Byte := 0x0A#8

/-- The characters from index k on, each preceded by LF when its index is a multiple of `every` (R136). -/
def lineBreakFrom (every : Nat) : Nat → List Byte → List Byte
  | _, [] => []
  | k, c :: cs =>
    if k % every = 0 then lineFeed :: c :: lineBreakFrom every (k + 1) cs
    else c :: lineBreakFrom every (k + 1) cs

/-- LineBreak(s, rowStride) (R136). -/
def lineBreakString (rowStride : Nat) (s : List Byte) : List Byte := lineBreakFrom (breakEvery rowStride) 0 s

/-- The decimal digits of n before those already written, with at most `fuel` of them. -/
def decDigits : Nat → Nat → List Byte → List Byte
  | 0, _, acc => acc
  | fuel + 1, n, acc =>
    if n / 10 = 0 then (0x30#8 + BitVec.ofNat 8 (n % 10)) :: acc
    else decDigits fuel (n / 10) ((0x30#8 + BitVec.ofNat 8 (n % 10)) :: acc)

/-- dec(n): the shortest base-10 digits, most significant first; dec(0) = "0" (R146). -/
def dec (n : Nat) : List Byte := decDigits (n + 1) n []

/-- "~DG" (R145). -/
def marker : List Byte := [0x7E#8, 0x44#8, 0x47#8]

/-- "," (R145). -/
def comma : Byte := 0x2C#8

/-- The header: marker, name, byteLength, rowStride and the three commas (R144, R152). -/
def header (name : List Byte) (byteLength rowStride : Nat) : List Byte :=
  marker ++ name ++ [comma] ++ dec byteLength ++ [comma] ++ dec rowStride ++ [comma]

/-- Container(name, byteLength, rowStride, payload); nothing follows the payload (R144, R147). -/
def container (name : List Byte) (byteLength rowStride : Nat) (payload : List Byte) : List Byte :=
  header name byteLength rowStride ++ payload

/-- The payload: the hex string, line-broken when LINEBREAK = 1 (R141, R151). -/
def payloadOf (hc : HexCase) (lb : Bool) (rowStride : Nat) (bytes : List Byte) : List Byte :=
  if lb then lineBreakString rowStride (hexString hc bytes) else hexString hc bytes

end Sys2Proof.Machine
end

