-- ==== Sys2Proof/Machine/Container.lean ====
section
/-! DEFINITION. FINISH, the emission string E, the OUT port and the output step (`45_container_builder.md` R149 to
R154). -/

namespace Sys2Proof.Machine

/-- The registers FINISH leaves (R149). `hostTaken` starts afresh with OUT_COUNT (log 10). -/
def finishRegs (s : State) : State := { s with outCount := 0, hostTaken := [], blockState := .emit }

/-- FINISH's own rule: ERR_UNDERRUN before the last pixel, else the inverter if INVERT = 1, then EMIT (R124, R149,
R178). -/
def finishEncode (s : State) : Host.Outcome State Fault Refusal :=
  if s.curY ≠ s.height then .next (raiseFault .underrun s)
  else if s.invert then
    match invertBuf s with
    | .ok t => .next (finishRegs t)
    | .error e => .fault e
  else .next (finishRegs s)

/-- FINISH: end packing and begin emission (R149). -/
def execFinish (s : State) : Host.Outcome State Fault Refusal :=
  gate .finish s (finishEncode s)

/-- The name, used verbatim: NAME[0 .. NAME_LEN-1] (R150). -/
def nameBytes (s : State) : Except Fault (List Byte) := collect (nameRead s) 0 s.nameLen.toNat

/-- The buffer's first byteLength bytes (R129). -/
def bufBytes (s : State) : Except Fault (List Byte) := collect (memRead s) 0 s.byteLength.toNat

/-- The emission string E (R151). -/
def emission (s : State) : Except Fault (List Byte) :=
  match nameBytes s with
  | .error e => .error e
  | .ok name =>
    match bufBytes s with
    | .error e => .error e
    | .ok bytes =>
      .ok (container name s.byteLength.toNat s.rowStride.toNat
        (payloadOf s.params.hexCase s.lineBreak s.rowStride.toNat bytes))

/-- OUT_VALID: 1 exactly in EMIT (R45, R153). -/
def outValid (s : State) : Bool := decide (s.blockState = .emit)

/-- OUT_DATA: E[OUT_COUNT] in EMIT, no value elsewhere (R45, R153). -/
def outData (s : State) : Option Byte :=
  if s.blockState = .emit then
    match emission s with
    | .ok e => e[s.outCount]?
    | .error _ => none
  else none

/-- OUT_LAST: 1 exactly in EMIT when OUT_COUNT = len(E) - 1 (R154). -/
def outLast (s : State) : Bool :=
  if s.blockState = .emit then
    match emission s with
    | .ok e => decide (s.outCount + 1 = e.length)
    | .error _ => false
  else false

/-- The host takes a byte that is not the last (R153). -/
def takeByte (s : State) (b : Byte) : State :=
  { s with outCount := s.outCount + 1, hostTaken := s.hostTaken ++ [b] }

/-- The host takes the last byte: the state is DONE and the host has the whole artifact (R153, R154, log 10). -/
def takeLast (s : State) (b : Byte) : State :=
  { takeByte s b with blockState := .done, hostArtifacts := s.hostArtifacts ++ [s.hostTaken ++ [b]] }

/-- The output step (R153): in EMIT the host takes E[OUT_COUNT]; outside it the host can take nothing (log 8). -/
def outputStep (s : State) : Host.Outcome State Fault Refusal :=
  if s.blockState = .emit then
    match emission s with
    | .error e => .fault e
    | .ok e =>
      match e[s.outCount]? with
      | none => .fault .outPastEnd
      | some b => if s.outCount + 1 = e.length then .next (takeLast s b) else .next (takeByte s b)
  else .next s

end Sys2Proof.Machine
end

