-- ==== Sys2Proof/Machine/Control.lean ====
section
/-! DEFINITION. NOP and ABORT (`46_control.md` R161, R167). -/

namespace Sys2Proof.Machine

/-- NOP: no state changes (R161). -/
def execNop (s : State) : Host.Outcome State Fault Refusal :=
  gate .nop s (.next s)

/-- ABORT: IDLE and no error; every other register and both memories keep their values (R167). -/
def execAbort (s : State) : Host.Outcome State Fault Refusal :=
  gate .abort s (.next (clearError s))

end Sys2Proof.Machine
end

