-- ==== Sys2Proof/Machine/Thresholder.lean ====
section
/-! DEFINITION. THRESH: the thresholder unit on its own (`40_thresholder.md` R97). -/

namespace Sys2Proof.Machine

/-- THRESH: THRESH_RESULT takes GRAY and LIGHT; nothing else changes, and it is not a pixel (R97). -/
def execThresh (r g b : Byte) (s : State) : Host.Outcome State Fault Refusal :=
  gate (.thresh r g b) s (.next { s with threshResult := threshWord r g b })

end Sys2Proof.Machine
end

