-- ==== Sys2Proof/Machine/Dispatch.lean ====
section
/-! DEFINITION. One arm per command: its meaning (`46_control.md` R159). -/

namespace Sys2Proof.Machine

def exec (i : Instr) (s : State) : Host.Outcome State Fault Refusal :=
  match i with
  | .nop => Sys2Proof.Machine.execNop s
  | .setw imm => Sys2Proof.Machine.execSetw imm s
  | .seth imm => Sys2Proof.Machine.execSeth imm s
  | .setf inv lb => Sys2Proof.Machine.execSetf inv lb s
  | .nclr => Sys2Proof.Machine.execNclr s
  | .nbyte byte => Sys2Proof.Machine.execNbyte byte s
  | .start => Sys2Proof.Machine.execStart s
  | .pixel r g b => Sys2Proof.Machine.execPixel r g b s
  | .thresh r g b => Sys2Proof.Machine.execThresh r g b s
  | .finish => Sys2Proof.Machine.execFinish s
  | .abort => Sys2Proof.Machine.execAbort s

end Sys2Proof.Machine
end

