-- ==== Sys2Proof/Machine/Ports.lean ====
section
/-! DEFINITION. The four interfaces at work (`10_state.md` R45): accepting the word on CMD (`46_control.md` R159), and
one action of the host on CMD, OUT, READ or RST. -/

namespace Sys2Proof.Machine

/-- Accept(word): decode, then the fault of a reserved word or the command (R159, R77, R78). -/
def accept (w : Word) (s : State) : Host.Outcome State Fault Refusal :=
  match decode w with
  | .reservedOpcode => .next (raiseFault .opcode s)
  | .reservedBits => .next (raiseFault .reserved s)
  | .command i => exec i s

/-- The host reads a register: the word is recorded as read, the block does not change (R40). -/
def hostRead (index : Byte) (s : State) : State :=
  { s with hostReads := s.hostReads ++ [(index, readReg s index)] }

/-- The first action that is not an offer on CMD, and the others in their order. -/
def pastOffers : List HostAction → Option (HostAction × List HostAction)
  | [] => none
  | .send w :: rest => (pastOffers rest).map (fun p => (p.1, .send w :: p.2))
  | a :: rest => some (a, rest)

/-- The host's next action and those after it. CMD holds one word (R45): while one waits there in EMIT, the host's further
offers wait, and it goes on with READ, OUT and RST, which are always open to it (R45, R193, R199, log 6). -/
def nextAction (s : State) : Option (HostAction × List HostAction) :=
  if s.blockState = .emit ∧ s.cmdPort.isSome then pastOffers s.hostAgenda
  else
    match s.hostAgenda with
    | [] => none
    | a :: rest => some (a, rest)

/-- The host's next action takes place. With none to come nothing changes (R192, R199). -/
def hostStep (s : State) : Host.Outcome State Fault Refusal :=
  match nextAction s with
  | none => .next s
  | some (.reset, rest) => .next (resetBlock (s.withAgenda rest))
  | some (.take, rest) => outputStep (s.withAgenda rest)
  | some (.read index, rest) => .next (hostRead index (s.withAgenda rest))
  | some (.send w, rest) => .next ((s.withAgenda rest).withPort (some w))

/-- RST is being asserted: the host's next action is reset (R193). -/
def resetAsserted (s : State) : Bool := (nextAction s).map Prod.fst == some .reset

/-- The word the block accepts in this step, if any: one is on CMD, the state is not EMIT, and RST is not asserted at the
same moment (R45, R182, R193). -/
def acceptedWord (s : State) : Option Word :=
  if resetAsserted s then none else if s.blockState = .emit then none else s.cmdPort

/-- The host's agenda without the resets at its head: what `withFetchWord` needs so that the word is accepted next. -/
def afterResets : List HostAction → List HostAction
  | .reset :: rest => afterResets rest
  | h => h

end Sys2Proof.Machine
end

