-- ==== Sys2Proof/Machine/Step.lean ====
section
/-! DEFINITION. One step of the machine: the block accepts the word on CMD, or the host acts (`00_scope.md` R19,
`10_state.md` R20). -/

namespace Sys2Proof.Machine

/-- One step (R19, R20, R159): an accepted word leaves CMD and runs; otherwise the host's next action happens. -/
def step (s : State) : Host.Outcome State Fault Refusal :=
  match acceptedWord s with
  | some w => accept w (s.withPort none)
  | none => hostStep s

/-- `s` with a command word on CMD, where the block takes its next command from, and no RST asserted (log 5). In EMIT the
block takes no command, so there the word waits (R198). -/
def State.withFetchWord (s : State) (nbits w : Nat) : State :=
  { s with cmdPort := some (tableWord nbits w), hostAgenda := afterResets s.hostAgenda }

end Sys2Proof.Machine
end

