-- ==== Sys2Proof/WellFormed.lean ====
section
/-! DEFINITION. Which written commands are well formed: every number fits its field, and one that does not is an
assembly error, never truncated (`30_encoding.md` R81, `93_implementation_defined.md` I21). A decoded command's
operands fit by construction (R74). -/

namespace Sys2Proof

/-- The number fits an unsigned field of this many bits (R81). -/
def fitsField (bits n : Nat) : Bool := decide (n < 2 ^ bits)

/-- Every operand of the command fits the field its format gives it (R70). It holds of every `Instr`:
`Laws/Encoding.lean` proves it. -/
def Instr.wellFormed : Instr → Bool
  | .nop => true
  | .setw imm => fitsField 24 imm.toNat
  | .seth imm => fitsField 24 imm.toNat
  | .setf inv lb => fitsField 1 inv.toNat && fitsField 1 lb.toNat
  | .nclr => true
  | .nbyte byte => fitsField 8 byte.toNat
  | .start => true
  | .pixel r g b => fitsField 8 r.toNat && fitsField 8 g.toNat && fitsField 8 b.toNat
  | .thresh r g b => fitsField 8 r.toNat && fitsField 8 g.toNat && fitsField 8 b.toNat
  | .finish => true
  | .abort => true

/-- Every number of a written command fits its field (R81); for a pseudo-instruction, the fields of the commands it
expands to (R82). ROW's count n is a number of copies and has no field. -/
def Asm.wellFormed : Asm → Bool
  | .nop => true
  | .setw imm => fitsField 24 imm
  | .seth imm => fitsField 24 imm
  | .setf inv lb => fitsField 1 inv && fitsField 1 lb
  | .nclr => true
  | .nbyte byte => fitsField 8 byte
  | .start => true
  | .pixel r g b => fitsField 8 r && fitsField 8 g && fitsField 8 b
  | .thresh r g b => fitsField 8 r && fitsField 8 g && fitsField 8 b
  | .finish => true
  | .abort => true
  | .name s => s.all (fitsField 8)
  | .config w h inv lb => fitsField 24 w && fitsField 24 h && fitsField 1 inv && fitsField 1 lb
  | .black => true
  | .white => true
  | .row _ r g b => fitsField 8 r && fitsField 8 g && fitsField 8 b

end Sys2Proof
end

