-- ==== Sys2Proof/Machine/Assembler.lean ====
section
/-! DEFINITION. The assembler: from a written command to command words, pseudo-instructions expanded (`30_encoding.md`
R81, R82), and from a line of text to the written command (R81, log 16). -/

namespace Sys2Proof.Machine

/-- The commands a written command stands for, in order (R81, R82), when every number fits its field. -/
def expandAsm : Asm → List Instr
  | .nop => [.nop]
  | .setw imm => [.setw (BitVec.ofNat 24 imm)]
  | .seth imm => [.seth (BitVec.ofNat 24 imm)]
  | .setf inv lb => [.setf (decide (inv = 1)) (decide (lb = 1))]
  | .nclr => [.nclr]
  | .nbyte byte => [.nbyte (BitVec.ofNat 8 byte)]
  | .start => [.start]
  | .pixel r g b => [.pixel (BitVec.ofNat 8 r) (BitVec.ofNat 8 g) (BitVec.ofNat 8 b)]
  | .thresh r g b => [.thresh (BitVec.ofNat 8 r) (BitVec.ofNat 8 g) (BitVec.ofNat 8 b)]
  | .finish => [.finish]
  | .abort => [.abort]
  | .name s => .nclr :: s.map (fun c => .nbyte (BitVec.ofNat 8 c))
  | .config w h inv lb =>
    [.setw (BitVec.ofNat 24 w), .seth (BitVec.ofNat 24 h), .setf (decide (inv = 1)) (decide (lb = 1))]
  | .black => [.pixel 0x00#8 0x00#8 0x00#8]
  | .white => [.pixel 0xFF#8 0xFF#8 0xFF#8]
  | .row n r g b => List.replicate n (.pixel (BitVec.ofNat 8 r) (BitVec.ofNat 8 g) (BitVec.ofNat 8 b))

/-- The command words of a written command; `none` is the assembly error of a number that does not fit (R81). -/
def assemble (a : Asm) : Option (List Word) :=
  if a.wellFormed then some ((expandAsm a).map encode) else none

/-- A token of a line: a mnemonic, a number, a quoted string, a comma (R81). -/
inductive Token where
  | word (cs : List Char)
  | num (n : Nat)
  | str (codes : List Nat)
  | comma
  deriving DecidableEq, Repr

/-- Where the lexer is. The characters of an open token are held last first. -/
inductive LexMode where
  | gap
  | word (rev : List Char)
  | quote
  | quoted (code : Nat)
  | str (rev : List Nat)
  | comment
  deriving DecidableEq, Repr

/-- The ASCII code of a character (G3). -/
def charCode (c : Char) : Option Nat := if c.toNat < 128 then some c.toNat else none

/-- A digit's value in a base up to 16. -/
def digitValue (base : Nat) (c : Char) : Option Nat :=
  let n := c.toNat
  let v := if 48 ≤ n ∧ n ≤ 57 then n - 48 else if 65 ≤ n ∧ n ≤ 70 then n - 55
    else if 97 ≤ n ∧ n ≤ 102 then n - 87 else base
  if v < base then some v else none

/-- The number some digits write. -/
def digitsValue (base : Nat) : Nat → List Char → Option Nat
  | acc, [] => some acc
  | acc, c :: cs =>
    match digitValue base c with
    | some v => digitsValue base (acc * base + v) cs
    | none => none

/-- A number, decimal or hex with a `0x` prefix (R81). -/
def numberValue : List Char → Option Nat
  | '0' :: 'x' :: c :: cs => digitsValue 16 0 (c :: cs)
  | cs => digitsValue 10 0 cs

/-- The token of a finished run of letters and digits: a number when it begins with a digit. -/
def wordToken (cs : List Char) : Option Token :=
  match cs with
  | [] => none
  | c :: _ => if c.isDigit then (numberValue cs).map .num else some (.word cs)

/-- One character between tokens, after the tokens already read (last first). -/
def lexGap (toks : List Token) (c : Char) : Option (LexMode × List Token) :=
  if c = ';' then some (.comment, toks)
  else if c = ',' then some (.gap, .comma :: toks)
  else if c = '\'' then some (.quote, toks)
  else if c = '"' then some (.str [], toks)
  else if c = ' ' ∨ c = '\t' then some (.gap, toks)
  else if c.isAlphanum then some (.word [c], toks)
  else none

/-- One character of a line (R81). Inside quotes `;` and `,` are ordinary characters (log 16). -/
def lexChar (c : Char) : LexMode → List Token → Option (LexMode × List Token)
  | .gap, toks => lexGap toks c
  | .word rev, toks =>
    if c.isAlphanum then some (.word (c :: rev), toks)
    else (wordToken rev.reverse).bind (fun t => lexGap (t :: toks) c)
  | .quote, toks => (charCode c).map (fun n => (.quoted n, toks))
  | .quoted n, toks => if c = '\'' then some (.gap, .num n :: toks) else none
  | .str rev, toks =>
    if c = '"' then some (.gap, .str rev.reverse :: toks)
    else (charCode c).map (fun n => (.str (n :: rev), toks))
  | .comment, toks => some (.comment, toks)

/-- The tokens of a line. A line ends where a space could stand. -/
def lexLine : List Char → LexMode → List Token → Option (List Token)
  | [], m, toks =>
    match m with
    | .gap => some toks.reverse
    | .comment => some toks.reverse
    | .word rev => (wordToken rev.reverse).map (fun t => (t :: toks).reverse)
    | .quote => none
    | .quoted _ => none
    | .str _ => none
  | c :: cs, m, toks =>
    match lexChar c m toks with
    | some (m', toks') => lexLine cs m' toks'
    | none => none

/-- Operands separated by commas (R81). -/
def operandTokens : List Token → Option (List Token)
  | [] => some []
  | [.num n] => some [.num n]
  | [.str s] => some [.str s]
  | .num n :: .comma :: t :: ts => (operandTokens (t :: ts)).map (.num n :: ·)
  | _ => none

/-- The written command of a mnemonic and its operands (R81, R82). -/
def parseCommand (mnemonic : List Char) (operands : List Token) : Option Asm :=
  match operands with
  | [] =>
    if mnemonic = "NOP".toList then some .nop
    else if mnemonic = "NCLR".toList then some .nclr
    else if mnemonic = "START".toList then some .start
    else if mnemonic = "FINISH".toList then some .finish
    else if mnemonic = "ABORT".toList then some .abort
    else if mnemonic = "BLACK".toList then some .black
    else if mnemonic = "WHITE".toList then some .white
    else none
  | [.num a] =>
    if mnemonic = "SETW".toList then some (.setw a)
    else if mnemonic = "SETH".toList then some (.seth a)
    else if mnemonic = "NBYTE".toList then some (.nbyte a)
    else none
  | [.str s] => if mnemonic = "NAME".toList then some (.name s) else none
  | [.num a, .num b] => if mnemonic = "SETF".toList then some (.setf a b) else none
  | [.num a, .num b, .num c] =>
    if mnemonic = "PIXEL".toList then some (.pixel a b c)
    else if mnemonic = "THRESH".toList then some (.thresh a b c)
    else none
  | [.num a, .num b, .num c, .num d] =>
    if mnemonic = "CONFIG".toList then some (.config a b c d)
    else if mnemonic = "ROW".toList then some (.row a b c d)
    else none
  | _ => none

/-- The command words of one line of text: none of them for a blank or comment line, `none` for an assembly error
(R81). DESIGN CHOICE (log 16, unsafe): a line holds at most one command, and a second one on it is an assembly error. -/
def assembleLine (line : List Char) : Option (List Word) :=
  match lexLine line .gap [] with
  | none => none
  | some [] => some []
  | some (.word m :: ts) => ((operandTokens ts).bind (parseCommand m)).bind assemble
  | some _ => none

/-- The command words of a program, line by line. DESIGN CHOICE (log 16, unsafe): a command does not run over its line, and an
assembly error in one line is an error of the whole program. -/
def assembleLines : List (List Char) → Option (List Word)
  | [] => some []
  | l :: ls =>
    match assembleLine l with
    | none => none
    | some ws => (assembleLines ls).map (ws ++ ·)

end Sys2Proof.Machine
end

