-- ==== Sys2Proof/Machine/Encode.lean ====
section
/-! DEFINITION. The whole encode as one function of its inputs, in the spec's closed forms and without the machine
(`41_bit_packer.md` R107, `42_polarity_inverter.md` R123, `45_container_builder.md` R156), and the host's side of it: the
commands and the takes that make the block run it (R114, R156, `70_reset_and_hazards.md` R197). -/

namespace Sys2Proof.Machine

/-- A pixel's components. -/
abbrev Rgb := Byte × Byte × Byte

/-- An image: the pixel at column x of row y, the source's `rgb(x, y)` (R18, R114). -/
abbrev Image := Nat → Nat → Rgb

/-- T of a pixel (R93). -/
def lightPixel (p : Rgb) : Bool := light p.1 p.2.1 p.2.2

/-- The term of column bit position p in R107's sum. -/
def packedBit (w : Nat) (img : Image) (y j p : Nat) : Byte :=
  if 8 * j + p < w ∧ lightPixel (img (8 * j + p) y) = true then pixelMask p else 0x00#8

/-- Byte j of row y of the packed buffer, as a sum over the byte's eight columns (R107). -/
def packedByte (w : Nat) (img : Image) (y j : Nat) : Byte :=
  (List.range 8).foldl (fun acc p => acc + packedBit w img y j p) 0x00#8

/-- Row y of the packed buffer. -/
def packedRow (w : Nat) (img : Image) (y : Nat) : List Byte :=
  (List.range (rowStrideOf w)).map (packedByte w img y)

/-- The packed buffer, row after row (R52, R107). -/
def packedBytes (w h : Nat) (img : Image) : List Byte :=
  (List.range h).flatMap (packedRow w img)

/-- The data bits of byte j of a row, 1 to 8 of them (R123). -/
def validBits (w j : Nat) : Nat := min 8 (w - 8 * j)

/-- Those data bits, from bit 7 down (R123). -/
def dataMask (w j : Nat) : Byte := 0xFF#8 <<< (8 - validBits w j)

/-- One byte of the inverted buffer, at address a (R123). -/
def invertedByte (w a : Nat) (v : Byte) : Byte := ~~~v &&& dataMask w (a % rowStrideOf w)

/-- Invert on a string of bytes, in the closed form (R123). -/
def invertedBytes (w : Nat) (bytes : List Byte) : List Byte := bytes.mapIdx (invertedByte w)

/-- Encode(n, w, h, inv, lb, P) (R156). -/
def encodeImage (hc : HexCase) (name : List Byte) (w h : Nat) (inv lb : Bool) (img : Image) : List Byte :=
  container name (byteLengthOf w h) (rowStrideOf w)
    (payloadOf hc lb (rowStrideOf w)
      (if inv then invertedBytes w (packedBytes w h img) else packedBytes w h img))

/-- PIXEL for one pixel. -/
def pixelCommand (p : Rgb) : Instr := .pixel p.1 p.2.1 p.2.2

/-- The PIXELs of row y, from column 0 (R114). -/
def rowCommands (w : Nat) (img : Image) (y : Nat) : List Instr :=
  (List.range w).map (fun x => pixelCommand (img x y))

/-- The PIXELs of an image in raster order (R33, R114). -/
def pixelCommands (w h : Nat) (img : Image) : List Instr :=
  (List.range h).flatMap (rowCommands w img)

/-- The commands of one encode, in the order of R156 and R197: configuration, the name (R82), START, the pixels,
FINISH. -/
def encodeCommands (name : List Byte) (w h : U24) (inv lb : Bool) (img : Image) : List Instr :=
  [.setw w, .seth h, .setf inv lb, .nclr] ++ name.map .nbyte ++ [.start] ++ pixelCommands w.toNat h.toNat img ++ [.finish]

/-- Offer each command on CMD, in order. -/
def sendAll (is : List Instr) : List HostAction := is.map (fun i => .send (encode i))

/-- What the host does for one encode: the commands, then take every byte up to OUT_LAST (R46, R197). -/
def encodeAgenda (hc : HexCase) (name : List Byte) (w h : U24) (inv lb : Bool) (img : Image) : List HostAction :=
  sendAll (encodeCommands name w h inv lb img) ++
    List.replicate (encodeImage hc name w.toNat h.toNat inv lb img).length .take

/-- The machine's steps for that agenda: two for a command (the host offers it, the block accepts it), one for a byte. -/
def encodeSteps (hc : HexCase) (name : List Byte) (w h : U24) (inv lb : Bool) (img : Image) : Nat :=
  2 * (encodeCommands name w h inv lb img).length + (encodeImage hc name w.toNat h.toNat inv lb img).length

end Sys2Proof.Machine
end

