-- ==== Sys2Proof/Safety.lean ====
section
/-! DEFINITION. What the claims are stated in: the invariant every step keeps (`70_reset_and_hazards.md` R194 and the
ranges of `10_state.md`), the padding bits (`20_memory.md` R54), the end of a run (R205) and the hang (R199). -/

namespace Sys2Proof.Machine

/-- Every address below n has a value. -/
def Memory.covers (m : Memory) (n : Nat) : Prop := ∀ a, a < n → ∃ v, m.read a = some v

/-- Every listed address is below n. -/
def Memory.inside (m : Memory) (n : Nat) : Prop := ∀ c ∈ m, c.1 < n

/-- The bit of column x of row y in BUF, where its byte has a value (R50, R51). -/
def bufBit (s : State) (x y : Nat) : Option Bool :=
  (s.buf.read (pixelAddr s.rowStride.toNat x y)).map (fun v => v &&& pixelMask x != 0x00#8)

/-- Every padding bit is 0 (R54, R122). -/
def paddingClear (s : State) : Prop :=
  ∀ x y, y < s.height.toNat → s.width.toNat ≤ x → x < s.rowStride.toNat * 8 → bufBit s x y = some false

/-- An encode is in progress (R18). -/
def inEncode (s : State) : Prop := s.blockState = .load ∨ s.blockState = .emit

/-- The registers describe the configured image: START's success made them so and nothing changes them before the last
output byte (R47, R110). -/
structure DimsAgree (s : State) : Prop where
  widthPos : 0 < s.width.toNat
  heightPos : 0 < s.height.toNat
  rowStrideIs : s.rowStride.toNat = rowStrideOf s.width.toNat
  byteLengthIs : s.byteLength.toNat = byteLengthOf s.width.toNat s.height.toNat

/-- What holds of every reachable state. -/
structure Inv (s : State) : Prop where
  /-- The parameters are in range (R9, R10). -/
  paramsValid : s.params.valid = true
  /-- BUF keeps its canonical form. -/
  bufWf : s.buf.wf = true
  /-- BUF holds nothing outside its space (R49). -/
  bufInside : s.buf.inside s.params.bufBytes.toNat
  /-- NAME keeps its canonical form. -/
  nameWf : s.name.wf = true
  /-- NAME holds nothing outside its space (R49). -/
  nameInside : s.name.inside s.params.nameMax.toNat
  /-- NAME_LEN never passes NAME_MAX (R28). -/
  nameLenBound : s.nameLen.toNat ≤ s.params.nameMax.toNat
  /-- Every name byte below NAME_LEN has been written (R194). -/
  nameWritten : s.name.covers s.nameLen.toNat
  /-- ERR is non-zero exactly in ERROR (R24). -/
  errExactly : s.err ≠ .noError ↔ s.blockState = .error
  /-- BYTE_LENGTH never exceeds BUF_BYTES (R30). -/
  byteLengthBound : s.byteLength.toNat ≤ s.params.bufBytes.toNat
  /-- Every BUF byte below BYTE_LENGTH has been written (R194). -/
  bufWritten : s.buf.covers s.byteLength.toNat
  /-- During an encode the derived registers are those of the configured image (R47, R110). -/
  dims : inEncode s → DimsAgree s
  /-- During an encode every padding bit is 0 (R109, R122). -/
  padding : inEncode s → paddingClear s
  /-- In LOAD the cursor is a pixel of the image, or just past the last one (R31, R32, R113). -/
  loadCursor : s.blockState = .load →
    (s.curX.toNat < s.width.toNat ∧ s.curY.toNat < s.height.toNat) ∨ (s.curX = 0#24 ∧ s.curY = s.height)
  /-- OUT_COUNT counts the bytes taken (R35). -/
  takenCount : s.hostTaken.length = s.outCount
  /-- In EMIT there is a byte to offer and the bytes taken are the first of E (R153). -/
  emitProgress : s.blockState = .emit →
    ∃ e, emission s = .ok e ∧ s.outCount < e.length ∧ s.hostTaken = e.take s.outCount
  /-- In DONE the host holds the artifact whole (R155, R205). -/
  doneArtifact : s.blockState = .done → s.hostArtifacts.getLast? = some s.hostTaken

/-- The action offers a command word. -/
def HostAction.isSend : HostAction → Bool
  | .send _ => true
  | .take => false
  | .read _ => false
  | .reset => false

/-- The action takes a byte or resets the block: what can end an emission (R198, R199). -/
def HostAction.endsEmission : HostAction → Bool
  | .send _ => false
  | .take => true
  | .read _ => false
  | .reset => true

/-- The host has no command left to send: none is on CMD and none is to come (R205). -/
def noCommandLeft (s : State) : Bool := s.cmdPort.isNone && s.hostAgenda.all (fun a => !a.isSend)

/-- The run is over: the host has no command left to send, and the state is DONE, ERROR or IDLE (R205). Reads, takes and
resets may still come. -/
def runOver (s : State) : Bool := noCommandLeft s && outsideEncode s.blockState

/-- The hang: the block is in EMIT, and the host takes no further byte and does not reset, whatever else it does (R199,
R205). -/
def hangs (s : State) : Bool := decide (s.blockState = .emit) && s.hostAgenda.all (fun a => !a.endsEmission)

/-- The commands one after another, stopping where one stops. -/
def execAll : List Instr → State → Host.Outcome State Fault Refusal
  | [], s => .next s
  | i :: is, s =>
    match exec i s with
    | .next t => execAll is t
    | .fault f => .fault f
    | .refused r => .refused r

/-- The state `exec` or `step` answers, if it answers one. -/
def nextState : Host.Outcome State Fault Refusal → Option State
  | .next s => some s
  | .fault _ => none
  | .refused _ => none

/-- The configuration an encode sees: WIDTH, HEIGHT, FLAGS, NAME_LEN and NAME (R47). -/
def sameConfig (s t : State) : Prop :=
  t.width = s.width ∧ t.height = s.height ∧ t.invert = s.invert ∧ t.lineBreak = s.lineBreak ∧
    t.nameLen = s.nameLen ∧ t.name = s.name

end Sys2Proof.Machine
end

