-- ==== Sys2Proof/Certificates/Slice0/Obligations.lean ====
section
/-! DEFINITION. The statements for the provers, one `def Obligations.<Name> : Prop` each. A `raiseFault c s` in a statement
is the fault entry `FaultEntryWritesOnlyStatus` states; `s.withStatus`, `s.withPort` and the like are record updates. -/

open Sys2Proof Sys2Proof.Machine

/-! ## Encoding -/

/-- Decoding an encoded command gives it back, for every operand value (R70 to R76). -/
def Obligations.DecodeOfEncode : Prop :=
  ∀ i : Instr, decode (encode i) = .command i

/-- A word that decodes to a command is that command's word, so no two words decode to one command (R70 to R76). -/
def Obligations.EncodeOfDecode : Prop :=
  ∀ (w : Word) (i : Instr), decode w = .command i → encode i = w

/-- The reserved opcodes are the 245 of R77; such a word faults with ERR_OPCODE, code 6, and has no other effect. -/
def Obligations.ReservedOpcodesFault : Prop :=
  (∀ w : Word, decode w = .reservedOpcode ↔
    (opField w = 0x06#8 ∨ opField w = 0x07#8 ∨ opField w = 0x0C#8 ∨ opField w = 0x0D#8 ∨ opField w = 0x0E#8 ∨
      0x10 ≤ (opField w).toNat)) ∧
  ((List.range 256).filter (fun c => (Op.ofCode (BitVec.ofNat 8 c)).isNone)).length = 245 ∧
  ErrCode.code .opcode = 6#4 ∧
  ∀ (w : Word) (s : State), decode w = .reservedOpcode →
    (s.blockState ≠ .error → accept w s = .next { s with blockState := .error, err := .opcode }) ∧
    (s.blockState = .error → accept w s = .next s)

/-- A word with an assigned opcode and a reserved operand bit set faults with ERR_RESERVED, code 7, and has no other
effect; the reserved bits are 23..0 of Z, 23..2 of F2, 23..8 of B8 (R78). -/
def Obligations.ReservedBitsFault : Prop :=
  (∀ (w : Word) (op : Op), Op.ofCode (opField w) = some op →
    (decode w = .reservedBits ↔
      ((op.format = .z ∧ w.extractLsb' 0 24 ≠ 0#24) ∨ (op.format = .f2 ∧ w.extractLsb' 2 22 ≠ 0#22) ∨
        (op.format = .b8 ∧ w.extractLsb' 8 16 ≠ 0#16)))) ∧
  (∀ op : Op, op.format = .z ↔ op ∈ [Op.nop, .nclr, .start, .finish, .abort]) ∧
  (∀ op : Op, op.format = .f2 ↔ op = .setf) ∧
  (∀ op : Op, op.format = .b8 ↔ op = .nbyte) ∧
  (∀ op : Op, op.format = .u24 ↔ op ∈ [Op.setw, .seth]) ∧
  (∀ op : Op, op.format = .rgb ↔ op ∈ [Op.pixel, .thresh]) ∧
  ErrCode.code .reserved = 7#4 ∧
  ∀ (w : Word) (s : State), decode w = .reservedBits →
    (s.blockState ≠ .error → accept w s = .next { s with blockState := .error, err := .reserved }) ∧
    (s.blockState = .error → accept w s = .next s)

/-- Words written out from the opcode map decode to the commands they stand for (R75, R81). -/
def Obligations.SampleWordsDecode : Prop :=
  decode 0x00000000#32 = .command .nop ∧ decode 0x01000009#32 = .command (.setw 9#24) ∧
  decode 0x02000002#32 = .command (.seth 2#24) ∧ decode 0x03000001#32 = .command (.setf true false) ∧
  decode 0x03000002#32 = .command (.setf false true) ∧ decode 0x04000000#32 = .command .nclr ∧
  decode 0x05000041#32 = .command (.nbyte 0x41#8) ∧ decode 0x08000000#32 = .command .start ∧
  decode 0x09010203#32 = .command (.pixel 1#8 2#8 3#8) ∧ decode 0x0AC86451#32 = .command (.thresh 200#8 100#8 81#8) ∧
  decode 0x0B000000#32 = .command .finish ∧ decode 0x0F000000#32 = .command .abort

/-- Each pseudo-instruction whose numbers fit their fields assembles to the words of the commands R82 gives it, in
order. -/
def Obligations.PseudoInstructionsExpand : Prop :=
  (∀ s : List Byte, assemble (.name (s.map BitVec.toNat)) = some (encode .nclr :: s.map (fun b => encode (.nbyte b)))) ∧
  (∀ (w h : U24) (inv lb : Bool), assemble (.config w.toNat h.toNat inv.toNat lb.toNat) =
    some [encode (.setw w), encode (.seth h), encode (.setf inv lb)]) ∧
  assemble .black = some [encode (.pixel 0#8 0#8 0#8)] ∧
  assemble .white = some [encode (.pixel 255#8 255#8 255#8)] ∧
  (∀ (n : Nat) (r g b : Byte), assemble (.row n r.toNat g.toNat b.toNat) =
    some (List.replicate n (encode (.pixel r g b)))) ∧
  assemble (.name []) = some [encode .nclr]

/-- A written command assembles exactly when every number fits its field, and then its words decode to the commands it
stands for; a number that does not fit is an error and is never truncated. The bounds are written out for every form with a
number: 24 bits, 8 bits and 1 bit; ROW's count has no field (R81, R82). -/
def Obligations.AssemblerNeverTruncates : Prop :=
  ∀ a : Asm,
    (a.wellFormed = false → assemble a = none) ∧
    (a.wellFormed = true → ∃ ws, assemble a = some ws ∧ ws.map decode = (expandAsm a).map .command) ∧
    (∀ n, a = .setw n → assemble a = if n < 2 ^ 24 then some [0x01#8 ++ BitVec.ofNat 24 n] else none) ∧
    (∀ n, a = .seth n → assemble a = if n < 2 ^ 24 then some [0x02#8 ++ BitVec.ofNat 24 n] else none) ∧
    (∀ inv lb, a = .setf inv lb → assemble a =
      if inv < 2 ∧ lb < 2 then some [0x00C00000#30 ++ BitVec.ofNat 1 lb ++ BitVec.ofNat 1 inv] else none) ∧
    (∀ n, a = .nbyte n → assemble a = if n < 2 ^ 8 then some [0x050000#24 ++ BitVec.ofNat 8 n] else none) ∧
    (∀ r g b, a = .pixel r g b → assemble a =
      if r < 2 ^ 8 ∧ g < 2 ^ 8 ∧ b < 2 ^ 8 then
        some [0x09#8 ++ BitVec.ofNat 8 r ++ BitVec.ofNat 8 g ++ BitVec.ofNat 8 b] else none) ∧
    (∀ r g b, a = .thresh r g b → assemble a =
      if r < 2 ^ 8 ∧ g < 2 ^ 8 ∧ b < 2 ^ 8 then
        some [0x0A#8 ++ BitVec.ofNat 8 r ++ BitVec.ofNat 8 g ++ BitVec.ofNat 8 b] else none) ∧
    (∀ s, a = .name s → assemble a =
      if ∀ n ∈ s, n < 2 ^ 8 then
        some (0x04000000#32 :: s.map (fun n => 0x050000#24 ++ BitVec.ofNat 8 n)) else none) ∧
    (∀ w h inv lb, a = .config w h inv lb → assemble a =
      if w < 2 ^ 24 ∧ h < 2 ^ 24 ∧ inv < 2 ∧ lb < 2 then
        some [0x01#8 ++ BitVec.ofNat 24 w, 0x02#8 ++ BitVec.ofNat 24 h,
          0x00C00000#30 ++ BitVec.ofNat 1 lb ++ BitVec.ofNat 1 inv] else none) ∧
    (∀ n r g b, a = .row n r g b → assemble a =
      if r < 2 ^ 8 ∧ g < 2 ^ 8 ∧ b < 2 ^ 8 then
        some (List.replicate n (0x09#8 ++ BitVec.ofNat 8 r ++ BitVec.ofNat 8 g ++ BitVec.ofNat 8 b)) else none)

/-! ## Steps, ports and reset -/

/-- A step runs the word it accepts. A word is accepted when it is on CMD, outside EMIT (R198) and when RST is not asserted at
the same moment (R182); the step takes it off CMD and runs Accept on it: the command it decodes to, or the fault of a reserved
word (R159). That it is accepted before any other action of the host but reset is the model's choice (log 4, with R200 and
R204); in every other step the host acts: nothing to do changes nothing, a take is the output step, an offer goes onto a free
CMD (`ReadHasNoSideEffect`, `ResetTakesEffect` and `CommandWaitsInEmit` have the rest). -/
def Obligations.StepRunsDecodedCommand : Prop :=
  (∀ (s : State) (w : Word), acceptedWord s = some w ↔
    s.cmdPort = some w ∧ s.blockState ≠ .emit ∧ resetAsserted s = false) ∧
  (∀ s : State, s.blockState ≠ .emit → (resetAsserted s = true ↔ s.hostAgenda.head? = some .reset)) ∧
  (∀ (s : State) (w : Word), acceptedWord s = some w → step s = accept w { s with cmdPort := none }) ∧
  (∀ (s : State) (w : Word) (i : Instr), acceptedWord s = some w → i.wellFormed = true → decode w = .command i →
    step s = exec i { s with cmdPort := none }) ∧
  (∀ (s : State) (w : Word), acceptedWord s = some w → decode w = .reservedOpcode →
    step s = .next (raiseFault .opcode { s with cmdPort := none })) ∧
  (∀ (s : State) (w : Word), acceptedWord s = some w → decode w = .reservedBits →
    step s = .next (raiseFault .reserved { s with cmdPort := none })) ∧
  (∀ s : State, acceptedWord s = none → step s = hostStep s) ∧
  (∀ s : State, acceptedWord s = none → s.hostAgenda = [] → step s = .next s) ∧
  (∀ (s : State) (rest : List HostAction), acceptedWord s = none → s.hostAgenda = .take :: rest →
    step s = outputStep { s with hostAgenda := rest }) ∧
  ∀ (s : State) (w : Word) (rest : List HostAction), s.cmdPort = none → s.hostAgenda = .send w :: rest →
    step s = .next { s with cmdPort := some w, hostAgenda := rest }

/-- In EMIT no command is accepted. A word the host offers goes onto CMD when CMD is free; a word on CMD stays there whatever the host does short of reset, only the emission and
the host's own record move, and the word is the next one accepted once the state is DONE; reset ends the hold too
(R198). Two parts are the model's own: `exec` of a command in EMIT, which no step calls, puts its word back on CMD (log 7), and
a further offer waits with the host while READ, OUT and RST stay open to it: the read, take or reset behind offers that wait
happens, and with nothing but offers to come nothing changes (log 6). -/
def Obligations.CommandWaitsInEmit : Prop :=
  (∀ (i : Instr) (s : State), s.blockState = .emit → exec i s = .next { s with cmdPort := some (encode i) }) ∧
  (∀ (s t : State) (w : Word), s.blockState = .emit → s.cmdPort = some w → resetAsserted s = false → step s = .next t →
    t = { s with blockState := t.blockState, outCount := t.outCount, hostAgenda := t.hostAgenda,
                 hostTaken := t.hostTaken, hostArtifacts := t.hostArtifacts, hostReads := t.hostReads } ∧
    (t.blockState = .emit ∨ t.blockState = .done) ∧
    (t.blockState = .done → resetAsserted t = false → step t = accept w { t with cmdPort := none })) ∧
  (∀ s : State, s.blockState = .emit → resetAsserted s = true → ∃ t, step s = .next t ∧ t.blockState = .idle) ∧
  (∀ (s : State) (w : Word) (rest : List HostAction), s.blockState = .emit → s.cmdPort = none →
    s.hostAgenda = .send w :: rest → step s = .next { s with cmdPort := some w, hostAgenda := rest }) ∧
  ∀ (s : State) (w : Word) (waiting : List Word), s.blockState = .emit → s.cmdPort = some w →
    (s.hostAgenda = waiting.map .send → step s = .next s) ∧
    ∀ rest : List HostAction,
      (∀ i, s.hostAgenda = waiting.map .send ++ .read i :: rest →
        step s = .next { s with hostAgenda := waiting.map .send ++ rest, hostReads := s.hostReads ++ [(i, readReg s i)] }) ∧
      (s.hostAgenda = waiting.map .send ++ .take :: rest →
        step s = outputStep { s with hostAgenda := waiting.map .send ++ rest }) ∧
      (s.hostAgenda = waiting.map .send ++ .reset :: rest →
        step s = .next (resetBlock { s with hostAgenda := waiting.map .send ++ rest }))

/-- RST in any state: IDLE, no error, every register at its reset value, OUT_VALID 0, a word offered at the same moment
lost (R193). That a word which has been waiting on CMD in EMIT is lost too is the model's reading (log 9). Of BUF and NAME it
says nothing, as R193 does. -/
def Obligations.ResetTakesEffect : Prop :=
  ∀ (s : State) (rest : List HostAction), s.hostAgenda = .reset :: rest →
    ∃ t, step s = .next t ∧ t.blockState = .idle ∧ t.err = .noError ∧ t.width = 0#24 ∧ t.height = 0#24 ∧
      t.invert = false ∧ t.lineBreak = false ∧ t.nameLen = 0#32 ∧ t.rowStride = 0#32 ∧ t.byteLength = 0#32 ∧
      t.curX = 0#24 ∧ t.curY = 0#24 ∧ t.threshResult = 0#9 ∧ t.outCount = 0 ∧ t.params = s.params ∧
      (∀ i : Byte, readReg t i = if i.toNat = 0x0B ∨ i.toNat = 0x0C ∨ i.toNat = 0x0D then readReg s i else 0#32) ∧
      outValid t = false ∧ t.cmdPort = none ∧ t.hostAgenda = rest

/-- The defaults after reset: START faults with ERR_DIM, inversion and line breaking are off, the name is empty (R196),
for every build of the block. -/
def Obligations.DefaultsAfterReset : Prop :=
  ∀ p : Params,
    exec .start (State.resetWith p) = .next { State.resetWith p with blockState := .error, err := .dim } ∧
    (State.resetWith p).invert = false ∧ (State.resetWith p).lineBreak = false ∧
    nameBytes (State.resetWith p) = .ok [] ∧ readReg (State.resetWith p) 0x00#8 = 0#32

/-- A run that is over keeps its state for ever when the host does nothing more (R192). A hang lasts for ever: whatever words
the host offers and whatever registers it reads, the block stays in EMIT and nothing of it changes (R199). That further offers
wait with the host is the model's own (log 6). -/
def Obligations.WaitingKeepsEverything : Prop :=
  (∀ s : State, runOver s = true → s.hostAgenda = [] → ∀ n : Nat, Host.Core.run Sys2Proof.core n s = .next s) ∧
  ∀ s : State, hangs s = true → ∀ n : Nat, ∃ t, Host.Core.run Sys2Proof.core n s = .next t ∧ hangs t = true ∧
    t = { s with cmdPort := t.cmdPort, hostAgenda := t.hostAgenda, hostReads := t.hostReads }

/-- The end of a run: no command left to send, in DONE, ERROR or IDLE; it stays over whatever else the host does, and only a
reset changes the block. In DONE the bytes taken since FINISH are E, in ERROR STATUS.ERR names the fault and no byte is
offered. A hang is no end of run, and a reset ends it, even behind offers that wait (R199, R205, log 6). -/
def Obligations.EndOfRunAndHang : Prop :=
  (∀ s : State, runOver s = true ↔
    s.cmdPort = none ∧ (∀ w, HostAction.send w ∉ s.hostAgenda) ∧
      (s.blockState = .idle ∨ s.blockState = .done ∨ s.blockState = .error)) ∧
  (∀ s : State, runOver s = true → ∃ t, step s = .next t ∧ runOver t = true ∧
    ((resetAsserted s = true ∧ t.blockState = .idle) ∨
      t = { s with hostAgenda := t.hostAgenda, hostReads := t.hostReads })) ∧
  (∀ s t : State, Inv s → s.blockState = .emit → step s = .next t → t.blockState = .done →
    emission s = .ok t.hostTaken) ∧
  (∀ s : State, Inv s → s.blockState = .error → s.err ≠ .noError ∧ outValid s = false) ∧
  (∀ s : State, hangs s = true ↔
    s.blockState = .emit ∧ HostAction.take ∉ s.hostAgenda ∧ HostAction.reset ∉ s.hostAgenda) ∧
  ∀ s : State, hangs s = true →
    ∃ n t, Host.Core.run Sys2Proof.core n { s with hostAgenda := s.hostAgenda ++ [.reset] } = .next t ∧ t.blockState = .idle

/-- The register words: every field at its bits and every other bit 0 (R23 and the rules it names), with the codes of the five
states (R21) and of the errors (R171). -/
def Obligations.RegisterWords : Prop :=
  (BlockState.code .idle = 0#3 ∧ BlockState.code .load = 1#3 ∧ BlockState.code .emit = 2#3 ∧ BlockState.code .done = 3#3 ∧
    BlockState.code .error = 4#3) ∧
  (ErrCode.code .noError = 0#4 ∧ ErrCode.code .dim = 1#4 ∧ ErrCode.code .capacity = 2#4 ∧ ErrCode.code .overrun = 3#4 ∧
    ErrCode.code .underrun = 4#4 ∧ ErrCode.code .sequence = 5#4 ∧ ErrCode.code .opcode = 6#4 ∧
    ErrCode.code .reserved = 7#4 ∧ ErrCode.code .nameFull = 8#4) ∧
  ∀ s : State,
    ((readReg s 0x00#8).extractLsb' 0 3 = s.blockState.code ∧ (readReg s 0x00#8).getLsbD 3 = false ∧
      (readReg s 0x00#8).extractLsb' 4 4 = s.err.code ∧ (readReg s 0x00#8).extractLsb' 8 24 = 0#24) ∧
    ((readReg s 0x01#8).toNat = s.width.toNat ∧ (readReg s 0x02#8).toNat = s.height.toNat) ∧
    ((readReg s 0x03#8).getLsbD 0 = s.invert ∧ (readReg s 0x03#8).getLsbD 1 = s.lineBreak ∧
      (readReg s 0x03#8).extractLsb' 2 30 = 0#30) ∧
    (readReg s 0x04#8 = s.nameLen ∧ readReg s 0x05#8 = s.rowStride ∧ readReg s 0x06#8 = s.byteLength) ∧
    ((readReg s 0x07#8).toNat = s.curX.toNat ∧ (readReg s 0x08#8).toNat = s.curY.toNat) ∧
    (readReg s 0x09#8).toNat = s.threshResult.toNat ∧
    (readReg s 0x0A#8).toNat = s.outCount % 2 ^ 32 ∧
    ((readReg s 0x0B#8 = if s.params.hexCase = .lower then 1#32 else 0#32) ∧ readReg s 0x0C#8 = s.params.bufBytes ∧
      readReg s 0x0D#8 = s.params.nameMax) ∧
    ∀ i : Byte, 0x0E ≤ i.toNat → readReg s i = 0#32

/-- A read happens in any state, EMIT included, gives the register's word and changes nothing of the block (R40). -/
def Obligations.ReadHasNoSideEffect : Prop :=
  ∀ (s : State) (i : Byte) (rest : List HostAction), s.hostAgenda = .read i :: rest → acceptedWord s = none →
    step s = .next { s with hostAgenda := rest, hostReads := s.hostReads ++ [(i, readReg s i)] }

/-- CONFIG_ID, BUF_SIZE and NAME_CAP read the same before and after every step, reset included (R37, R38, R39). -/
def Obligations.ConstantsNeverChange : Prop :=
  ∀ s t : State, step s = .next t →
    readReg t 0x0B#8 = readReg s 0x0B#8 ∧ readReg t 0x0C#8 = s.params.bufBytes ∧ readReg t 0x0D#8 = s.params.nameMax ∧
    (readReg s 0x0B#8).getLsbD 0 = decide (s.params.hexCase = .lower) ∧ (readReg s 0x0B#8).extractLsb' 1 31 = 0#31

/-! ## Commands -/

/-- NOP changes nothing in IDLE, LOAD, DONE and ERROR; with a non-zero operand it faults with ERR_RESERVED (R161). -/
def Obligations.NopChangesNothing : Prop :=
  encode .nop = 0x00000000#32 ∧
  (∀ s : State, s.blockState ≠ .emit → exec .nop s = .next s) ∧
  ∀ (w : Word) (s : State), opField w = 0x00#8 → operandField w ≠ 0#24 → accept w s = .next (raiseFault .reserved s)

/-- SETW writes WIDTH and nothing else, 0 included, in IDLE, DONE and ERROR; in LOAD it faults with ERR_SEQUENCE (R162). -/
def Obligations.SetwWritesWidth : Prop :=
  ∀ (imm : U24) (s : State),
    encode (.setw imm) = (0x01000000#32 ||| imm.setWidth 32) ∧
    (s.blockState = .idle ∨ s.blockState = .done ∨ s.blockState = .error →
      exec (.setw imm) s = .next { s with width := imm }) ∧
    (s.blockState = .load → exec (.setw imm) s = .next { s with blockState := .error, err := .sequence })

/-- SETH writes HEIGHT and nothing else, 0 included, in IDLE, DONE and ERROR; in LOAD it faults with ERR_SEQUENCE
(R163). -/
def Obligations.SethWritesHeight : Prop :=
  ∀ (imm : U24) (s : State),
    encode (.seth imm) = (0x02000000#32 ||| imm.setWidth 32) ∧
    (s.blockState = .idle ∨ s.blockState = .done ∨ s.blockState = .error →
      exec (.seth imm) s = .next { s with height := imm }) ∧
    (s.blockState = .load → exec (.seth imm) s = .next { s with blockState := .error, err := .sequence })

/-- SETF writes both flags at once and nothing else, all four combinations; in LOAD it faults with ERR_SEQUENCE; with a
reserved bit set it faults with ERR_RESERVED (R164). -/
def Obligations.SetfWritesFlags : Prop :=
  (∀ (inv lb : Bool) (s : State),
    encode (.setf inv lb) =
      (0x03000000#32 ||| ((if lb then 1#32 else 0#32) <<< 1) ||| (if inv then 1#32 else 0#32)) ∧
    (s.blockState = .idle ∨ s.blockState = .done ∨ s.blockState = .error →
      exec (.setf inv lb) s = .next { s with invert := inv, lineBreak := lb }) ∧
    (s.blockState = .load → exec (.setf inv lb) s = .next { s with blockState := .error, err := .sequence })) ∧
  ∀ (w : Word) (s : State), opField w = 0x03#8 → w.extractLsb' 2 22 ≠ 0#22 →
    accept w s = .next (raiseFault .reserved s)

/-- NCLR sets NAME_LEN to 0 and changes nothing else, the name bytes included; an encode then has the empty name; in LOAD it
faults with ERR_SEQUENCE; with a non-zero operand it faults with ERR_RESERVED (R165). -/
def Obligations.NclrEmptiesName : Prop :=
  encode .nclr = 0x04000000#32 ∧
  (∀ s : State, s.blockState = .idle ∨ s.blockState = .done ∨ s.blockState = .error →
    ∃ t, exec .nclr s = .next t ∧ t = { s with nameLen := 0#32 } ∧ nameBytes t = .ok []) ∧
  (∀ s : State, s.blockState = .load → exec .nclr s = .next { s with blockState := .error, err := .sequence }) ∧
  ∀ (w : Word) (s : State), opField w = 0x04#8 → operandField w ≠ 0#24 → accept w s = .next (raiseFault .reserved s)

/-- NBYTE writes its byte at index NAME_LEN and adds 1 to NAME_LEN, nothing else changes; when the store is full it faults
with ERR_NAME, which in ERROR changes nothing; in LOAD it faults with ERR_SEQUENCE; with a reserved bit set it faults
with ERR_RESERVED (R166, R180). -/
def Obligations.NbyteAppends : Prop :=
  (∀ (byte : Byte) (s : State),
    encode (.nbyte byte) = (0x05000000#32 ||| byte.setWidth 32) ∧
    (s.blockState = .idle ∨ s.blockState = .done ∨ s.blockState = .error → s.nameLen.toNat < s.params.nameMax.toNat →
      ∃ t, exec (.nbyte byte) s = .next t ∧ t = { s with name := t.name, nameLen := t.nameLen } ∧
        t.nameLen.toNat = s.nameLen.toNat + 1 ∧ t.name.read s.nameLen.toNat = some byte ∧
        ∀ k, k ≠ s.nameLen.toNat → t.name.read k = s.name.read k) ∧
    (s.blockState = .idle ∨ s.blockState = .done → s.nameLen = s.params.nameMax →
      exec (.nbyte byte) s = .next { s with blockState := .error, err := .nameFull }) ∧
    (s.blockState = .error → s.nameLen = s.params.nameMax → exec (.nbyte byte) s = .next s) ∧
    (s.blockState = .load → exec (.nbyte byte) s = .next { s with blockState := .error, err := .sequence })) ∧
  ErrCode.code .nameFull = 8#4 ∧
  ∀ (w : Word) (s : State), opField w = 0x05#8 → w.extractLsb' 8 16 ≠ 0#16 →
    accept w s = .next (raiseFault .reserved s)

/-- THRESH writes THRESH_RESULT, GRAY and LIGHT of its operands, and nothing else, in IDLE, LOAD, DONE and ERROR;
in EMIT no word is accepted (R97). -/
def Obligations.ThreshWritesResult : Prop :=
  ∀ (r g b : Byte) (s : State),
    encode (.thresh r g b) = (0x0A000000#32 ||| (r.setWidth 32 <<< 16) ||| (g.setWidth 32 <<< 8) ||| b.setWidth 32) ∧
    (s.blockState ≠ .emit →
      ∃ t, exec (.thresh r g b) s = .next t ∧ t = { s with threshResult := t.threshResult } ∧
        readReg t 0x09#8 =
          (BitVec.ofNat 32 ((r.toNat + g.toNat + b.toNat) / 3) |||
            (if 127 ≤ (r.toNat + g.toNat + b.toNat) / 3 then 0x100#32 else 0#32))) ∧
    (s.blockState = .emit → acceptedWord s = none)

/-- ABORT goes to IDLE with no error and keeps every other register and both memories, in IDLE, LOAD, DONE and ERROR;
in EMIT no word is accepted; with a non-zero operand it faults with ERR_RESERVED, which in ERROR changes nothing
(R167). -/
def Obligations.AbortClearsStatus : Prop :=
  encode .abort = 0x0F000000#32 ∧
  (∀ s : State, s.blockState ≠ .emit → exec .abort s = .next { s with blockState := .idle, err := .noError }) ∧
  (∀ s : State, s.blockState = .emit → acceptedWord s = none) ∧
  ∀ (w : Word) (s : State), opField w = 0x0F#8 → operandField w ≠ 0#24 →
    (s.blockState ≠ .error → accept w s = .next { s with blockState := .error, err := .reserved }) ∧
    (s.blockState = .error → accept w s = .next s)

/-- START in IDLE, DONE and ERROR: with both dimensions non-zero and an image that fits, LOAD with the row stride and byte
length of the image, BUF zeroed below the byte length and untouched above, cursor and OUT_COUNT 0, no error, nothing else
changed; ERR_DIM for a zero dimension, ERR_CAPACITY for an image that does not fit, checked exactly and second, each with
everything else as before; in LOAD, ERR_SEQUENCE; in EMIT no word is accepted (R110, R111, R176, R177). The
host's own record of taken bytes may change too (log 10). -/
def Obligations.StartBeginsEncode : Prop :=
  encode .start = 0x08000000#32 ∧
  (∀ s : State, s.blockState = .idle ∨ s.blockState = .done ∨ s.blockState = .error →
    ((s.width = 0#24 ∨ s.height = 0#24) → exec .start s = .next { s with blockState := .error, err := .dim }) ∧
    (s.width ≠ 0#24 → s.height ≠ 0#24 →
      s.params.bufBytes.toNat < s.height.toNat * ((s.width.toNat + 7) / 8) →
      exec .start s = .next { s with blockState := .error, err := .capacity }) ∧
    (s.width ≠ 0#24 → s.height ≠ 0#24 →
      s.height.toNat * ((s.width.toNat + 7) / 8) ≤ s.params.bufBytes.toNat →
      ∃ t, exec .start s = .next t ∧
        t = { s with blockState := .load, err := .noError, rowStride := t.rowStride, byteLength := t.byteLength,
                     curX := 0#24, curY := 0#24, outCount := 0, hostTaken := t.hostTaken, buf := t.buf } ∧
        t.rowStride.toNat = (s.width.toNat + 7) / 8 ∧
        t.byteLength.toNat = s.height.toNat * ((s.width.toNat + 7) / 8) ∧
        (∀ a, a < t.byteLength.toNat → t.buf.read a = some 0x00#8) ∧
        (∀ a, t.byteLength.toNat ≤ a → t.buf.read a = s.buf.read a))) ∧
  (∀ s : State, s.blockState = .load → exec .start s = .next { s with blockState := .error, err := .sequence }) ∧
  (∀ s : State, s.blockState = .emit → acceptedWord s = none) ∧
  ErrCode.code .dim = 1#4 ∧ ErrCode.code .capacity = 2#4

/-- PIXEL in LOAD before the last pixel: a dark pixel writes no BUF byte, a light one ORs its column's mask into its byte and
no other, and the cursor moves in raster order; nothing else changes. After the last pixel, ERR_OVERRUN; in IDLE and DONE,
ERR_SEQUENCE; in ERROR it is dropped; in EMIT no word is accepted (R112, R33, R105). -/
def Obligations.PixelPacksAtCursor : Prop :=
  ∀ (r g b : Byte) (s : State),
    encode (.pixel r g b) = (0x09000000#32 ||| (r.setWidth 32 <<< 16) ||| (g.setWidth 32 <<< 8) ||| b.setWidth 32) ∧
    (s.blockState = .load → s.curY ≠ s.height → (r.toNat + g.toNat + b.toNat) / 3 < 127 →
      ∃ t, exec (.pixel r g b) s = .next t ∧ t = { s with curX := t.curX, curY := t.curY } ∧
        (s.curX.toNat + 1 < s.width.toNat → t.curX = s.curX + 1#24 ∧ t.curY = s.curY) ∧
        (s.width.toNat ≤ s.curX.toNat + 1 → t.curX = 0#24 ∧ t.curY = s.curY + 1#24)) ∧
    (∀ v, s.blockState = .load → s.curY ≠ s.height → 127 ≤ (r.toNat + g.toNat + b.toNat) / 3 →
      s.curY.toNat * s.rowStride.toNat + s.curX.toNat / 8 < s.params.bufBytes.toNat →
      s.buf.read (s.curY.toNat * s.rowStride.toNat + s.curX.toNat / 8) = some v →
      ∃ t, exec (.pixel r g b) s = .next t ∧ t = { s with buf := t.buf, curX := t.curX, curY := t.curY } ∧
        t.buf.read (s.curY.toNat * s.rowStride.toNat + s.curX.toNat / 8) =
          some (v ||| (0x80#8 >>> (s.curX.toNat % 8))) ∧
        (∀ a, a ≠ s.curY.toNat * s.rowStride.toNat + s.curX.toNat / 8 → t.buf.read a = s.buf.read a) ∧
        (s.curX.toNat + 1 < s.width.toNat → t.curX = s.curX + 1#24 ∧ t.curY = s.curY) ∧
        (s.width.toNat ≤ s.curX.toNat + 1 → t.curX = 0#24 ∧ t.curY = s.curY + 1#24)) ∧
    (s.blockState = .load → s.curY = s.height →
      exec (.pixel r g b) s = .next { s with blockState := .error, err := .overrun }) ∧
    (s.blockState = .idle ∨ s.blockState = .done →
      exec (.pixel r g b) s = .next { s with blockState := .error, err := .sequence }) ∧
    (s.blockState = .error → exec (.pixel r g b) s = .next s) ∧
    (s.blockState = .emit → acceptedWord s = none)

/-- FINISH in LOAD after the last pixel: EMIT, OUT_COUNT 0, BUF inverted when INVERT = 1 and as it was when not, nothing else
changed. Before the last pixel, ERR_UNDERRUN with BUF not inverted; in IDLE and DONE, ERR_SEQUENCE; in ERROR it is dropped;
in EMIT no word is accepted (R149). The host's own record of taken bytes may change too (log 10). -/
def Obligations.FinishBeginsEmission : Prop :=
  encode .finish = 0x0B000000#32 ∧
  ∀ s : State,
    (s.blockState = .load → s.curY = s.height → s.invert = false →
      ∃ t, exec .finish s = .next t ∧
        t = { s with blockState := .emit, outCount := 0, hostTaken := t.hostTaken }) ∧
    (s.blockState = .load → s.curY = s.height → s.invert = true → DimsAgree s →
      s.byteLength.toNat ≤ s.params.bufBytes.toNat → s.buf.covers s.byteLength.toNat →
      ∃ t, exec .finish s = .next t ∧
        t = { s with blockState := .emit, outCount := 0, hostTaken := t.hostTaken, buf := t.buf } ∧
        (∀ a v, a < s.byteLength.toNat → s.buf.read a = some v →
          t.buf.read a = some (invertedByte s.width.toNat a v)) ∧
        (∀ a, s.byteLength.toNat ≤ a → t.buf.read a = s.buf.read a)) ∧
    (s.blockState = .load → s.curY ≠ s.height →
      exec .finish s = .next { s with blockState := .error, err := .underrun }) ∧
    (s.blockState = .idle ∨ s.blockState = .done →
      exec .finish s = .next { s with blockState := .error, err := .sequence }) ∧
    (s.blockState = .error → exec .finish s = .next s) ∧
    (s.blockState = .emit → acceptedWord s = none)

/-! ## Legality and faults -/

/-- The legality table, and ERR_SEQUENCE for a command that is not legal in the state (R179). -/
def Obligations.LegalityTable : Prop :=
  (∀ op : Op, op ∈ [Op.nop, .thresh, .abort] → ∀ b, legal op b = true ↔ b ∈ [BlockState.idle, .load, .done, .error]) ∧
  (∀ op : Op, op ∈ [Op.setw, .seth, .setf, .nclr, .nbyte, .start] →
    ∀ b, legal op b = true ↔ b ∈ [BlockState.idle, .done, .error]) ∧
  (∀ op : Op, op ∈ [Op.pixel, .finish] → ∀ b, legal op b = true ↔ b = BlockState.load) ∧
  (∀ (i : Instr) (s : State), s.blockState ≠ .emit → legal i.op s.blockState = false →
    (s.blockState ≠ .error → exec i s = .next { s with blockState := .error, err := .sequence }) ∧
    (s.blockState = .error → exec i s = .next s)) ∧
  (∀ s : State, s.blockState = .emit → acceptedWord s = none) ∧
  ErrCode.code .sequence = 5#4

/-- Fault entry. Taking a fault writes STATUS only, and nothing in ERROR; and whatever the command, when it takes the block
from a state other than ERROR to ERROR, STATUS is all it changed and the block offers no output byte. A START that faults
in ERROR records its own fault (R173). -/
def Obligations.FaultEntryWritesOnlyStatus : Prop :=
  (∀ (c : ErrCode) (s : State), s.blockState = .error → raiseFault c s = s) ∧
  (∀ (c : ErrCode) (s : State), s.blockState ≠ .error →
    raiseFault c s = { s with blockState := .error, err := c }) ∧
  (∀ (w : Word) (s t : State), s.blockState ≠ .error → accept w s = .next t → t.blockState = .error →
    t.err ≠ .noError ∧ t = { s with blockState := .error, err := t.err } ∧ outValid t = false) ∧
  ∀ (s t : State), s.blockState = .error → exec .start s = .next t → t.blockState = .error →
    (t.err = .dim ∨ t.err = .capacity) ∧ t = { s with err := t.err }

/-- The first fault is sticky: in ERROR a command that would fault changes nothing, every other command but START and ABORT
leaves STATUS as it is (R184). -/
def Obligations.FirstErrorSticky : Prop :=
  ∀ (w : Word) (s t : State), s.blockState = .error → accept w s = .next t →
    decode w ≠ .command .start → decode w ≠ .command .abort →
    t.blockState = .error ∧ t.err = s.err ∧
    ((decode w = .reservedOpcode ∨ decode w = .reservedBits ∨
        (∃ i, decode w = .command i ∧ legal i.op .error = false) ∨
        (∃ b, decode w = .command (.nbyte b) ∧ s.nameLen = s.params.nameMax)) → t = s)

/-- ERROR is left only through START, ABORT or reset, and never back into the aborted encode: START leaves it for a new one
with the cursor at the first pixel (R183). -/
def Obligations.ErrorLeftOnlyByStartAbortReset : Prop :=
  ∀ s t : State, s.blockState = .error → step s = .next t → t.blockState ≠ .error →
    (resetAsserted s = true ∧ t.blockState = .idle) ∨
    (acceptedWord s = some (encode .abort) ∧ t.blockState = .idle) ∨
    (acceptedWord s = some (encode .start) ∧ t.blockState = .load ∧ t.curX = 0#24 ∧ t.curY = 0#24)

/-- One fault per command, the first that applies: ERR_OPCODE, ERR_RESERVED, ERR_SEQUENCE, then the command's own check
(R181). -/
def Obligations.FaultPriority : Prop :=
  ∀ (w : Word) (s t : State), s.blockState ≠ .error → s.blockState ≠ .emit → accept w s = .next t →
    t.blockState = .error →
    (decode w = .reservedOpcode → t.err = .opcode) ∧
    (decode w = .reservedBits → t.err = .reserved) ∧
    ∀ i, decode w = .command i →
      (legal i.op s.blockState = false → t.err = .sequence) ∧
      (legal i.op s.blockState = true →
        (i = .start ∧ (s.width = 0#24 ∨ s.height = 0#24) ∧ t.err = .dim) ∨
        (i = .start ∧ s.width ≠ 0#24 ∧ s.height ≠ 0#24 ∧ t.err = .capacity) ∨
        ((∃ r g b, i = .pixel r g b) ∧ t.err = .overrun) ∨
        (i = .finish ∧ t.err = .underrun) ∨
        ((∃ b, i = .nbyte b) ∧ t.err = .nameFull))

/-- Every change of the block state in one step is one of the table's (R169). -/
def Obligations.StateTransitions : Prop :=
  ∀ s t : State, step s = .next t → t.blockState ≠ s.blockState →
    (resetAsserted s = true ∧ t.blockState = .idle) ∨
    (∃ w i, acceptedWord s = some w ∧ decode w = .command i ∧
      ((i = .start ∧ (s.blockState = .idle ∨ s.blockState = .done ∨ s.blockState = .error) ∧ t.blockState = .load) ∨
        (i = .finish ∧ s.blockState = .load ∧ s.curY = s.height ∧ t.blockState = .emit) ∨
        (i = .abort ∧ s.blockState ≠ .emit ∧ t.blockState = .idle))) ∨
    (∃ w, acceptedWord s = some w ∧ (s.blockState = .idle ∨ s.blockState = .load ∨ s.blockState = .done) ∧
      t.blockState = .error) ∨
    (s.blockState = .emit ∧ (nextAction s).map Prod.fst = some .take ∧ t.blockState = .done ∧ outLast s = true)

/-! ## The encode -/

/-- WIDTH, HEIGHT, FLAGS, NAME_LEN and NAME cannot change during LOAD or EMIT; a configuration command in LOAD faults with
ERR_SEQUENCE and changes nothing else; in EMIT nothing is accepted (R47). -/
def Obligations.ConfigurationFrozenDuringEncode : Prop :=
  (∀ s t : State, inEncode s → resetAsserted s = false → step s = .next t → sameConfig s t) ∧
  (∀ (i : Instr) (s : State), i.op ∈ [Op.setw, .seth, .setf, .nclr, .nbyte] → s.blockState = .load →
    exec i s = .next { s with blockState := .error, err := .sequence }) ∧
  ∀ s : State, s.blockState = .emit → acceptedWord s = none

/-- The emission string is the same at every output step of an encode (R151). -/
def Obligations.EmissionFixedInEmit : Prop :=
  ∀ s t : State, s.blockState = .emit → resetAsserted s = false → step s = .next t →
    emission t = emission s ∧ t.buf = s.buf ∧ t.name = s.name ∧ t.byteLength = s.byteLength ∧ t.rowStride = s.rowStride

/-- The output step. In EMIT with a byte to offer, OUT shows it, OUT_LAST marks the last one, and taking it adds 1 to
OUT_COUNT and ends in DONE after the last; nothing else of the block changes. Outside EMIT, OUT_VALID is 0 and the host can
take nothing (R153, R154). What the host records of it is `HostRecordsTakenBytes`. -/
def Obligations.OutputStepTakesNextByte : Prop :=
  (∀ (s : State) (e : List Byte) (b : Byte) (rest : List HostAction), s.blockState = .emit → emission s = .ok e →
    e[s.outCount]? = some b → s.hostAgenda = .take :: rest →
    outValid s = true ∧ outData s = some b ∧ outLast s = decide (s.outCount + 1 = e.length) ∧
    ∃ t, step s = .next t ∧
      t = { s with outCount := s.outCount + 1, hostAgenda := rest, blockState := t.blockState,
                   hostTaken := t.hostTaken, hostArtifacts := t.hostArtifacts } ∧
      (s.outCount + 1 = e.length → t.blockState = .done) ∧ (s.outCount + 1 ≠ e.length → t.blockState = .emit)) ∧
  (∀ (s : State) (e : List Byte), s.blockState = .emit → emission s = .ok e →
    (outLast s = true ↔ s.outCount + 1 = e.length)) ∧
  ∀ s : State, s.blockState ≠ .emit →
    outValid s = false ∧ outData s = none ∧ outLast s = false ∧ outputStep s = .next s

/-- The host's record, which is the model's own (log 10): a byte taken is appended to the bytes taken, the last one makes them
an artifact, and the START or FINISH that sets OUT_COUNT to 0 empties them. -/
def Obligations.HostRecordsTakenBytes : Prop :=
  (∀ (s t : State) (e : List Byte) (b : Byte) (rest : List HostAction), s.blockState = .emit → emission s = .ok e →
    e[s.outCount]? = some b → s.hostAgenda = .take :: rest → step s = .next t →
    t.hostTaken = s.hostTaken ++ [b] ∧
    t.hostArtifacts =
      (if s.outCount + 1 = e.length then s.hostArtifacts ++ [s.hostTaken ++ [b]] else s.hostArtifacts)) ∧
  ∀ (i : Instr) (s t : State), i = .start ∨ i = .finish → s.blockState ≠ .emit → exec i s = .next t →
    (t.blockState = .load ∨ t.blockState = .emit → s.blockState ≠ t.blockState → t.hostTaken = [] ∧ t.outCount = 0) ∧
    t.hostArtifacts = s.hostArtifacts

/-- All or nothing: outside EMIT no step gives an output byte or an artifact, and in EMIT the only artifact a step can
complete is the whole of E (R155). -/
def Obligations.OnlyWholeArtifacts : Prop :=
  (∀ s t : State, s.blockState ≠ .emit → step s = .next t →
    t.hostArtifacts = s.hostArtifacts ∧ (t.hostTaken = s.hostTaken ∨ t.hostTaken = [])) ∧
  ∀ s t : State, Inv s → s.blockState = .emit → step s = .next t →
    t.hostArtifacts = s.hostArtifacts ∨ ∃ e, emission s = .ok e ∧ t.hostArtifacts = s.hostArtifacts ++ [e]

/-- A host that keeps taking bytes gets the rest of E, in order, each once, in exactly that many steps, and the block is then
in DONE (R63, R204, R205). -/
def Obligations.DrainTakesWholeArtifact : Prop :=
  ∀ (s : State) (e : List Byte) (rest : List HostAction), s.blockState = .emit → emission s = .ok e →
    s.outCount < e.length → s.hostTaken = e.take s.outCount →
    s.hostAgenda = List.replicate (e.length - s.outCount) .take ++ rest →
    Host.Core.run Sys2Proof.core (e.length - s.outCount) s =
      .next { s with blockState := .done, outCount := e.length, hostTaken := e, hostAgenda := rest,
                     hostArtifacts := s.hostArtifacts ++ [e] }

/-- After the pixels of an image, each byte of BUF is R107's sum over its columns, the cursor is past the last pixel, and
nothing but BUF below the byte length and the cursor has changed (R107, R113, R114). -/
def Obligations.PackedBufferClosedForm : Prop :=
  ∀ (s : State) (img : Image), s.blockState = .load → DimsAgree s → s.byteLength.toNat ≤ s.params.bufBytes.toNat →
    s.curX = 0#24 → s.curY = 0#24 → (∀ a, a < s.byteLength.toNat → s.buf.read a = some 0x00#8) →
    ∃ t, execAll (pixelCommands s.width.toNat s.height.toNat img) s = .next t ∧
      t = { s with buf := t.buf, curX := 0#24, curY := s.height } ∧
      (∀ y j, y < s.height.toNat → j < s.rowStride.toNat →
        t.buf.read (y * s.rowStride.toNat + j) = some (packedByte s.width.toNat img y j)) ∧
      ∀ a, s.byteLength.toNat ≤ a → t.buf.read a = s.buf.read a

/-- In LOAD a bit of BUF changes only from 0 to 1, and only through the light PIXEL of its own column and row (R108). -/
def Obligations.BitsOnlySetDuringLoad : Prop :=
  ∀ (s t : State) (a : Nat) (v : Byte), s.blockState = .load → resetAsserted s = false → step s = .next t →
    t.blockState ≠ .emit → s.buf.read a = some v →
    t.buf.read a = some v ∨
      (a = pixelAddr s.rowStride.toNat s.curX.toNat s.curY.toNat ∧
        t.buf.read a = some (v ||| pixelMask s.curX.toNat) ∧
        ∃ w r g b, acceptedWord s = some w ∧ decode w = .command (.pixel r g b) ∧ light r g b = true)

/-- Two columns of the padded raster that share an address and a mask are the same column of the same row, and every one lies
in the encode's extent: each pixel has a bit of its own (R50, R51, R53, R59). -/
def Obligations.PixelsHaveDisjointBits : Prop :=
  (∀ rs x y x' y' : Nat, x < rs * 8 → x' < rs * 8 → pixelAddr rs x y = pixelAddr rs x' y' →
    pixelMask x &&& pixelMask x' ≠ 0x00#8 → x = x' ∧ y = y') ∧
  ∀ rs h x y : Nat, x < rs * 8 → y < h → pixelAddr rs x y < h * rs

/-- The order in which two pixels' bits are set does not change the result (R33, R59). -/
def Obligations.PixelOrderImmaterial : Prop :=
  ∀ (s t u : State) (x y x' y' : Nat), s.buf.wf = true →
    setPixelBit x y s = .ok t → setPixelBit x' y' t = .ok u →
    ∃ t', setPixelBit x' y' s = .ok t' ∧ setPixelBit x y t' = .ok u

/-- The two loops of the inverter, on any buffer of the configured image: every data bit complemented, every padding bit 0
whatever it was, nothing else changed (R123, R122, R125). -/
def Obligations.InvertClosedForm : Prop :=
  ∀ s : State, DimsAgree s → s.byteLength.toNat ≤ s.params.bufBytes.toNat → s.buf.covers s.byteLength.toNat →
    ∃ t, invertBuf s = .ok t ∧ t = { s with buf := t.buf } ∧
      (∀ a v, a < s.byteLength.toNat → s.buf.read a = some v →
        t.buf.read a =
          some (~~~v &&& (0xFF#8 <<< (8 - min 8 (s.width.toNat - 8 * (a % s.rowStride.toNat)))))) ∧
      (∀ a, s.byteLength.toNat ≤ a → t.buf.read a = s.buf.read a) ∧
      paddingClear t

/-- Inverting twice keeps the data bits and clears the padding, so a buffer with clear padding comes back; inverting twice is
never inverting once (R126, R127). -/
def Obligations.InvertTwice : Prop :=
  ∀ s t u : State, DimsAgree s → s.byteLength.toNat ≤ s.params.bufBytes.toNat → s.buf.covers s.byteLength.toNat →
    invertBuf s = .ok t → invertBuf t = .ok u →
    (∀ a v, a < s.byteLength.toNat → s.buf.read a = some v →
      u.buf.read a = some (v &&& dataMask s.width.toNat (a % s.rowStride.toNat))) ∧
    (paddingClear s → ∀ a, u.buf.read a = s.buf.read a) ∧
    ∃ a, a < s.byteLength.toNat ∧ u.buf.read a ≠ t.buf.read a

/-- No state carries over between encodes: two blocks that differ in anything but their build and configuration, given the
same commands from START on, show the same state and error after them, and in EMIT the same emission string (R68). -/
def Obligations.NoCarryOverBetweenEncodes : Prop :=
  ∀ (s₁ s₂ : State) (cmds : List Instr), Inv s₁ → Inv s₂ → s₁.params = s₂.params → sameConfig s₁ s₂ →
    outsideEncode s₁.blockState = true → outsideEncode s₂.blockState = true →
    ∃ t₁ t₂, execAll (.start :: cmds) s₁ = .next t₁ ∧ execAll (.start :: cmds) s₂ = .next t₂ ∧
      t₁.blockState = t₂.blockState ∧ t₁.err = t₂.err ∧ sameConfig t₁ t₂ ∧
      (t₁.blockState = .emit → emission t₁ = emission t₂)

/-- The whole encode: from any state of the invariant with no encode in progress, the commands of an encode and the takes
after them make the block emit exactly `Encode`, and end in DONE (R156). -/
def Obligations.EncodeEmitsExactly : Prop :=
  ∀ (s : State) (name : List Byte) (w h : U24) (inv lb : Bool) (img : Image) (rest : List HostAction),
    Inv s → outsideEncode s.blockState = true → s.cmdPort = none →
    s.hostAgenda = encodeAgenda s.params.hexCase name w h inv lb img ++ rest →
    w ≠ 0#24 → h ≠ 0#24 → byteLengthOf w.toNat h.toNat ≤ s.params.bufBytes.toNat →
    name.length ≤ s.params.nameMax.toNat →
    ∃ t, Host.Core.run Sys2Proof.core (encodeSteps s.params.hexCase name w h inv lb img) s = .next t ∧
      t.blockState = .done ∧ t.err = .noError ∧ t.hostAgenda = rest ∧ t.cmdPort = none ∧
      t.hostTaken = encodeImage s.params.hexCase name w.toNat h.toNat inv lb img ∧
      t.hostArtifacts = s.hostArtifacts ++ [encodeImage s.params.hexCase name w.toNat h.toNat inv lb img]

/-- An image with a zero dimension or too large for BUF: after the same commands the block is in ERROR with ERR_DIM or
ERR_CAPACITY, and there is no output (R156, R176, R177). The agenda after the commands may be anything but a reset: a reset at
the moment of the last command would win over it (R182, R193). -/
def Obligations.EncodeThatDoesNotFitEndsInError : Prop :=
  ∀ (s : State) (name : List Byte) (w h : U24) (inv lb : Bool) (img : Image) (rest : List HostAction),
    Inv s → outsideEncode s.blockState = true → s.cmdPort = none →
    s.hostAgenda = sendAll (encodeCommands name w h inv lb img) ++ rest → rest.head? ≠ some .reset →
    (w = 0#24 ∨ h = 0#24 ∨ s.params.bufBytes.toNat < byteLengthOf w.toNat h.toNat) →
    ∃ t, Host.Core.run Sys2Proof.core (2 * (encodeCommands name w h inv lb img).length) s = .next t ∧
      t.blockState = .error ∧ t.err = (if w = 0#24 ∨ h = 0#24 then .dim else .capacity) ∧
      t.hostAgenda = rest ∧ t.cmdPort = none ∧ t.hostTaken = s.hostTaken ∧ t.hostArtifacts = s.hostArtifacts

/-! ## The functions of the sub-units -/

/-- T is light exactly when the sum is at least 381; it depends on the sum alone, and raising a component never turns a light
pixel dark (R95, R96, R101). -/
def Obligations.ThresholdBoundary : Prop :=
  (∀ r g b : Byte, light r g b = decide (381 ≤ r.toNat + g.toNat + b.toNat)) ∧
  (∀ r g b r' g' b' : Byte, r.toNat + g.toNat + b.toNat = r'.toNat + g'.toNat + b'.toNat →
    light r g b = light r' g' b') ∧
  ∀ r g b r' g' b' : Byte, r.toNat ≤ r'.toNat → g.toNat ≤ g'.toNat → b.toNat ≤ b'.toNat →
    light r g b = true → light r' g' b' = true

/-- The row stride is the least number of bytes that holds a row, between 1 and 2097152 for a 24-bit width above 0
(R102). -/
def Obligations.RowStrideIsCeiling : Prop :=
  ∀ w : Nat, 0 < w → w < 2 ^ 24 →
    rowStrideOf w = (w + 7) / 8 ∧ w ≤ 8 * rowStrideOf w ∧ 8 * rowStrideOf w < w + 8 ∧
    1 ≤ rowStrideOf w ∧ rowStrideOf w ≤ 2097152

/-- Two hex characters per byte, high nibble first: character k comes from byte k / 2 (R130, R133). -/
def Obligations.HexCharacters : Prop :=
  ∀ (hc : HexCase) (bytes : List Byte),
    (hexString hc bytes).length = 2 * bytes.length ∧
    ∀ (k : Nat) (v : Byte), bytes[k / 2]? = some v →
      (hexString hc bytes)[k]? =
        some (hexDigit hc (if k % 2 = 0 then BitVec.ofNat 4 (v.toNat / 16) else BitVec.ofNat 4 (v.toNat % 16)))

/-- The digit alphabet: '0'..'9', then 'A'..'F' or 'a'..'f' (R131). -/
def Obligations.HexDigitAlphabet : Prop :=
  ∀ n : BitVec 4,
    (n.toNat < 10 → ∀ hc, hexDigit hc n = BitVec.ofNat 8 (0x30 + n.toNat)) ∧
    (10 ≤ n.toNat → hexDigit .upper n = BitVec.ofNat 8 (0x41 + (n.toNat - 10)) ∧
      hexDigit .lower n = BitVec.ofNat 8 (0x61 + (n.toNat - 10)))

/-- On a whole number of rows the line breaker puts one LF right before each row's hex (R139). -/
def Obligations.LineBreakBeforeEachRow : Prop :=
  ∀ (hc : HexCase) (rs h : Nat) (bytes : List Byte), 0 < rs → bytes.length = h * rs →
    lineBreakString rs (hexString hc bytes) =
      (List.range h).flatMap (fun y => lineFeed :: ((hexString hc bytes).drop (y * (rs * 2))).take (rs * 2)) ∧
    (lineBreakString rs (hexString hc bytes)).length = 2 * bytes.length + h

/-- A line-broken non-empty string starts with LF and ends with its own last character; on hex characters that is never LF
(R137, R138). -/
def Obligations.LineBreakLeadsNeverTrails : Prop :=
  (∀ (rs : Nat) (s : List Byte), s ≠ [] →
    (lineBreakString rs s).head? = some 0x0A#8 ∧ (lineBreakString rs s).getLast? = s.getLast?) ∧
  ∀ (hc : HexCase) (rs : Nat) (bytes : List Byte), (lineBreakString rs (hexString hc bytes)).getLast? ≠ some 0x0A#8 ∧
    (bytes ≠ [] → (lineBreakString rs (hexString hc bytes)).head? = some 0x0A#8)

/-- dec(n) is the shortest base-10 form, most significant digit first: digits only, their value is n, and no leading zero for
n at least 1; dec(0) is "0" (R146). -/
def Obligations.DecimalIsShortest : Prop :=
  (∀ n : Nat, (∀ c ∈ dec n, 0x30 ≤ c.toNat ∧ c.toNat ≤ 0x39) ∧
    (dec n).foldl (fun acc c => acc * 10 + (c.toNat - 0x30)) 0 = n ∧
    (1 ≤ n → (dec n).head? ≠ some 0x30#8)) ∧
  dec 0 = [0x30#8] ∧ dec 10 = [0x31#8, 0x30#8]

/-- The layout of E: its length, its header `~DG<name>,<byteLength>,<rowStride>,` byte by byte, and where each payload
character lies, without and with line breaks (R144, R145, R150, R152; the character codes are from general knowledge,
log 15). -/
def Obligations.EmissionLayout : Prop :=
  ∀ (s : State) (e : List Byte), DimsAgree s → emission s = .ok e →
    let hdr := 3 + s.nameLen.toNat + 1 + (dec s.byteLength.toNat).length + 1 + (dec s.rowStride.toNat).length + 1
    let every := s.rowStride.toNat * 2
    let digit := fun (k : Nat) (v : Byte) =>
      hexDigit s.params.hexCase (if k % 2 = 0 then v.extractLsb' 4 4 else v.extractLsb' 0 4)
    e.length = hdr + 2 * s.byteLength.toNat + (if s.lineBreak then s.height.toNat else 0) ∧
    (∃ name : List Byte, name.length = s.nameLen.toNat ∧ (∀ k, k < s.nameLen.toNat → name[k]? = s.name.read k) ∧
      e.take hdr = [0x7E#8, 0x44#8, 0x47#8] ++ name ++ [0x2C#8] ++ dec s.byteLength.toNat ++ [0x2C#8] ++
        dec s.rowStride.toNat ++ [0x2C#8]) ∧
    (s.lineBreak = false → ∀ k v, k < 2 * s.byteLength.toNat → s.buf.read (k / 2) = some v →
      e[hdr + k]? = some (digit k v)) ∧
    (s.lineBreak = true → ∀ y, y < s.height.toNat →
      e[hdr + y * (every + 1)]? = some 0x0A#8 ∧
      ∀ c v, 1 ≤ c → c ≤ every → s.buf.read ((y * every + (c - 1)) / 2) = some v →
        e[hdr + (y * (every + 1) + c)]? = some (digit (y * every + (c - 1)) v))

/-- The source's example: `~DGtest,4,2,DEADBEEF`, 20 bytes (R158). -/
def Obligations.ContainerExample : Prop :=
  container [0x74#8, 0x65#8, 0x73#8, 0x74#8] 4 2 (hexString .upper [0xDE#8, 0xAD#8, 0xBE#8, 0xEF#8]) =
    [0x7E#8, 0x44#8, 0x47#8, 0x74#8, 0x65#8, 0x73#8, 0x74#8, 0x2C#8, 0x34#8, 0x2C#8, 0x32#8, 0x2C#8,
     0x44#8, 0x45#8, 0x41#8, 0x44#8, 0x42#8, 0x45#8, 0x45#8, 0x46#8]

/-! ## The invariant -/

/-- The invariant holds right after reset, for every build in range (R193, R206). -/
def Obligations.InvariantAtReset : Prop :=
  (∀ p : Params, p.valid = true → Inv (State.resetWith p)) ∧ Inv State.reset

/-- Every step keeps the invariant, from every state that has it. -/
def Obligations.StepKeepsInvariant : Prop :=
  ∀ s t : State, Inv s → step s = .next t → Inv t

/-- From a state of the invariant the machine never stops: no step reads a byte that has no value, goes outside BUF or NAME,
or runs past the end of E (R53, R153, R194). -/
def Obligations.InvariantNeverStops : Prop :=
  ∀ s : State, Inv s → ∃ t, step s = .next t
end

