-- ==== Sys2Proof/Laws/Encoding.lean ====
section
/-! SUPPORT. The fields of a word put together from its fields, and the decoder on such a word. -/

namespace Sys2Proof

@[simp] theorem opField_append (c : Byte) (v : U24) : opField (c ++ v) = c :=
  BitVec.extractLsb'_append_eq_left

@[simp] theorem operandField_append (c : Byte) (v : U24) : operandField (c ++ v) = v :=
  BitVec.extractLsb'_append_eq_right

/-- A word is its two fields (R69). -/
theorem word_eq_append (w : Word) : w = opField w ++ operandField w := by
  apply BitVec.eq_of_getLsbD_eq
  intro i hi
  refine Eq.trans ?_ BitVec.getLsbD_append.symm
  by_cases h : i < 24
  · simp [operandField, h]
  · simp [opField, h, show i - 24 < 8 by omega, show 24 + (i - 24) = i by omega]

@[simp] theorem ofCode_code (op : Op) : Op.ofCode op.code = some op := by cases op <;> rfl

/-- The opcode map has one code per opcode (R75). -/
theorem code_of_ofCode {c : Byte} {op : Op} (h : Op.ofCode c = some op) : op.code = c := by
  revert c op
  decide

/-- The decoder on a word with an assigned opcode (R76). -/
theorem decode_opWord (op : Op) (v : U24) :
    decode (opWord op v) =
      if reservedBitSet op.format v then .reservedBits else .command (op.instr v) := by
  simp [decode, opWord]

@[simp] theorem reservedBitSet_flagOperand (inv lb : Bool) : reservedBitSet .f2 (flagOperand inv lb) = false := by
  revert inv lb; decide

@[simp] theorem invField_flagOperand (inv lb : Bool) : invField (flagOperand inv lb) = inv := by
  revert inv lb; decide

@[simp] theorem lbField_flagOperand (inv lb : Bool) : lbField (flagOperand inv lb) = lb := by
  revert inv lb; decide

@[simp] theorem reservedBitSet_byteOperand (b : Byte) : reservedBitSet .b8 (byteOperand b) = false := by
  simp only [reservedBitSet, byteOperand, bne_eq_false_iff_eq]
  exact BitVec.extractLsb'_append_eq_left

@[simp] theorem byteField_byteOperand (b : Byte) : byteField (byteOperand b) = b :=
  BitVec.extractLsb'_append_eq_right

/-- The bits of an RGB operand (R70). -/
theorem getLsbD_rgbOperand (r g b : Byte) (i : Nat) : (rgbOperand r g b).getLsbD i =
    if i < 8 then b.getLsbD i else if i < 16 then g.getLsbD (i - 8) else r.getLsbD (i - 16) := by
  refine (BitVec.getLsbD_append (x := r ++ g) (y := b)).trans ?_
  by_cases h : i < 8
  · simp [h]
  · have h2 : (i < 16) = (i - 8 < 8) := by simp; omega
    simp only [h, if_false, h2]
    refine (BitVec.getLsbD_append (x := r) (y := g)).trans ?_
    by_cases h3 : i - 8 < 8
    · simp [h3]
    · simp [h3, show i - 8 - 8 = i - 16 by omega]

@[simp] theorem rField_rgbOperand (r g b : Byte) : rField (rgbOperand r g b) = r := by
  ext i hi
  simp [rField, getLsbD_rgbOperand, show ¬ 16 + i < 8 by omega, BitVec.getLsbD_eq_getElem hi]

@[simp] theorem gField_rgbOperand (r g b : Byte) : gField (rgbOperand r g b) = g := by
  ext i hi
  simp [gField, getLsbD_rgbOperand, hi, show 8 + i < 16 by omega]

@[simp] theorem bField_rgbOperand (r g b : Byte) : bField (rgbOperand r g b) = b :=
  BitVec.extractLsb'_append_eq_right

/-- Every number of a decoded command fits its field (R74, R81). -/
theorem Instr.wellFormed_all (i : Instr) : i.wellFormed = true := by
  cases i <;> simp [Instr.wellFormed, fitsField] <;> first | omega | (rename_i a b; cases a <;> cases b <;> decide)

end Sys2Proof
end

