-- ==== Sys2Proof/Laws/State.lean ====
section
/-! SUPPORT. What each named update of the state leaves in each field: one lemma per field per update, each true by
definition, so that no later proof unfolds an update. -/

namespace Sys2Proof.Machine

variable (s : State)

@[simp] theorem State.withBuf_params (m : Memory) : (s.withBuf m).params = s.params := rfl
@[simp] theorem State.withBuf_blockState (m : Memory) : (s.withBuf m).blockState = s.blockState := rfl
@[simp] theorem State.withBuf_err (m : Memory) : (s.withBuf m).err = s.err := rfl
@[simp] theorem State.withBuf_width (m : Memory) : (s.withBuf m).width = s.width := rfl
@[simp] theorem State.withBuf_height (m : Memory) : (s.withBuf m).height = s.height := rfl
@[simp] theorem State.withBuf_invert (m : Memory) : (s.withBuf m).invert = s.invert := rfl
@[simp] theorem State.withBuf_lineBreak (m : Memory) : (s.withBuf m).lineBreak = s.lineBreak := rfl
@[simp] theorem State.withBuf_nameLen (m : Memory) : (s.withBuf m).nameLen = s.nameLen := rfl
@[simp] theorem State.withBuf_name (m : Memory) : (s.withBuf m).name = s.name := rfl
@[simp] theorem State.withBuf_rowStride (m : Memory) : (s.withBuf m).rowStride = s.rowStride := rfl
@[simp] theorem State.withBuf_byteLength (m : Memory) : (s.withBuf m).byteLength = s.byteLength := rfl
@[simp] theorem State.withBuf_curX (m : Memory) : (s.withBuf m).curX = s.curX := rfl
@[simp] theorem State.withBuf_curY (m : Memory) : (s.withBuf m).curY = s.curY := rfl
@[simp] theorem State.withBuf_threshResult (m : Memory) : (s.withBuf m).threshResult = s.threshResult := rfl
@[simp] theorem State.withBuf_outCount (m : Memory) : (s.withBuf m).outCount = s.outCount := rfl
@[simp] theorem State.withBuf_buf (m : Memory) : (s.withBuf m).buf = m := rfl
@[simp] theorem State.withBuf_cmdPort (m : Memory) : (s.withBuf m).cmdPort = s.cmdPort := rfl
@[simp] theorem State.withBuf_hostAgenda (m : Memory) : (s.withBuf m).hostAgenda = s.hostAgenda := rfl
@[simp] theorem State.withBuf_hostTaken (m : Memory) : (s.withBuf m).hostTaken = s.hostTaken := rfl
@[simp] theorem State.withBuf_hostArtifacts (m : Memory) : (s.withBuf m).hostArtifacts = s.hostArtifacts := rfl
@[simp] theorem State.withBuf_hostReads (m : Memory) : (s.withBuf m).hostReads = s.hostReads := rfl

@[simp] theorem State.withName_params (m : Memory) : (s.withName m).params = s.params := rfl
@[simp] theorem State.withName_blockState (m : Memory) : (s.withName m).blockState = s.blockState := rfl
@[simp] theorem State.withName_err (m : Memory) : (s.withName m).err = s.err := rfl
@[simp] theorem State.withName_width (m : Memory) : (s.withName m).width = s.width := rfl
@[simp] theorem State.withName_height (m : Memory) : (s.withName m).height = s.height := rfl
@[simp] theorem State.withName_invert (m : Memory) : (s.withName m).invert = s.invert := rfl
@[simp] theorem State.withName_lineBreak (m : Memory) : (s.withName m).lineBreak = s.lineBreak := rfl
@[simp] theorem State.withName_nameLen (m : Memory) : (s.withName m).nameLen = s.nameLen := rfl
@[simp] theorem State.withName_name (m : Memory) : (s.withName m).name = m := rfl
@[simp] theorem State.withName_rowStride (m : Memory) : (s.withName m).rowStride = s.rowStride := rfl
@[simp] theorem State.withName_byteLength (m : Memory) : (s.withName m).byteLength = s.byteLength := rfl
@[simp] theorem State.withName_curX (m : Memory) : (s.withName m).curX = s.curX := rfl
@[simp] theorem State.withName_curY (m : Memory) : (s.withName m).curY = s.curY := rfl
@[simp] theorem State.withName_threshResult (m : Memory) : (s.withName m).threshResult = s.threshResult := rfl
@[simp] theorem State.withName_outCount (m : Memory) : (s.withName m).outCount = s.outCount := rfl
@[simp] theorem State.withName_buf (m : Memory) : (s.withName m).buf = s.buf := rfl
@[simp] theorem State.withName_cmdPort (m : Memory) : (s.withName m).cmdPort = s.cmdPort := rfl
@[simp] theorem State.withName_hostAgenda (m : Memory) : (s.withName m).hostAgenda = s.hostAgenda := rfl
@[simp] theorem State.withName_hostTaken (m : Memory) : (s.withName m).hostTaken = s.hostTaken := rfl
@[simp] theorem State.withName_hostArtifacts (m : Memory) : (s.withName m).hostArtifacts = s.hostArtifacts := rfl
@[simp] theorem State.withName_hostReads (m : Memory) : (s.withName m).hostReads = s.hostReads := rfl

@[simp] theorem State.withStatus_params (b : BlockState) (e : ErrCode) : (s.withStatus b e).params = s.params := rfl
@[simp] theorem State.withStatus_blockState (b : BlockState) (e : ErrCode) : (s.withStatus b e).blockState = b := rfl
@[simp] theorem State.withStatus_err (b : BlockState) (e : ErrCode) : (s.withStatus b e).err = e := rfl
@[simp] theorem State.withStatus_width (b : BlockState) (e : ErrCode) : (s.withStatus b e).width = s.width := rfl
@[simp] theorem State.withStatus_height (b : BlockState) (e : ErrCode) : (s.withStatus b e).height = s.height := rfl
@[simp] theorem State.withStatus_invert (b : BlockState) (e : ErrCode) : (s.withStatus b e).invert = s.invert := rfl
@[simp] theorem State.withStatus_lineBreak (b : BlockState) (e : ErrCode) : (s.withStatus b e).lineBreak = s.lineBreak := rfl
@[simp] theorem State.withStatus_nameLen (b : BlockState) (e : ErrCode) : (s.withStatus b e).nameLen = s.nameLen := rfl
@[simp] theorem State.withStatus_name (b : BlockState) (e : ErrCode) : (s.withStatus b e).name = s.name := rfl
@[simp] theorem State.withStatus_rowStride (b : BlockState) (e : ErrCode) : (s.withStatus b e).rowStride = s.rowStride := rfl
@[simp] theorem State.withStatus_byteLength (b : BlockState) (e : ErrCode) : (s.withStatus b e).byteLength = s.byteLength := rfl
@[simp] theorem State.withStatus_curX (b : BlockState) (e : ErrCode) : (s.withStatus b e).curX = s.curX := rfl
@[simp] theorem State.withStatus_curY (b : BlockState) (e : ErrCode) : (s.withStatus b e).curY = s.curY := rfl
@[simp] theorem State.withStatus_threshResult (b : BlockState) (e : ErrCode) : (s.withStatus b e).threshResult = s.threshResult := rfl
@[simp] theorem State.withStatus_outCount (b : BlockState) (e : ErrCode) : (s.withStatus b e).outCount = s.outCount := rfl
@[simp] theorem State.withStatus_buf (b : BlockState) (e : ErrCode) : (s.withStatus b e).buf = s.buf := rfl
@[simp] theorem State.withStatus_cmdPort (b : BlockState) (e : ErrCode) : (s.withStatus b e).cmdPort = s.cmdPort := rfl
@[simp] theorem State.withStatus_hostAgenda (b : BlockState) (e : ErrCode) : (s.withStatus b e).hostAgenda = s.hostAgenda := rfl
@[simp] theorem State.withStatus_hostTaken (b : BlockState) (e : ErrCode) : (s.withStatus b e).hostTaken = s.hostTaken := rfl
@[simp] theorem State.withStatus_hostArtifacts (b : BlockState) (e : ErrCode) : (s.withStatus b e).hostArtifacts = s.hostArtifacts := rfl
@[simp] theorem State.withStatus_hostReads (b : BlockState) (e : ErrCode) : (s.withStatus b e).hostReads = s.hostReads := rfl

@[simp] theorem State.withPort_params (w : Option Word) : (s.withPort w).params = s.params := rfl
@[simp] theorem State.withPort_blockState (w : Option Word) : (s.withPort w).blockState = s.blockState := rfl
@[simp] theorem State.withPort_err (w : Option Word) : (s.withPort w).err = s.err := rfl
@[simp] theorem State.withPort_width (w : Option Word) : (s.withPort w).width = s.width := rfl
@[simp] theorem State.withPort_height (w : Option Word) : (s.withPort w).height = s.height := rfl
@[simp] theorem State.withPort_invert (w : Option Word) : (s.withPort w).invert = s.invert := rfl
@[simp] theorem State.withPort_lineBreak (w : Option Word) : (s.withPort w).lineBreak = s.lineBreak := rfl
@[simp] theorem State.withPort_nameLen (w : Option Word) : (s.withPort w).nameLen = s.nameLen := rfl
@[simp] theorem State.withPort_name (w : Option Word) : (s.withPort w).name = s.name := rfl
@[simp] theorem State.withPort_rowStride (w : Option Word) : (s.withPort w).rowStride = s.rowStride := rfl
@[simp] theorem State.withPort_byteLength (w : Option Word) : (s.withPort w).byteLength = s.byteLength := rfl
@[simp] theorem State.withPort_curX (w : Option Word) : (s.withPort w).curX = s.curX := rfl
@[simp] theorem State.withPort_curY (w : Option Word) : (s.withPort w).curY = s.curY := rfl
@[simp] theorem State.withPort_threshResult (w : Option Word) : (s.withPort w).threshResult = s.threshResult := rfl
@[simp] theorem State.withPort_outCount (w : Option Word) : (s.withPort w).outCount = s.outCount := rfl
@[simp] theorem State.withPort_buf (w : Option Word) : (s.withPort w).buf = s.buf := rfl
@[simp] theorem State.withPort_cmdPort (w : Option Word) : (s.withPort w).cmdPort = w := rfl
@[simp] theorem State.withPort_hostAgenda (w : Option Word) : (s.withPort w).hostAgenda = s.hostAgenda := rfl
@[simp] theorem State.withPort_hostTaken (w : Option Word) : (s.withPort w).hostTaken = s.hostTaken := rfl
@[simp] theorem State.withPort_hostArtifacts (w : Option Word) : (s.withPort w).hostArtifacts = s.hostArtifacts := rfl
@[simp] theorem State.withPort_hostReads (w : Option Word) : (s.withPort w).hostReads = s.hostReads := rfl

@[simp] theorem State.withAgenda_params (h : List HostAction) : (s.withAgenda h).params = s.params := rfl
@[simp] theorem State.withAgenda_blockState (h : List HostAction) : (s.withAgenda h).blockState = s.blockState := rfl
@[simp] theorem State.withAgenda_err (h : List HostAction) : (s.withAgenda h).err = s.err := rfl
@[simp] theorem State.withAgenda_width (h : List HostAction) : (s.withAgenda h).width = s.width := rfl
@[simp] theorem State.withAgenda_height (h : List HostAction) : (s.withAgenda h).height = s.height := rfl
@[simp] theorem State.withAgenda_invert (h : List HostAction) : (s.withAgenda h).invert = s.invert := rfl
@[simp] theorem State.withAgenda_lineBreak (h : List HostAction) : (s.withAgenda h).lineBreak = s.lineBreak := rfl
@[simp] theorem State.withAgenda_nameLen (h : List HostAction) : (s.withAgenda h).nameLen = s.nameLen := rfl
@[simp] theorem State.withAgenda_name (h : List HostAction) : (s.withAgenda h).name = s.name := rfl
@[simp] theorem State.withAgenda_rowStride (h : List HostAction) : (s.withAgenda h).rowStride = s.rowStride := rfl
@[simp] theorem State.withAgenda_byteLength (h : List HostAction) : (s.withAgenda h).byteLength = s.byteLength := rfl
@[simp] theorem State.withAgenda_curX (h : List HostAction) : (s.withAgenda h).curX = s.curX := rfl
@[simp] theorem State.withAgenda_curY (h : List HostAction) : (s.withAgenda h).curY = s.curY := rfl
@[simp] theorem State.withAgenda_threshResult (h : List HostAction) : (s.withAgenda h).threshResult = s.threshResult := rfl
@[simp] theorem State.withAgenda_outCount (h : List HostAction) : (s.withAgenda h).outCount = s.outCount := rfl
@[simp] theorem State.withAgenda_buf (h : List HostAction) : (s.withAgenda h).buf = s.buf := rfl
@[simp] theorem State.withAgenda_cmdPort (h : List HostAction) : (s.withAgenda h).cmdPort = s.cmdPort := rfl
@[simp] theorem State.withAgenda_hostAgenda (h : List HostAction) : (s.withAgenda h).hostAgenda = h := rfl
@[simp] theorem State.withAgenda_hostTaken (h : List HostAction) : (s.withAgenda h).hostTaken = s.hostTaken := rfl
@[simp] theorem State.withAgenda_hostArtifacts (h : List HostAction) : (s.withAgenda h).hostArtifacts = s.hostArtifacts := rfl
@[simp] theorem State.withAgenda_hostReads (h : List HostAction) : (s.withAgenda h).hostReads = s.hostReads := rfl

@[simp] theorem State.withCursor_params (x y : U24) : (s.withCursor x y).params = s.params := rfl
@[simp] theorem State.withCursor_blockState (x y : U24) : (s.withCursor x y).blockState = s.blockState := rfl
@[simp] theorem State.withCursor_err (x y : U24) : (s.withCursor x y).err = s.err := rfl
@[simp] theorem State.withCursor_width (x y : U24) : (s.withCursor x y).width = s.width := rfl
@[simp] theorem State.withCursor_height (x y : U24) : (s.withCursor x y).height = s.height := rfl
@[simp] theorem State.withCursor_invert (x y : U24) : (s.withCursor x y).invert = s.invert := rfl
@[simp] theorem State.withCursor_lineBreak (x y : U24) : (s.withCursor x y).lineBreak = s.lineBreak := rfl
@[simp] theorem State.withCursor_nameLen (x y : U24) : (s.withCursor x y).nameLen = s.nameLen := rfl
@[simp] theorem State.withCursor_name (x y : U24) : (s.withCursor x y).name = s.name := rfl
@[simp] theorem State.withCursor_rowStride (x y : U24) : (s.withCursor x y).rowStride = s.rowStride := rfl
@[simp] theorem State.withCursor_byteLength (x y : U24) : (s.withCursor x y).byteLength = s.byteLength := rfl
@[simp] theorem State.withCursor_curX (x y : U24) : (s.withCursor x y).curX = x := rfl
@[simp] theorem State.withCursor_curY (x y : U24) : (s.withCursor x y).curY = y := rfl
@[simp] theorem State.withCursor_threshResult (x y : U24) : (s.withCursor x y).threshResult = s.threshResult := rfl
@[simp] theorem State.withCursor_outCount (x y : U24) : (s.withCursor x y).outCount = s.outCount := rfl
@[simp] theorem State.withCursor_buf (x y : U24) : (s.withCursor x y).buf = s.buf := rfl
@[simp] theorem State.withCursor_cmdPort (x y : U24) : (s.withCursor x y).cmdPort = s.cmdPort := rfl
@[simp] theorem State.withCursor_hostAgenda (x y : U24) : (s.withCursor x y).hostAgenda = s.hostAgenda := rfl
@[simp] theorem State.withCursor_hostTaken (x y : U24) : (s.withCursor x y).hostTaken = s.hostTaken := rfl
@[simp] theorem State.withCursor_hostArtifacts (x y : U24) : (s.withCursor x y).hostArtifacts = s.hostArtifacts := rfl
@[simp] theorem State.withCursor_hostReads (x y : U24) : (s.withCursor x y).hostReads = s.hostReads := rfl

@[simp] theorem startRegs_params (rs bl : Nat) : (startRegs s rs bl).params = s.params := rfl
@[simp] theorem startRegs_blockState (rs bl : Nat) : (startRegs s rs bl).blockState = .load := rfl
@[simp] theorem startRegs_err (rs bl : Nat) : (startRegs s rs bl).err = s.err := rfl
@[simp] theorem startRegs_width (rs bl : Nat) : (startRegs s rs bl).width = s.width := rfl
@[simp] theorem startRegs_height (rs bl : Nat) : (startRegs s rs bl).height = s.height := rfl
@[simp] theorem startRegs_invert (rs bl : Nat) : (startRegs s rs bl).invert = s.invert := rfl
@[simp] theorem startRegs_lineBreak (rs bl : Nat) : (startRegs s rs bl).lineBreak = s.lineBreak := rfl
@[simp] theorem startRegs_nameLen (rs bl : Nat) : (startRegs s rs bl).nameLen = s.nameLen := rfl
@[simp] theorem startRegs_name (rs bl : Nat) : (startRegs s rs bl).name = s.name := rfl
@[simp] theorem startRegs_rowStride (rs bl : Nat) : (startRegs s rs bl).rowStride = BitVec.ofNat 32 rs := rfl
@[simp] theorem startRegs_byteLength (rs bl : Nat) : (startRegs s rs bl).byteLength = BitVec.ofNat 32 bl := rfl
@[simp] theorem startRegs_curX (rs bl : Nat) : (startRegs s rs bl).curX = 0#24 := rfl
@[simp] theorem startRegs_curY (rs bl : Nat) : (startRegs s rs bl).curY = 0#24 := rfl
@[simp] theorem startRegs_threshResult (rs bl : Nat) : (startRegs s rs bl).threshResult = s.threshResult := rfl
@[simp] theorem startRegs_outCount (rs bl : Nat) : (startRegs s rs bl).outCount = 0 := rfl
@[simp] theorem startRegs_buf (rs bl : Nat) : (startRegs s rs bl).buf = s.buf := rfl
@[simp] theorem startRegs_cmdPort (rs bl : Nat) : (startRegs s rs bl).cmdPort = s.cmdPort := rfl
@[simp] theorem startRegs_hostAgenda (rs bl : Nat) : (startRegs s rs bl).hostAgenda = s.hostAgenda := rfl
@[simp] theorem startRegs_hostTaken (rs bl : Nat) : (startRegs s rs bl).hostTaken = [] := rfl
@[simp] theorem startRegs_hostArtifacts (rs bl : Nat) : (startRegs s rs bl).hostArtifacts = s.hostArtifacts := rfl
@[simp] theorem startRegs_hostReads (rs bl : Nat) : (startRegs s rs bl).hostReads = s.hostReads := rfl

@[simp] theorem finishRegs_params : (finishRegs s).params = s.params := rfl
@[simp] theorem finishRegs_blockState : (finishRegs s).blockState = .emit := rfl
@[simp] theorem finishRegs_err : (finishRegs s).err = s.err := rfl
@[simp] theorem finishRegs_width : (finishRegs s).width = s.width := rfl
@[simp] theorem finishRegs_height : (finishRegs s).height = s.height := rfl
@[simp] theorem finishRegs_invert : (finishRegs s).invert = s.invert := rfl
@[simp] theorem finishRegs_lineBreak : (finishRegs s).lineBreak = s.lineBreak := rfl
@[simp] theorem finishRegs_nameLen : (finishRegs s).nameLen = s.nameLen := rfl
@[simp] theorem finishRegs_name : (finishRegs s).name = s.name := rfl
@[simp] theorem finishRegs_rowStride : (finishRegs s).rowStride = s.rowStride := rfl
@[simp] theorem finishRegs_byteLength : (finishRegs s).byteLength = s.byteLength := rfl
@[simp] theorem finishRegs_curX : (finishRegs s).curX = s.curX := rfl
@[simp] theorem finishRegs_curY : (finishRegs s).curY = s.curY := rfl
@[simp] theorem finishRegs_threshResult : (finishRegs s).threshResult = s.threshResult := rfl
@[simp] theorem finishRegs_outCount : (finishRegs s).outCount = 0 := rfl
@[simp] theorem finishRegs_buf : (finishRegs s).buf = s.buf := rfl
@[simp] theorem finishRegs_cmdPort : (finishRegs s).cmdPort = s.cmdPort := rfl
@[simp] theorem finishRegs_hostAgenda : (finishRegs s).hostAgenda = s.hostAgenda := rfl
@[simp] theorem finishRegs_hostTaken : (finishRegs s).hostTaken = [] := rfl
@[simp] theorem finishRegs_hostArtifacts : (finishRegs s).hostArtifacts = s.hostArtifacts := rfl
@[simp] theorem finishRegs_hostReads : (finishRegs s).hostReads = s.hostReads := rfl

@[simp] theorem takeByte_params (b : Byte) : (takeByte s b).params = s.params := rfl
@[simp] theorem takeByte_blockState (b : Byte) : (takeByte s b).blockState = s.blockState := rfl
@[simp] theorem takeByte_err (b : Byte) : (takeByte s b).err = s.err := rfl
@[simp] theorem takeByte_width (b : Byte) : (takeByte s b).width = s.width := rfl
@[simp] theorem takeByte_height (b : Byte) : (takeByte s b).height = s.height := rfl
@[simp] theorem takeByte_invert (b : Byte) : (takeByte s b).invert = s.invert := rfl
@[simp] theorem takeByte_lineBreak (b : Byte) : (takeByte s b).lineBreak = s.lineBreak := rfl
@[simp] theorem takeByte_nameLen (b : Byte) : (takeByte s b).nameLen = s.nameLen := rfl
@[simp] theorem takeByte_name (b : Byte) : (takeByte s b).name = s.name := rfl
@[simp] theorem takeByte_rowStride (b : Byte) : (takeByte s b).rowStride = s.rowStride := rfl
@[simp] theorem takeByte_byteLength (b : Byte) : (takeByte s b).byteLength = s.byteLength := rfl
@[simp] theorem takeByte_curX (b : Byte) : (takeByte s b).curX = s.curX := rfl
@[simp] theorem takeByte_curY (b : Byte) : (takeByte s b).curY = s.curY := rfl
@[simp] theorem takeByte_threshResult (b : Byte) : (takeByte s b).threshResult = s.threshResult := rfl
@[simp] theorem takeByte_outCount (b : Byte) : (takeByte s b).outCount = s.outCount + 1 := rfl
@[simp] theorem takeByte_buf (b : Byte) : (takeByte s b).buf = s.buf := rfl
@[simp] theorem takeByte_cmdPort (b : Byte) : (takeByte s b).cmdPort = s.cmdPort := rfl
@[simp] theorem takeByte_hostAgenda (b : Byte) : (takeByte s b).hostAgenda = s.hostAgenda := rfl
@[simp] theorem takeByte_hostTaken (b : Byte) : (takeByte s b).hostTaken = s.hostTaken ++ [b] := rfl
@[simp] theorem takeByte_hostArtifacts (b : Byte) : (takeByte s b).hostArtifacts = s.hostArtifacts := rfl
@[simp] theorem takeByte_hostReads (b : Byte) : (takeByte s b).hostReads = s.hostReads := rfl

@[simp] theorem takeLast_params (b : Byte) : (takeLast s b).params = s.params := rfl
@[simp] theorem takeLast_blockState (b : Byte) : (takeLast s b).blockState = .done := rfl
@[simp] theorem takeLast_err (b : Byte) : (takeLast s b).err = s.err := rfl
@[simp] theorem takeLast_width (b : Byte) : (takeLast s b).width = s.width := rfl
@[simp] theorem takeLast_height (b : Byte) : (takeLast s b).height = s.height := rfl
@[simp] theorem takeLast_invert (b : Byte) : (takeLast s b).invert = s.invert := rfl
@[simp] theorem takeLast_lineBreak (b : Byte) : (takeLast s b).lineBreak = s.lineBreak := rfl
@[simp] theorem takeLast_nameLen (b : Byte) : (takeLast s b).nameLen = s.nameLen := rfl
@[simp] theorem takeLast_name (b : Byte) : (takeLast s b).name = s.name := rfl
@[simp] theorem takeLast_rowStride (b : Byte) : (takeLast s b).rowStride = s.rowStride := rfl
@[simp] theorem takeLast_byteLength (b : Byte) : (takeLast s b).byteLength = s.byteLength := rfl
@[simp] theorem takeLast_curX (b : Byte) : (takeLast s b).curX = s.curX := rfl
@[simp] theorem takeLast_curY (b : Byte) : (takeLast s b).curY = s.curY := rfl
@[simp] theorem takeLast_threshResult (b : Byte) : (takeLast s b).threshResult = s.threshResult := rfl
@[simp] theorem takeLast_outCount (b : Byte) : (takeLast s b).outCount = s.outCount + 1 := rfl
@[simp] theorem takeLast_buf (b : Byte) : (takeLast s b).buf = s.buf := rfl
@[simp] theorem takeLast_cmdPort (b : Byte) : (takeLast s b).cmdPort = s.cmdPort := rfl
@[simp] theorem takeLast_hostAgenda (b : Byte) : (takeLast s b).hostAgenda = s.hostAgenda := rfl
@[simp] theorem takeLast_hostTaken (b : Byte) : (takeLast s b).hostTaken = s.hostTaken ++ [b] := rfl
@[simp] theorem takeLast_hostArtifacts (b : Byte) : (takeLast s b).hostArtifacts = s.hostArtifacts ++ [s.hostTaken ++ [b]] := rfl
@[simp] theorem takeLast_hostReads (b : Byte) : (takeLast s b).hostReads = s.hostReads := rfl

@[simp] theorem hostRead_params (index : Byte) : (hostRead index s).params = s.params := rfl
@[simp] theorem hostRead_blockState (index : Byte) : (hostRead index s).blockState = s.blockState := rfl
@[simp] theorem hostRead_err (index : Byte) : (hostRead index s).err = s.err := rfl
@[simp] theorem hostRead_width (index : Byte) : (hostRead index s).width = s.width := rfl
@[simp] theorem hostRead_height (index : Byte) : (hostRead index s).height = s.height := rfl
@[simp] theorem hostRead_invert (index : Byte) : (hostRead index s).invert = s.invert := rfl
@[simp] theorem hostRead_lineBreak (index : Byte) : (hostRead index s).lineBreak = s.lineBreak := rfl
@[simp] theorem hostRead_nameLen (index : Byte) : (hostRead index s).nameLen = s.nameLen := rfl
@[simp] theorem hostRead_name (index : Byte) : (hostRead index s).name = s.name := rfl
@[simp] theorem hostRead_rowStride (index : Byte) : (hostRead index s).rowStride = s.rowStride := rfl
@[simp] theorem hostRead_byteLength (index : Byte) : (hostRead index s).byteLength = s.byteLength := rfl
@[simp] theorem hostRead_curX (index : Byte) : (hostRead index s).curX = s.curX := rfl
@[simp] theorem hostRead_curY (index : Byte) : (hostRead index s).curY = s.curY := rfl
@[simp] theorem hostRead_threshResult (index : Byte) : (hostRead index s).threshResult = s.threshResult := rfl
@[simp] theorem hostRead_outCount (index : Byte) : (hostRead index s).outCount = s.outCount := rfl
@[simp] theorem hostRead_buf (index : Byte) : (hostRead index s).buf = s.buf := rfl
@[simp] theorem hostRead_cmdPort (index : Byte) : (hostRead index s).cmdPort = s.cmdPort := rfl
@[simp] theorem hostRead_hostAgenda (index : Byte) : (hostRead index s).hostAgenda = s.hostAgenda := rfl
@[simp] theorem hostRead_hostTaken (index : Byte) : (hostRead index s).hostTaken = s.hostTaken := rfl
@[simp] theorem hostRead_hostArtifacts (index : Byte) : (hostRead index s).hostArtifacts = s.hostArtifacts := rfl
@[simp] theorem hostRead_hostReads (index : Byte) : (hostRead index s).hostReads = s.hostReads ++ [(index, readReg s index)] := rfl

@[simp] theorem clearError_params : (clearError s).params = s.params := rfl
@[simp] theorem clearError_blockState : (clearError s).blockState = .idle := rfl
@[simp] theorem clearError_err : (clearError s).err = .noError := rfl
@[simp] theorem clearError_width : (clearError s).width = s.width := rfl
@[simp] theorem clearError_height : (clearError s).height = s.height := rfl
@[simp] theorem clearError_invert : (clearError s).invert = s.invert := rfl
@[simp] theorem clearError_lineBreak : (clearError s).lineBreak = s.lineBreak := rfl
@[simp] theorem clearError_nameLen : (clearError s).nameLen = s.nameLen := rfl
@[simp] theorem clearError_name : (clearError s).name = s.name := rfl
@[simp] theorem clearError_rowStride : (clearError s).rowStride = s.rowStride := rfl
@[simp] theorem clearError_byteLength : (clearError s).byteLength = s.byteLength := rfl
@[simp] theorem clearError_curX : (clearError s).curX = s.curX := rfl
@[simp] theorem clearError_curY : (clearError s).curY = s.curY := rfl
@[simp] theorem clearError_threshResult : (clearError s).threshResult = s.threshResult := rfl
@[simp] theorem clearError_outCount : (clearError s).outCount = s.outCount := rfl
@[simp] theorem clearError_buf : (clearError s).buf = s.buf := rfl
@[simp] theorem clearError_cmdPort : (clearError s).cmdPort = s.cmdPort := rfl
@[simp] theorem clearError_hostAgenda : (clearError s).hostAgenda = s.hostAgenda := rfl
@[simp] theorem clearError_hostTaken : (clearError s).hostTaken = s.hostTaken := rfl
@[simp] theorem clearError_hostArtifacts : (clearError s).hostArtifacts = s.hostArtifacts := rfl
@[simp] theorem clearError_hostReads : (clearError s).hostReads = s.hostReads := rfl

@[simp] theorem holdCommand_params (i : Instr) : (holdCommand i s).params = s.params := rfl
@[simp] theorem holdCommand_blockState (i : Instr) : (holdCommand i s).blockState = s.blockState := rfl
@[simp] theorem holdCommand_err (i : Instr) : (holdCommand i s).err = s.err := rfl
@[simp] theorem holdCommand_width (i : Instr) : (holdCommand i s).width = s.width := rfl
@[simp] theorem holdCommand_height (i : Instr) : (holdCommand i s).height = s.height := rfl
@[simp] theorem holdCommand_invert (i : Instr) : (holdCommand i s).invert = s.invert := rfl
@[simp] theorem holdCommand_lineBreak (i : Instr) : (holdCommand i s).lineBreak = s.lineBreak := rfl
@[simp] theorem holdCommand_nameLen (i : Instr) : (holdCommand i s).nameLen = s.nameLen := rfl
@[simp] theorem holdCommand_name (i : Instr) : (holdCommand i s).name = s.name := rfl
@[simp] theorem holdCommand_rowStride (i : Instr) : (holdCommand i s).rowStride = s.rowStride := rfl
@[simp] theorem holdCommand_byteLength (i : Instr) : (holdCommand i s).byteLength = s.byteLength := rfl
@[simp] theorem holdCommand_curX (i : Instr) : (holdCommand i s).curX = s.curX := rfl
@[simp] theorem holdCommand_curY (i : Instr) : (holdCommand i s).curY = s.curY := rfl
@[simp] theorem holdCommand_threshResult (i : Instr) : (holdCommand i s).threshResult = s.threshResult := rfl
@[simp] theorem holdCommand_outCount (i : Instr) : (holdCommand i s).outCount = s.outCount := rfl
@[simp] theorem holdCommand_buf (i : Instr) : (holdCommand i s).buf = s.buf := rfl
@[simp] theorem holdCommand_cmdPort (i : Instr) : (holdCommand i s).cmdPort = some (encode i) := rfl
@[simp] theorem holdCommand_hostAgenda (i : Instr) : (holdCommand i s).hostAgenda = s.hostAgenda := rfl
@[simp] theorem holdCommand_hostTaken (i : Instr) : (holdCommand i s).hostTaken = s.hostTaken := rfl
@[simp] theorem holdCommand_hostArtifacts (i : Instr) : (holdCommand i s).hostArtifacts = s.hostArtifacts := rfl
@[simp] theorem holdCommand_hostReads (i : Instr) : (holdCommand i s).hostReads = s.hostReads := rfl

@[simp] theorem resetBlock_params : (resetBlock s).params = s.params := rfl
@[simp] theorem resetBlock_blockState : (resetBlock s).blockState = .idle := rfl
@[simp] theorem resetBlock_err : (resetBlock s).err = .noError := rfl
@[simp] theorem resetBlock_width : (resetBlock s).width = 0#24 := rfl
@[simp] theorem resetBlock_height : (resetBlock s).height = 0#24 := rfl
@[simp] theorem resetBlock_invert : (resetBlock s).invert = false := rfl
@[simp] theorem resetBlock_lineBreak : (resetBlock s).lineBreak = false := rfl
@[simp] theorem resetBlock_nameLen : (resetBlock s).nameLen = 0#32 := rfl
@[simp] theorem resetBlock_name : (resetBlock s).name = [] := rfl
@[simp] theorem resetBlock_rowStride : (resetBlock s).rowStride = 0#32 := rfl
@[simp] theorem resetBlock_byteLength : (resetBlock s).byteLength = 0#32 := rfl
@[simp] theorem resetBlock_curX : (resetBlock s).curX = 0#24 := rfl
@[simp] theorem resetBlock_curY : (resetBlock s).curY = 0#24 := rfl
@[simp] theorem resetBlock_threshResult : (resetBlock s).threshResult = 0#9 := rfl
@[simp] theorem resetBlock_outCount : (resetBlock s).outCount = 0 := rfl
@[simp] theorem resetBlock_buf : (resetBlock s).buf = [] := rfl
@[simp] theorem resetBlock_cmdPort : (resetBlock s).cmdPort = none := rfl
@[simp] theorem resetBlock_hostAgenda : (resetBlock s).hostAgenda = s.hostAgenda := rfl
@[simp] theorem resetBlock_hostTaken : (resetBlock s).hostTaken = [] := rfl
@[simp] theorem resetBlock_hostArtifacts : (resetBlock s).hostArtifacts = s.hostArtifacts := rfl
@[simp] theorem resetBlock_hostReads : (resetBlock s).hostReads = s.hostReads := rfl

@[simp] theorem resetWith_params (p : Params) : (State.resetWith p).params = p := rfl
@[simp] theorem resetWith_blockState (p : Params) : (State.resetWith p).blockState = .idle := rfl
@[simp] theorem resetWith_err (p : Params) : (State.resetWith p).err = .noError := rfl
@[simp] theorem resetWith_width (p : Params) : (State.resetWith p).width = 0#24 := rfl
@[simp] theorem resetWith_height (p : Params) : (State.resetWith p).height = 0#24 := rfl
@[simp] theorem resetWith_invert (p : Params) : (State.resetWith p).invert = false := rfl
@[simp] theorem resetWith_lineBreak (p : Params) : (State.resetWith p).lineBreak = false := rfl
@[simp] theorem resetWith_nameLen (p : Params) : (State.resetWith p).nameLen = 0#32 := rfl
@[simp] theorem resetWith_name (p : Params) : (State.resetWith p).name = [] := rfl
@[simp] theorem resetWith_rowStride (p : Params) : (State.resetWith p).rowStride = 0#32 := rfl
@[simp] theorem resetWith_byteLength (p : Params) : (State.resetWith p).byteLength = 0#32 := rfl
@[simp] theorem resetWith_curX (p : Params) : (State.resetWith p).curX = 0#24 := rfl
@[simp] theorem resetWith_curY (p : Params) : (State.resetWith p).curY = 0#24 := rfl
@[simp] theorem resetWith_threshResult (p : Params) : (State.resetWith p).threshResult = 0#9 := rfl
@[simp] theorem resetWith_outCount (p : Params) : (State.resetWith p).outCount = 0 := rfl
@[simp] theorem resetWith_buf (p : Params) : (State.resetWith p).buf = [] := rfl
@[simp] theorem resetWith_cmdPort (p : Params) : (State.resetWith p).cmdPort = none := rfl
@[simp] theorem resetWith_hostAgenda (p : Params) : (State.resetWith p).hostAgenda = [] := rfl
@[simp] theorem resetWith_hostTaken (p : Params) : (State.resetWith p).hostTaken = [] := rfl
@[simp] theorem resetWith_hostArtifacts (p : Params) : (State.resetWith p).hostArtifacts = [] := rfl
@[simp] theorem resetWith_hostReads (p : Params) : (State.resetWith p).hostReads = [] := rfl

@[simp] theorem State.withBuf_self : s.withBuf s.buf = s := rfl

@[simp] theorem State.withBuf_withBuf (m n : Memory) : (s.withBuf m).withBuf n = s.withBuf n := rfl

end Sys2Proof.Machine
end

