-- ==== Sys2Proof/Laws/Memory.lean ====
section
/-! SUPPORT. The laws of BUF and NAME as lists of cells: read after write, the canonical form, and what stays inside or
covered. -/

namespace Sys2Proof.Machine

@[simp] theorem Memory.read_nil (a : Nat) : Memory.read [] a = none := rfl

theorem Memory.read_cons (b : Nat) (v : Byte) (m : Memory) (a : Nat) :
    Memory.read ((b, v) :: m) a = if a = b then some v else Memory.read m a := rfl

/-- A read after a write to the same address gives the value written. -/
@[simp] theorem Memory.read_write_same (m : Memory) (a : Nat) (v : Byte) : (m.write a v).read a = some v := by
  induction m with
  | nil => simp [Memory.write, Memory.read]
  | cons c m ih =>
    obtain ⟨b, u⟩ := c
    simp only [Memory.write]
    split
    · simp [Memory.read]
    · split
      · simp [Memory.read]
      · rename_i h
        simpa [Memory.read_cons, h] using ih

/-- A write leaves every other address as it was. -/
theorem Memory.read_write_other (m : Memory) {a b : Nat} (v : Byte) (h : b ≠ a) :
    (m.write a v).read b = m.read b := by
  induction m with
  | nil => simp [Memory.write, Memory.read, h]
  | cons c m ih =>
    obtain ⟨d, u⟩ := c
    simp only [Memory.write]
    split
    · simp [Memory.read_cons, h]
    · split
      · rename_i h2
        subst h2
        simp [Memory.read_cons, h]
      · simp [Memory.read_cons, ih]

/-- Both laws at once. -/
theorem Memory.read_write (m : Memory) (a b : Nat) (v : Byte) :
    (m.write a v).read b = if b = a then some v else m.read b := by
  by_cases h : b = a
  · subst h; simp
  · simp [h, Memory.read_write_other m v h]

theorem Memory.wf_cons (a : Nat) (v : Byte) (m : Memory) :
    Memory.wf ((a, v) :: m) = true ↔ (∀ c ∈ m.head?, a < c.1) ∧ m.wf = true := by
  cases m with
  | nil => simp [Memory.wf]
  | cons c m => obtain ⟨b, u⟩ := c; simp [Memory.wf]

theorem Memory.head_write (m : Memory) (a : Nat) (v : Byte) :
    ∀ c ∈ (m.write a v).head?, c.1 = a ∨ c ∈ m.head? := by
  cases m with
  | nil => simp [Memory.write]
  | cons c m =>
    obtain ⟨b, u⟩ := c
    simp only [Memory.write]
    split
    · simp
    · split <;> simp

/-- A write keeps the canonical form. -/
theorem Memory.wf_write {m : Memory} (h : m.wf = true) (a : Nat) (v : Byte) : (m.write a v).wf = true := by
  induction m with
  | nil => rfl
  | cons c m ih =>
    obtain ⟨b, u⟩ := c
    have hm := (Memory.wf_cons b u m).1 h
    simp only [Memory.write]
    split
    · rename_i hab
      exact (Memory.wf_cons _ _ _).2 ⟨by simpa using hab, h⟩
    · split
      · rename_i _ hab
        subst hab
        exact (Memory.wf_cons _ _ _).2 hm
      · rename_i hlt hne
        refine (Memory.wf_cons _ _ _).2 ⟨fun c hc => ?_, ih hm.2⟩
        rcases Memory.head_write m a v c hc with h1 | h1
        · omega
        · exact hm.1 c h1

theorem Memory.mem_write {m : Memory} {a : Nat} {v : Byte} {c : Host.Cell} (h : c ∈ m.write a v) :
    c = (a, v) ∨ c ∈ m := by
  induction m with
  | nil => simpa [Memory.write] using h
  | cons d m ih =>
    obtain ⟨b, u⟩ := d
    simp only [Memory.write] at h
    split at h
    · simpa using h
    · split at h
      · rcases List.mem_cons.1 h with h | h
        · exact .inl h
        · exact .inr (List.mem_cons_of_mem _ h)
      · rcases List.mem_cons.1 h with h | h
        · exact .inr (by simp [h])
        · rcases ih h with h | h
          · exact .inl h
          · exact .inr (List.mem_cons_of_mem _ h)

/-- A write inside the space keeps everything inside it. -/
theorem Memory.inside_write {m : Memory} {n a : Nat} {v : Byte} (h : m.inside n) (ha : a < n) :
    (m.write a v).inside n := by
  intro c hc
  rcases Memory.mem_write hc with rfl | hc
  · exact ha
  · exact h c hc

/-- A write keeps every written byte written. -/
theorem Memory.covers_write {m : Memory} {n : Nat} (h : m.covers n) (a : Nat) (v : Byte) : (m.write a v).covers n := by
  intro b hb
  by_cases hab : b = a
  · subst hab; exact ⟨v, by simp⟩
  · obtain ⟨u, hu⟩ := h b hb
    exact ⟨u, by rw [Memory.read_write_other m v hab, hu]⟩

theorem Memory.covers_mono {m : Memory} {n k : Nat} (h : m.covers n) (hk : k ≤ n) : m.covers k :=
  fun a ha => h a (Nat.lt_of_lt_of_le ha hk)

@[simp] theorem Memory.covers_zero (m : Memory) : m.covers 0 := fun _ h => absurd h (Nat.not_lt_zero _)

@[simp] theorem Memory.inside_nil (n : Nat) : Memory.inside [] n := fun _ h => absurd h List.not_mem_nil

end Sys2Proof.Machine
end

