-- ==== Sys2Proof/Laws/Ops.lean ====
section
/-! SUPPORT. What each shared operation can do, said once: a byte access, a loop, taking a fault, the check before every
command. -/

namespace Sys2Proof.Machine

theorem memRead_ok_iff {s : State} {a : Nat} {v : Byte} :
    memRead s a = .ok v ↔ a < s.params.bufBytes.toNat ∧ s.buf.read a = some v := by
  unfold memRead
  split
  · split <;> simp_all
  · simp_all

theorem memWrite_ok_iff {s t : State} {a : Nat} {v : Byte} :
    memWrite s a v = .ok t ↔ a < s.params.bufBytes.toNat ∧ t = s.withBuf (s.buf.write a v) := by
  unfold memWrite
  split <;> simp_all [eq_comm]

/-- A read-modify-write that succeeds had a value to modify, and changes that one byte of BUF. -/
theorem memModify_ok_iff {s t : State} {a : Nat} {f : Byte → Byte} :
    memModify s a f = .ok t ↔
      ∃ v, a < s.params.bufBytes.toNat ∧ s.buf.read a = some v ∧ t = s.withBuf (s.buf.write a (f v)) := by
  unfold memModify
  cases h : memRead s a with
  | error e => simp only [reduceCtorEq, false_iff]; rintro ⟨v, h1, h2, -⟩; rw [memRead_ok_iff.2 ⟨h1, h2⟩] at h; cases h
  | ok v =>
    obtain ⟨h1, h2⟩ := memRead_ok_iff.1 h
    simp [memWrite_ok_iff, h1, h2]

theorem nameRead_ok_iff {s : State} {k : Nat} {v : Byte} :
    nameRead s k = .ok v ↔ k < s.params.nameMax.toNat ∧ s.name.read k = some v := by
  unfold nameRead
  split
  · split <;> simp_all
  · simp_all

theorem nameWrite_ok_iff {s t : State} {k : Nat} {v : Byte} :
    nameWrite s k v = .ok t ↔ k < s.params.nameMax.toNat ∧ t = s.withName (s.name.write k v) := by
  unfold nameWrite
  split <;> simp_all [eq_comm]

/-- A loop whose body succeeds and moves `P i` to `P (i + 1)` succeeds and ends in `P` of its upper end. -/
theorem forRange_total {f : Nat → State → Except Fault State} {P : Nat → State → Prop} {lo n : Nat} {s : State}
    (hstep : ∀ i t, lo ≤ i → i < lo + n → P i t → ∃ u, f i t = .ok u ∧ P (i + 1) u) (h : P lo s) :
    ∃ t, forRange f lo n s = .ok t ∧ P (lo + n) t := by
  induction n generalizing lo s with
  | zero => exact ⟨s, rfl, h⟩
  | succ n ih =>
    obtain ⟨u, hu, hp⟩ := hstep lo s (Nat.le_refl _) (by omega) h
    obtain ⟨t, ht, hq⟩ := ih (lo := lo + 1) (s := u)
      (fun i t h1 h2 hp => hstep i t (by omega) (by omega) hp) hp
    exact ⟨t, by simpa [forRange, hu] using ht, by simpa [Nat.add_assoc, Nat.add_comm 1] using hq⟩

/-- What every iteration keeps, a loop that succeeds keeps. -/
theorem forRange_keeps {f : Nat → State → Except Fault State} {P : State → Prop} {lo n : Nat} {s t : State}
    (hstep : ∀ i u v, lo ≤ i → i < lo + n → P u → f i u = .ok v → P v) (h : P s) (ht : forRange f lo n s = .ok t) :
    P t := by
  induction n generalizing lo s with
  | zero => simp only [forRange, Except.ok.injEq] at ht; exact ht ▸ h
  | succ n ih =>
    simp only [forRange] at ht
    split at ht
    · rename_i u hu
      exact ih (fun i u v h1 h2 => hstep i u v (by omega) (by omega)) (hstep lo s u (Nat.le_refl _) (by omega) h hu) ht
    · cases ht

/-- Collecting values that are all there gives them in order. -/
theorem collect_ok {f : Nat → Except Fault Byte} {g : Nat → Byte} {lo n : Nat}
    (h : ∀ i, lo ≤ i → i < lo + n → f i = .ok (g i)) : collect f lo n = .ok ((List.range' lo n).map g) := by
  induction n generalizing lo with
  | zero => rfl
  | succ n ih =>
    have h0 := h lo (Nat.le_refl _) (by omega)
    have ih' := ih (lo := lo + 1) (fun i h1 h2 => h i (by omega) (by omega))
    simp [collect, h0, ih', List.range'_succ]

theorem collect_length {f : Nat → Except Fault Byte} {lo n : Nat} {bs : List Byte} (h : collect f lo n = .ok bs) :
    bs.length = n := by
  induction n generalizing lo bs with
  | zero => simp only [collect, Except.ok.injEq] at h; simp [← h]
  | succ n ih =>
    simp only [collect] at h
    split at h
    · cases h
    · split at h
      · rename_i bs' h'
        simp only [Except.ok.injEq] at h
        simp [← h, ih h']
      · cases h

/-- Taking a fault in ERROR changes nothing (R173, R184). -/
theorem raiseFault_of_error {s : State} (h : s.blockState = .error) (c : ErrCode) : raiseFault c s = s := by
  simp [raiseFault, h]

/-- Taking a fault anywhere else writes STATUS and nothing else (R173). -/
theorem raiseFault_of_ne {s : State} (h : s.blockState ≠ .error) (c : ErrCode) :
    raiseFault c s = s.withStatus .error c := by
  simp [raiseFault, h]

/-- After a fault the block is in ERROR. -/
@[simp] theorem raiseFault_blockState (c : ErrCode) (s : State) : (raiseFault c s).blockState = .error := by
  unfold raiseFault; split <;> simp_all

/-- A fault writes STATUS only (R173). -/
theorem raiseFault_eq_withStatus (c : ErrCode) (s : State) : ∃ e, raiseFault c s = s.withStatus .error e := by
  by_cases h : s.blockState = .error
  · exact ⟨s.err, by rw [raiseFault_of_error h]; cases s; simp_all [State.withStatus]⟩
  · exact ⟨c, raiseFault_of_ne h c⟩

theorem gate_of_emit {s : State} (h : s.blockState = .emit) (i : Instr) (r : Host.Outcome State Fault Refusal) :
    gate i s r = .next (holdCommand i s) := by
  simp [gate, h]

theorem gate_of_legal {s : State} {i : Instr} (h : legal i.op s.blockState = true)
    (r : Host.Outcome State Fault Refusal) : gate i s r = r := by
  have : s.blockState ≠ .emit := by
    intro he
    rw [he] at h
    cases i <;> simp [Instr.op, legal, outsideEmit, outsideEncode, inLoad] at h
  simp [gate, this, h]

theorem gate_of_illegal {s : State} {i : Instr} (he : s.blockState ≠ .emit) (h : legal i.op s.blockState = false)
    (r : Host.Outcome State Fault Refusal) : gate i s r = .next (raiseFault .sequence s) := by
  simp [gate, he, h]

/-- What the check before a command answers: the command waits, faults with ERR_SEQUENCE, or runs (R159, R179, R198). -/
theorem gate_cases (i : Instr) (s : State) (r : Host.Outcome State Fault Refusal) :
    (s.blockState = .emit ∧ gate i s r = .next (holdCommand i s)) ∨
    (s.blockState ≠ .emit ∧ legal i.op s.blockState = false ∧ gate i s r = .next (raiseFault .sequence s)) ∨
    (legal i.op s.blockState = true ∧ gate i s r = r) := by
  by_cases he : s.blockState = .emit
  · exact .inl ⟨he, gate_of_emit he i r⟩
  · cases h : legal i.op s.blockState
    · exact .inr (.inl ⟨he, rfl, gate_of_illegal he h r⟩)
    · exact .inr (.inr ⟨rfl, gate_of_legal h r⟩)

/-- The zeroed buffer (R104): every byte below n is 0, every other byte is as before, and nothing else changes. -/
theorem clearBuf_ok {s : State} {n : Nat} (hn : n ≤ s.params.bufBytes.toNat) :
    ∃ m, clearBuf n s = .ok (s.withBuf m) ∧ (∀ a, m.read a = if a < n then some 0x00#8 else s.buf.read a) ∧
      (s.buf.wf = true → m.wf = true) ∧ (s.buf.inside s.params.bufBytes.toNat → m.inside s.params.bufBytes.toNat) := by
  have := forRange_total (f := fun a t => memWrite t a 0x00#8) (lo := 0) (n := n) (s := s)
    (P := fun i t => t = s.withBuf t.buf ∧ (∀ a, t.buf.read a = if a < i then some 0x00#8 else s.buf.read a) ∧
      (s.buf.wf = true → t.buf.wf = true) ∧
      (s.buf.inside s.params.bufBytes.toNat → t.buf.inside s.params.bufBytes.toNat))
    (by
      rintro i t - hi ⟨h1, h2, h3, h4⟩
      have hp : t.params = s.params := by rw [h1]; rfl
      have hin : i < t.params.bufBytes.toNat := by rw [hp]; omega
      refine ⟨_, memWrite_ok_iff.2 ⟨hin, rfl⟩, ?_, fun a => ?_, fun h => ?_, fun h => ?_⟩
      · conv_lhs => rw [h1]
        simp
      · rw [State.withBuf_buf, Memory.read_write, h2]
        by_cases hai : a = i
        · simp [hai]
        · have : a < i + 1 ↔ a < i := by omega
          simp [hai, this]
      · exact Memory.wf_write (h3 h) _ _
      · exact Memory.inside_write (h4 h) (by omega))
    ⟨by simp, by simp, id, id⟩
  obtain ⟨t, ht, h1, h2, h3, h4⟩ := this
  exact ⟨t.buf, by rw [clearBuf, ht]; exact congrArg _ h1, by simpa using h2, h3, h4⟩

/-- Setting a pixel's bit where the byte has a value (R105): that byte takes the mask, and nothing else changes. -/
theorem setPixelBit_ok {s : State} {x y : Nat} {v : Byte} (h : pixelAddr s.rowStride.toNat x y < s.params.bufBytes.toNat)
    (hv : s.buf.read (pixelAddr s.rowStride.toNat x y) = some v) :
    setPixelBit x y s =
      .ok (s.withBuf (s.buf.write (pixelAddr s.rowStride.toNat x y) (v ||| pixelMask x))) :=
  memModify_ok_iff.2 ⟨v, h, hv, rfl⟩

/-- The cursor is all a cursor move changes (R112). -/
theorem advanceCursor_eq (s : State) :
    advanceCursor s = s.withCursor (if s.curX.toNat + 1 < s.width.toNat then s.curX + 1#24 else 0#24)
      (if s.curX.toNat + 1 < s.width.toNat then s.curY else s.curY + 1#24) := by
  unfold advanceCursor; split <;> rfl

/-- What an output step in EMIT with a byte to offer does (R153). -/
theorem outputStep_of_emit {s : State} {e : List Byte} (h : s.blockState = .emit) (he : emission s = .ok e)
    (hk : s.outCount < e.length) :
    outputStep s = .next (if s.outCount + 1 = e.length then takeLast s e[s.outCount] else takeByte s e[s.outCount]) := by
  simp only [outputStep, h, if_true, he, List.getElem?_eq_getElem hk]
  split <;> rfl

/-- Outside EMIT the host can take nothing (R153). -/
theorem outputStep_of_ne {s : State} (h : s.blockState ≠ .emit) : outputStep s = .next s := by
  simp [outputStep, h]

end Sys2Proof.Machine
end

