-- ==== Sys2Proof/Laws/Step.lean ====
section
/-! SUPPORT. What one step can do, said once: the word the block accepts, or the host's next action. -/

namespace Sys2Proof.Machine

/-- A word is accepted exactly when it is on CMD, the state is not EMIT and RST is not asserted (R45, R182, R193). -/
theorem acceptedWord_eq_some {s : State} {w : Word} :
    acceptedWord s = some w ↔ resetAsserted s = false ∧ s.blockState ≠ .emit ∧ s.cmdPort = some w := by
  unfold acceptedWord
  split
  · simp_all
  · split <;> simp_all

theorem step_of_accepted {s : State} {w : Word} (h : acceptedWord s = some w) :
    step s = accept w (s.withPort none) := by
  simp [step, h]

theorem step_of_none {s : State} (h : acceptedWord s = none) : step s = hostStep s := by
  simp [step, h]

/-- The action past the offers is no offer, and taking it keeps every other action. -/
theorem pastOffers_some {l rest : List HostAction} {a : HostAction} (h : pastOffers l = some (a, rest)) :
    (∀ w, a ≠ .send w) ∧ ∃ pre post, (∀ b ∈ pre, ∃ w, b = .send w) ∧ l = pre ++ a :: post ∧ rest = pre ++ post := by
  induction l generalizing rest with
  | nil => cases h
  | cons b l ih =>
    cases b with
    | send w =>
      simp only [pastOffers, Option.map_eq_some_iff] at h
      obtain ⟨⟨c, r⟩, h1, h2⟩ := h
      cases h2
      obtain ⟨h3, pre, post, h4, rfl, rfl⟩ := ih h1
      exact ⟨h3, .send w :: pre, post, by simpa using h4, rfl, rfl⟩
    | _ => cases h; exact ⟨(fun _ h => by cases h), [], _, by simp, rfl, rfl⟩

/-- Nothing lies past the offers exactly when every action is one. -/
theorem pastOffers_none {l : List HostAction} : pastOffers l = none ↔ ∀ b ∈ l, ∃ w, b = .send w := by
  induction l with
  | nil => simp [pastOffers]
  | cons b l ih => cases b <;> simp [pastOffers, ih]

/-- Past offers that wait stands the first action that is none (log 6). -/
theorem pastOffers_map_append (ws : List Word) {a : HostAction} (h : ∀ w, a ≠ .send w) (rest : List HostAction) :
    pastOffers (ws.map .send ++ a :: rest) = some (a, ws.map .send ++ rest) := by
  induction ws with
  | nil => cases a <;> simp_all [pastOffers]
  | cons w ws ih => simp [pastOffers, ih]

/-- The host's next action is the first of its agenda, unless a word waits on CMD in EMIT and that action is an offer. -/
theorem nextAction_cons {s : State} {a : HostAction} {rest : List HostAction} (h : s.hostAgenda = a :: rest)
    (hf : (s.blockState = .emit ∧ s.cmdPort.isSome = true) → ∀ w, a ≠ .send w) : nextAction s = some (a, rest) := by
  unfold nextAction
  split
  · rename_i he
    rw [h]
    cases a with
    | send w => exact absurd rfl (hf he w)
    | _ => rfl
  · rw [h]

/-- An offer is the next action only where a word can be put on CMD. -/
theorem nextAction_send {s : State} {w : Word} {rest : List HostAction} (h : nextAction s = some (.send w, rest)) :
    ¬(s.blockState = .emit ∧ s.cmdPort.isSome = true) ∧ s.hostAgenda = .send w :: rest := by
  unfold nextAction at h
  split at h
  · exact absurd rfl ((pastOffers_some h).1 w)
  · rename_i hf
    split at h <;> cases h
    exact ⟨hf, ‹_›⟩

/-- The host's next action and those after it are of its agenda. -/
theorem nextAction_mem {s : State} {a : HostAction} {rest : List HostAction} (h : nextAction s = some (a, rest)) :
    a ∈ s.hostAgenda ∧ ∀ b ∈ rest, b ∈ s.hostAgenda := by
  unfold nextAction at h
  split at h
  · obtain ⟨_, pre, post, _, h2, h3⟩ := pastOffers_some h
    rw [h2, h3]
    simp
    tauto
  · split at h <;> cases h
    rename_i h2
    rw [h2]
    simp
    tauto

theorem resetAsserted_eq_true {s : State} : resetAsserted s = true ↔ ∃ rest, nextAction s = some (.reset, rest) := by
  unfold resetAsserted
  cases nextAction s with
  | none => simp
  | some p => obtain ⟨a, r⟩ := p; simp

/-- RST asserted: the reset happens, whatever is on CMD (R182, R193). -/
theorem step_of_resetAsserted {s : State} {rest : List HostAction} (h : nextAction s = some (.reset, rest)) :
    step s = .next (resetBlock (s.withAgenda rest)) := by
  have : acceptedWord s = none := by
    simp [acceptedWord, resetAsserted_eq_true.2 ⟨rest, h⟩]
  rw [step_of_none this]
  simp [hostStep, h]

theorem step_of_reset {s : State} {rest : List HostAction} (h : s.hostAgenda = .reset :: rest) :
    step s = .next (resetBlock (s.withAgenda rest)) :=
  step_of_resetAsserted (nextAction_cons h fun _ _ h => by cases h)

/-- What a word on CMD makes of the state (R76, R159). -/
theorem accept_cases (w : Word) (s : State) :
    (decode w = .reservedOpcode ∧ accept w s = .next (raiseFault .opcode s)) ∨
    (decode w = .reservedBits ∧ accept w s = .next (raiseFault .reserved s)) ∨
    ∃ i, decode w = .command i ∧ accept w s = exec i s := by
  unfold accept
  cases h : decode w with
  | reservedOpcode => exact .inl ⟨rfl, rfl⟩
  | reservedBits => exact .inr (.inl ⟨rfl, rfl⟩)
  | command i => exact .inr (.inr ⟨i, rfl, rfl⟩)

/-- Everything one step can be (R19, R20, R45, R159). -/
theorem step_cases (s : State) :
    (∃ rest, nextAction s = some (.reset, rest) ∧ step s = .next (resetBlock (s.withAgenda rest))) ∨
    (∃ w, acceptedWord s = some w ∧ step s = accept w (s.withPort none)) ∨
    (acceptedWord s = none ∧ nextAction s = none ∧ step s = .next s) ∨
    (acceptedWord s = none ∧ ∃ rest, nextAction s = some (.take, rest) ∧ step s = outputStep (s.withAgenda rest)) ∨
    (acceptedWord s = none ∧ ∃ i rest, nextAction s = some (.read i, rest) ∧
      step s = .next (hostRead i (s.withAgenda rest))) ∨
    (acceptedWord s = none ∧ ∃ w rest, s.hostAgenda = .send w :: rest ∧ s.cmdPort = none ∧
      step s = .next ((s.withAgenda rest).withPort (some w))) := by
  cases ha : acceptedWord s with
  | some w => exact .inr (.inl ⟨w, rfl, step_of_accepted ha⟩)
  | none =>
    cases h : nextAction s with
    | none => exact .inr (.inr (.inl ⟨rfl, rfl, by rw [step_of_none ha]; simp [hostStep, h]⟩))
    | some p =>
      obtain ⟨a, rest⟩ := p
      cases a with
      | reset => exact .inl ⟨rest, rfl, step_of_resetAsserted h⟩
      | take => exact .inr (.inr (.inr (.inl ⟨rfl, rest, rfl, by rw [step_of_none ha]; simp [hostStep, h]⟩)))
      | read i =>
        exact .inr (.inr (.inr (.inr (.inl ⟨rfl, i, rest, rfl, by rw [step_of_none ha]; simp [hostStep, h]⟩))))
      | send w =>
        obtain ⟨hf, hl⟩ := nextAction_send h
        refine .inr (.inr (.inr (.inr (.inr ⟨rfl, w, rest, hl, ?_, by rw [step_of_none ha]; simp [hostStep, h]⟩))))
        cases hp : s.cmdPort with
        | none => rfl
        | some u =>
          have := acceptedWord_eq_some.2 ⟨by simp [resetAsserted, h], fun he => hf ⟨he, by simp [hp]⟩, hp⟩
          rw [ha] at this
          cases this

end Sys2Proof.Machine
end

