-- ==== Sys2Proof/Laws/Exec.lean ====
section
/-! SUPPORT. What each command's own effect can be, said once: if it answers a next state, then one of these. Later proofs cite
these instead of unfolding a meaning. -/

namespace Sys2Proof.Machine

/-- START's own effect (R110): a fault recorded from any state, or the new encode with a zeroed buffer. -/
theorem startEncode_cases (s : State) :
    ((s.width = 0#24 ∨ s.height = 0#24) ∧ startEncode (clearError s) = .next (s.withStatus .error .dim)) ∨
    (s.width ≠ 0#24 ∧ s.height ≠ 0#24 ∧ s.params.bufBytes.toNat < byteLengthOf s.width.toNat s.height.toNat ∧
      startEncode (clearError s) = .next (s.withStatus .error .capacity)) ∨
    (s.width ≠ 0#24 ∧ s.height ≠ 0#24 ∧ byteLengthOf s.width.toNat s.height.toNat ≤ s.params.bufBytes.toNat ∧
      ∃ m, startEncode (clearError s) =
          .next ((startRegs (clearError s) (rowStrideOf s.width.toNat) (byteLengthOf s.width.toNat s.height.toNat)).withBuf m) ∧
        (∀ a, m.read a = if a < byteLengthOf s.width.toNat s.height.toNat then some 0x00#8 else s.buf.read a) ∧
        (s.buf.wf = true → m.wf = true) ∧
        (s.buf.inside s.params.bufBytes.toNat → m.inside s.params.bufBytes.toNat)) := by
  by_cases hd : s.width = 0#24 ∨ s.height = 0#24
  · exact .inl ⟨hd, by simp [startEncode, hd, raiseFault]; rfl⟩
  · obtain ⟨hw, hh⟩ := not_or.1 hd
    by_cases hb : s.params.bufBytes.toNat < byteLengthOf s.width.toNat s.height.toNat
    · exact .inr (.inl ⟨hw, hh, hb, by simp [startEncode, hw, hh, hb, raiseFault]; rfl⟩)
    · refine .inr (.inr ⟨hw, hh, by omega, ?_⟩)
      obtain ⟨m, h1, h2, h3, h4⟩ := clearBuf_ok (n := byteLengthOf s.width.toNat s.height.toNat)
        (s := startRegs (clearError s) (rowStrideOf s.width.toNat) (byteLengthOf s.width.toNat s.height.toNat))
        (Nat.le_of_not_lt hb)
      exact ⟨m, by simp [startEncode, hw, hh, hb, h1, outcomeOf], h2, h3, h4⟩

/-- NBYTE's own effect (R166). -/
theorem appendName_next {b : Byte} {s t : State} (h : appendName b s = .next t) :
    (s.nameLen = s.params.nameMax ∧ t = raiseFault .nameFull s) ∨
    (s.nameLen ≠ s.params.nameMax ∧ s.nameLen.toNat < s.params.nameMax.toNat ∧
      t = { s.withName (s.name.write s.nameLen.toNat b) with nameLen := s.nameLen + 1#32 }) := by
  unfold appendName at h
  split at h
  · cases h; exact .inl ⟨‹_›, rfl⟩
  · split at h
    · cases h
    · rename_i u hu
      obtain ⟨h1, rfl⟩ := nameWrite_ok_iff.1 hu
      cases h
      exact .inr ⟨‹_›, h1, rfl⟩

/-- PIXEL's own effect (R112). -/
theorem packPixel_next {r g b : Byte} {s t : State} (h : packPixel r g b s = .next t) :
    (s.curY = s.height ∧ t = raiseFault .overrun s) ∨
    (s.curY ≠ s.height ∧ light r g b = false ∧ t = advanceCursor s) ∨
    (s.curY ≠ s.height ∧ light r g b = true ∧ ∃ v,
      pixelAddr s.rowStride.toNat s.curX.toNat s.curY.toNat < s.params.bufBytes.toNat ∧
      s.buf.read (pixelAddr s.rowStride.toNat s.curX.toNat s.curY.toNat) = some v ∧
      t = advanceCursor (s.withBuf (s.buf.write (pixelAddr s.rowStride.toNat s.curX.toNat s.curY.toNat)
        (v ||| pixelMask s.curX.toNat)))) := by
  unfold packPixel at h
  split at h
  · cases h; exact .inl ⟨‹_›, rfl⟩
  · split at h
    · split at h
      · rename_i u hu
        obtain ⟨v, h1, h2, rfl⟩ := memModify_ok_iff.1 hu
        cases h
        exact .inr (.inr ⟨‹_›, ‹_›, v, h1, h2, rfl⟩)
      · cases h
    · cases h
      exact .inr (.inl ⟨‹_›, by simpa using ‹¬ light r g b = true›, rfl⟩)

/-- FINISH's own effect (R149). -/
theorem finishEncode_next {s t : State} (h : finishEncode s = .next t) :
    (s.curY ≠ s.height ∧ t = raiseFault .underrun s) ∨
    (s.curY = s.height ∧ s.invert = false ∧ t = finishRegs s) ∨
    (s.curY = s.height ∧ s.invert = true ∧ ∃ u, invertBuf s = .ok u ∧ t = finishRegs u) := by
  unfold finishEncode at h
  split at h
  · cases h; exact .inl ⟨‹_›, rfl⟩
  · rename_i hy
    have hy : s.curY = s.height := by simpa using hy
    split at h
    · split at h
      · cases h; exact .inr (.inr ⟨hy, ‹_›, _, ‹_›, rfl⟩)
      · cases h
    · cases h
      exact .inr (.inl ⟨hy, by simpa using ‹¬ s.invert = true›, rfl⟩)

/-- The output step's effect (R153). -/
theorem outputStep_next {s t : State} (h : outputStep s = .next t) :
    (s.blockState ≠ .emit ∧ t = s) ∨
    (s.blockState = .emit ∧ ∃ e b, emission s = .ok e ∧ e[s.outCount]? = some b ∧
      ((s.outCount + 1 = e.length ∧ t = takeLast s b) ∨ (s.outCount + 1 ≠ e.length ∧ t = takeByte s b))) := by
  unfold outputStep at h
  split at h
  · rename_i he
    split at h
    · cases h
    · split at h
      · cases h
      · rename_i e hem _ b hb
        refine .inr ⟨he, e, b, hem, hb, ?_⟩
        split at h <;> cases h
        · exact .inl ⟨‹_›, rfl⟩
        · exact .inr ⟨‹_›, rfl⟩
  · cases h; exact .inl ⟨‹_›, rfl⟩

/-- What a command does where it is legal. -/
def effect : Instr → State → Host.Outcome State Fault Refusal
  | .nop, s => .next s
  | .setw imm, s => .next { s with width := imm }
  | .seth imm, s => .next { s with height := imm }
  | .setf inv lb, s => .next { s with invert := inv, lineBreak := lb }
  | .nclr, s => .next { s with nameLen := 0#32 }
  | .nbyte b, s => appendName b s
  | .start, s => startEncode (clearError s)
  | .pixel r g b, s => packPixel r g b s
  | .thresh r g b, s => .next { s with threshResult := threshWord r g b }
  | .finish, s => finishEncode s
  | .abort, s => .next (clearError s)

/-- Every command is the check before it, then its own effect (R159). -/
theorem exec_eq_gate (i : Instr) (s : State) : exec i s = gate i s (effect i s) := by cases i <;> rfl

theorem exec_of_emit {s : State} (h : s.blockState = .emit) (i : Instr) : exec i s = .next (holdCommand i s) := by
  rw [exec_eq_gate, gate_of_emit h]

theorem exec_of_legal {i : Instr} {s : State} (h : legal i.op s.blockState = true) : exec i s = effect i s := by
  rw [exec_eq_gate, gate_of_legal h]

theorem exec_of_illegal {i : Instr} {s : State} (he : s.blockState ≠ .emit) (h : legal i.op s.blockState = false) :
    exec i s = .next (raiseFault .sequence s) := by
  rw [exec_eq_gate, gate_of_illegal he h]

/-- What a word accepted outside EMIT can lead to: a fault of the decoder or of the legality table, or the command's own effect
(R159, R181). -/
theorem accept_next {w : Word} {s t : State} (he : s.blockState ≠ .emit) (h : accept w s = .next t) :
    (decode w = .reservedOpcode ∧ t = raiseFault .opcode s) ∨
    (decode w = .reservedBits ∧ t = raiseFault .reserved s) ∨
    (∃ i, decode w = .command i ∧ legal i.op s.blockState = false ∧ t = raiseFault .sequence s) ∨
    (∃ i, decode w = .command i ∧ legal i.op s.blockState = true ∧ effect i s = .next t) := by
  rcases accept_cases w s with ⟨h1, h2⟩ | ⟨h1, h2⟩ | ⟨i, h1, h2⟩
  · rw [h2] at h; cases h; exact .inl ⟨h1, rfl⟩
  · rw [h2] at h; cases h; exact .inr (.inl ⟨h1, rfl⟩)
  · rw [h2] at h
    cases hl : legal i.op s.blockState
    · rw [exec_of_illegal he hl] at h; cases h; exact .inr (.inr (.inl ⟨i, h1, hl, rfl⟩))
    · rw [exec_of_legal hl] at h; exact .inr (.inr (.inr ⟨i, h1, hl, h⟩))

end Sys2Proof.Machine
end

