-- ==== Sys2Proof/Laws/Inverter.lean ====
section
/-! SUPPORT. What the two loops of the inverter do to BUF, each said once (`42_polarity_inverter.md` R120, R121). -/

namespace Sys2Proof.Machine

/-- t is s with the byte at each address a of BUF mapped by `f a`, and nothing else changed. -/
structure BufMapped (s : State) (f : Nat → Byte → Byte) (t : State) : Prop where
  rest : t = s.withBuf t.buf
  bytes : ∀ a, t.buf.read a = (s.buf.read a).map (f a)
  wf : s.buf.wf = true → t.buf.wf = true
  inside : s.buf.inside s.params.bufBytes.toNat → t.buf.inside s.params.bufBytes.toNat

theorem BufMapped.refl (s : State) : BufMapped s (fun _ v => v) s :=
  ⟨rfl, fun a => by simp, id, id⟩

theorem BufMapped.congr {s t : State} {f g : Nat → Byte → Byte} (h : BufMapped s f t) (hfg : ∀ a v, f a v = g a v) :
    BufMapped s g t :=
  have : f = g := funext fun a => funext (hfg a)
  this ▸ h

theorem BufMapped.trans {s t u : State} {f g : Nat → Byte → Byte} (h : BufMapped s f t) (k : BufMapped t g u) :
    BufMapped s (fun a v => g a (f a v)) u where
  rest := by rw [k.rest, h.rest]; rfl
  bytes := fun a => by rw [k.bytes, h.bytes, Option.map_map]; rfl
  wf := fun w => k.wf (h.wf w)
  inside := fun w => by
    have hp : t.params = s.params := by rw [h.rest]; rfl
    exact hp ▸ k.inside (hp.symm ▸ h.inside w)

/-- One read-modify-write of a byte that has a value. -/
theorem memModify_mapped {s : State} {a : Nat} {v : Byte} (f : Byte → Byte) (ha : a < s.params.bufBytes.toNat)
    (hv : s.buf.read a = some v) :
    ∃ t, memModify s a f = .ok t ∧ BufMapped s (fun b u => if b = a then f u else u) t := by
  refine ⟨_, memModify_ok_iff.2 ⟨v, ha, hv, rfl⟩, rfl, fun b => ?_, fun h => Memory.wf_write h _ _,
    fun h => Memory.inside_write h ha⟩
  rw [State.withBuf_buf, Memory.read_write]
  by_cases hb : b = a
  · subst hb; simp [hv]
  · simp [hb]

/-- A loop each of whose iterations maps BUF's bytes maps them in turn: `g i` is what has been done before iteration i. -/
theorem forRange_mapped {f : Nat → State → Except Fault State} {g : Nat → Nat → Byte → Byte} {lo n : Nat} {s : State}
    (h0 : ∀ a v, g lo a v = v)
    (hstep : ∀ i t, lo ≤ i → i < lo + n → BufMapped s (g i) t → ∃ u k, f i t = .ok u ∧ BufMapped t k u ∧
      ∀ a v, k a (g i a v) = g (i + 1) a v) :
    ∃ t, forRange f lo n s = .ok t ∧ BufMapped s (g (lo + n)) t :=
  forRange_total (P := fun i t => BufMapped s (g i) t)
    (fun i t h1 h2 hp => by
      obtain ⟨u, k, hu, hk, hg⟩ := hstep i t h1 h2 hp
      exact ⟨u, hu, (hp.trans hk).congr hg⟩)
    ((BufMapped.refl s).congr fun a v => (h0 a v).symm)

theorem BufMapped.read_some {s t : State} {f : Nat → Byte → Byte} (h : BufMapped s f t) {a : Nat}
    (ha : ∃ v, s.buf.read a = some v) : ∃ v, t.buf.read a = some v := by
  obtain ⟨v, hv⟩ := ha
  exact ⟨f a v, by rw [h.bytes, hv]; rfl⟩

theorem BufMapped.params {s t : State} {f : Nat → Byte → Byte} (h : BufMapped s f t) : t.params = s.params := by
  rw [h.rest]; rfl

theorem BufMapped.rowStride {s t : State} {f : Nat → Byte → Byte} (h : BufMapped s f t) : t.rowStride = s.rowStride := by
  rw [h.rest]; rfl

theorem BufMapped.width {s t : State} {f : Nat → Byte → Byte} (h : BufMapped s f t) : t.width = s.width := by
  rw [h.rest]; rfl

theorem BufMapped.byteLength {s t : State} {f : Nat → Byte → Byte} (h : BufMapped s f t) :
    t.byteLength = s.byteLength := by
  rw [h.rest]; rfl

/-- Step 2 of the inverter (R121): every byte below BYTE_LENGTH is complemented, no other changes. -/
theorem flipAll_ok {s : State} (hb : s.byteLength.toNat ≤ s.params.bufBytes.toNat) (hc : s.buf.covers s.byteLength.toNat) :
    ∃ t, flipAll s = .ok t ∧ BufMapped s (fun a v => if a < s.byteLength.toNat then v ^^^ 0xFF#8 else v) t := by
  have := forRange_mapped (f := fun a t => memModify t a (fun v => v ^^^ 0xFF#8)) (lo := 0) (n := s.byteLength.toNat) (s := s)
    (g := fun i a v => if a < i then v ^^^ 0xFF#8 else v) (by simp)
    (fun i t _ h2 hp => by
      obtain ⟨v, hv⟩ := hp.read_some (hc i (by omega))
      obtain ⟨u, hu, hm⟩ := memModify_mapped (fun v => v ^^^ 0xFF#8) (by rw [hp.params]; omega) hv
      refine ⟨u, _, hu, hm, fun a v => ?_⟩
      by_cases ha : a = i
      · simp [ha]
      · have : a < i + 1 ↔ a < i := by omega
        simp [ha, this])
  simpa [flipAll] using this

/-- The bits of columns p0 up to q, not included, of a byte. -/
def columnBits (p0 q : Nat) : Byte := (0xFF#8 >>> p0) &&& ~~~(0xFF#8 >>> q)

theorem columnBits_self (p : Nat) : columnBits p p = 0x00#8 := by simp [columnBits]

theorem columnBits_succ {p0 q : Nat} (h : p0 ≤ q) (hq : q < 8) :
    columnBits p0 q ||| pixelMask q = columnBits p0 (q + 1) := by
  have : ∀ q : Fin 8, ∀ p : Fin 8, p.val ≤ q.val → columnBits p.val q.val ||| pixelMask q.val = columnBits p.val (q.val + 1) := by
    decide
  exact this ⟨q, hq⟩ ⟨p0, by omega⟩ h

theorem columnBits_all {p : Nat} (h : p ≤ 8) : columnBits p 8 = ~~~(0xFF#8 <<< (8 - p)) := by
  have : ∀ p : Fin 9, columnBits p.val 8 = ~~~(0xFF#8 <<< (8 - p.val)) := by decide
  exact this ⟨p, by omega⟩

/-- Step 1 of the inverter on one row (R120): the row's padding bits become 1, no other bit changes. -/
theorem forceRowPadding_ok {s : State} {y : Nat} (hw : 0 < s.width.toNat) (hr : s.rowStride.toNat = rowStrideOf s.width.toNat)
    (hb : y * s.rowStride.toNat + (s.rowStride.toNat - 1) < s.params.bufBytes.toNat)
    (hv : ∃ v, s.buf.read (y * s.rowStride.toNat + (s.rowStride.toNat - 1)) = some v) :
    ∃ t, forceRowPadding y s = .ok t ∧ BufMapped s (fun a v =>
      if a = y * s.rowStride.toNat + (s.rowStride.toNat - 1) then v ||| ~~~dataMask s.width.toNat (s.rowStride.toNat - 1) else v) t := by
  unfold rowStrideOf at hr
  have hm : validBits s.width.toNat (s.rowStride.toNat - 1) = s.width.toNat - 8 * (s.rowStride.toNat - 1) := by
    unfold validBits; omega
  have := forRange_mapped (f := forceBit y) (lo := s.width.toNat) (n := s.rowStride.toNat * 8 - s.width.toNat) (s := s)
    (g := fun x a v => if a = y * s.rowStride.toNat + (s.rowStride.toNat - 1) then
      v ||| columnBits (s.width.toNat - 8 * (s.rowStride.toNat - 1)) (x - 8 * (s.rowStride.toNat - 1)) else v)
    (by intro a v; simp [columnBits_self])
    (fun x t h1 h2 hp => by
      have hx : pixelAddr s.rowStride.toNat x y = y * s.rowStride.toNat + (s.rowStride.toNat - 1) := by
        unfold pixelAddr; omega
      obtain ⟨v, hv⟩ := hp.read_some hv
      obtain ⟨u, hu, hq⟩ := memModify_mapped (fun v => v ||| pixelMask x)
        (by rw [hp.params]; exact hb) hv
      refine ⟨u, _, by rw [forceBit, hp.rowStride, hx]; exact hu, hq, fun a v => ?_⟩
      by_cases ha : a = y * s.rowStride.toNat + (s.rowStride.toNat - 1)
      · have hpm : pixelMask x = pixelMask (x - 8 * (s.rowStride.toNat - 1)) := by
          unfold pixelMask; congr 1; omega
        have hs : x + 1 - 8 * (s.rowStride.toNat - 1) = x - 8 * (s.rowStride.toNat - 1) + 1 := by omega
        simp only [ha, if_true]
        rw [hpm, hs, BitVec.or_assoc, columnBits_succ (by omega) (by omega)]
      · simp [ha])
  obtain ⟨t, ht, hp⟩ := this
  refine ⟨t, ht, hp.congr fun a v => ?_⟩
  have h8 : s.width.toNat + (s.rowStride.toNat * 8 - s.width.toNat) - 8 * (s.rowStride.toNat - 1) = 8 := by omega
  rw [h8, columnBits_all (by omega), dataMask, hm]

/-- Step 1 of the inverter (R120): every padding bit of the configured image becomes 1, no other bit changes. -/
theorem forcePadding_ok {s : State} (hw : 0 < s.width.toNat) (hr : s.rowStride.toNat = rowStrideOf s.width.toNat)
    (hl : s.byteLength.toNat = byteLengthOf s.width.toNat s.height.toNat)
    (hb : s.byteLength.toNat ≤ s.params.bufBytes.toNat) (hc : s.buf.covers s.byteLength.toNat) :
    ∃ t, forcePadding s = .ok t ∧ BufMapped s (fun a v =>
      if a < s.byteLength.toNat then v ||| ~~~dataMask s.width.toNat (a % s.rowStride.toNat) else v) t := by
  have hpos : 0 < s.rowStride.toNat := by rw [hr]; unfold rowStrideOf; omega
  have hlen : s.byteLength.toNat = s.height.toNat * s.rowStride.toNat := by rw [hl, hr]; rfl
  have hfull : ∀ j, j + 1 < s.rowStride.toNat → dataMask s.width.toNat j = 0xFF#8 := by
    intro j hj
    have : validBits s.width.toNat j = 8 := by
      unfold validBits; unfold rowStrideOf at hr; omega
    simp [dataMask, this]
  have := forRange_mapped (f := forceRowPadding) (lo := 0) (n := s.height.toNat) (s := s)
    (g := fun y a v => if a < y * s.rowStride.toNat then v ||| ~~~dataMask s.width.toNat (a % s.rowStride.toNat) else v)
    (by simp)
    (fun y t _ h2 hp => by
      have hin : y * s.rowStride.toNat + (s.rowStride.toNat - 1) < s.byteLength.toNat := by
        have : (y + 1) * s.rowStride.toNat ≤ s.height.toNat * s.rowStride.toNat := Nat.mul_le_mul_right _ (by omega)
        rw [hlen, Nat.succ_mul] at *; omega
      obtain ⟨u, hu, hq⟩ := forceRowPadding_ok (s := t) (y := y) (by rw [hp.width]; exact hw)
        (by rw [hp.width, hp.rowStride]; exact hr) (by rw [hp.params, hp.rowStride]; omega)
        (by rw [hp.rowStride]; exact hp.read_some (hc _ hin))
      refine ⟨u, _, hu, hq, fun a v => ?_⟩
      rw [hp.rowStride, hp.width, Nat.succ_mul]
      by_cases ha : a = y * s.rowStride.toNat + (s.rowStride.toNat - 1)
      · have hmod : a % s.rowStride.toNat = s.rowStride.toNat - 1 := by
          rw [ha, Nat.add_comm, Nat.add_mul_mod_self_right, Nat.mod_eq_of_lt (by omega)]
        have h1 : ¬ a < y * s.rowStride.toNat := by omega
        have h3 : a < y * s.rowStride.toNat + s.rowStride.toNat := by omega
        simp only [if_pos ha, if_neg h1, if_pos h3, hmod]
      · by_cases h1 : a < y * s.rowStride.toNat
        · have h3 : a < y * s.rowStride.toNat + s.rowStride.toNat := by omega
          simp only [if_neg ha, if_pos h1, if_pos h3]
        · by_cases h3 : a < y * s.rowStride.toNat + s.rowStride.toNat
          · have hmod : a % s.rowStride.toNat = a - y * s.rowStride.toNat := by
              have : a = (a - y * s.rowStride.toNat) + y * s.rowStride.toNat := by omega
              rw [this, Nat.add_mul_mod_self_right, Nat.mod_eq_of_lt (by omega)]; omega
            simp only [if_neg ha, if_neg h1, if_pos h3, hmod]
            rw [hfull _ (by omega)]; simp
          · simp only [if_neg ha, if_neg h1, if_neg h3])
  obtain ⟨t, ht, hp⟩ := this
  exact ⟨t, ht, hp.congr fun a v => by rw [hlen, Nat.zero_add]⟩

end Sys2Proof.Machine
end

