-- ==== Sys2Proof/Laws/PerInstr.lean ====
section
/-! SUPPORT. Per-instruction facts about the syntax: a command's word has its own opcode, so it matches its row of the
opcode table in the opcode bits (`30_encoding.md` R69, R75). -/

namespace Sys2Proof.Laws.EncodeOpcode

/-- The opcode field of the command's word is its code in the opcode map, and the word is that opcode followed by its
operand field. -/
def Statement (i : Instr) : Prop := opField (encode i) = i.op.code ∧ encode i = opWord i.op (operandField (encode i))

theorem of_opWord {i : Instr} {v : U24} (h : encode i = opWord i.op v) : Statement i := by
  unfold Statement
  rw [h]
  simp [opWord]

theorem nop : Statement .nop := of_opWord rfl
theorem setw (imm : U24) : Statement (.setw imm) := of_opWord rfl
theorem seth (imm : U24) : Statement (.seth imm) := of_opWord rfl
theorem setf (inv lb : Bool) : Statement (.setf inv lb) := of_opWord rfl
theorem nclr : Statement .nclr := of_opWord rfl
theorem nbyte (byte : Byte) : Statement (.nbyte byte) := of_opWord rfl
theorem start : Statement .start := of_opWord rfl
theorem pixel (r g b : Byte) : Statement (.pixel r g b) := of_opWord rfl
theorem thresh (r g b : Byte) : Statement (.thresh r g b) := of_opWord rfl
theorem finish : Statement .finish := of_opWord rfl
theorem abort : Statement .abort := of_opWord rfl

end Sys2Proof.Laws.EncodeOpcode
end

