-- ==== Sys2Proof/Tests/Slice0.lean ====
section
/-! SUPPORT. The model's own tests. Expected values come from `spec/95_test_vectors.md` and the worked examples of the rules
named beside each test. The `witness_` theorems of the statements stand in
Sys2Proof/Tests/Witnesses.lean. -/

namespace Sys2Proof.Machine.Test

/-! ## States the tests start from -/

/-- BUF_BYTES 64, NAME_MAX 4, HEX_CASE UPPER, after reset. -/
def base : State := State.resetWith { bufBytes := 64#32, nameMax := 4#32, hexCase := .upper }

/-- `SETW 9`, `SETH 2`, `SETF 1, 1`, and the name "T". -/
def configured : State :=
  { base with width := 9#24, height := 2#24, invert := true, lineBreak := true, nameLen := 1#32, name := [(0, 0x54#8)] }

/-- LOAD of a 9 x 2 image, at the last column of row 0. -/
def loading : State :=
  { configured with
    blockState := .load, rowStride := 2#32, byteLength := 4#32, curX := 8#24, curY := 0#24
    buf := [(0, 0xA5#8), (1, 0x00#8), (2, 0x00#8), (3, 0x00#8)] }

/-- The same with every pixel packed: B = A5 00 3C 80 of R128. -/
def loaded : State :=
  { loading with curX := 0#24, curY := 2#24, buf := [(0, 0xA5#8), (1, 0x00#8), (2, 0x3C#8), (3, 0x80#8)] }

/-- LOAD of the same image before its first pixel. -/
def started : State :=
  { loading with curX := 0#24, buf := [(0, 0x00#8), (1, 0x00#8), (2, 0x00#8), (3, 0x00#8)] }

/-- EMIT of `~DG,1,1,80` with nine of its ten bytes taken. -/
def emitting : State :=
  { base with
    blockState := .emit, width := 8#24, height := 1#24, rowStride := 1#32, byteLength := 1#32, curY := 1#24
    outCount := 9, buf := [(0, 0x80#8)]
    hostTaken := [0x7E#8, 0x44#8, 0x47#8, 0x2C#8, 0x31#8, 0x2C#8, 0x31#8, 0x2C#8, 0x38#8] }

/-- The same with no byte taken. -/
def emitting0 : State := { emitting with outCount := 0, hostTaken := [] }

/-- The string both emit. -/
def emitted : List Byte := [0x7E#8, 0x44#8, 0x47#8, 0x2C#8, 0x31#8, 0x2C#8, 0x31#8, 0x2C#8, 0x38#8, 0x30#8]

/-- ERROR with ERR_OVERRUN. -/
def failed : State := { base with blockState := .error, err := .overrun }

/-- DONE after an encode. -/
def finished : State := { emitting with blockState := .done, outCount := 10, hostTaken := emitted, hostArtifacts := [emitted] }

/-- One field of the next state. -/
def after (r : Host.Outcome State Fault Refusal) (f : State → α) : Option α := (nextState r).map f

/-- STATUS as the byte 0xES of `95_test_vectors.md`. -/
def statusOf (s : State) : Nat := (statusWord s).toNat

/-! ## Decoding: words written out from the opcode map -/

theorem test_decode_nop : decode 0x00000000#32 = .command .nop := by decide
theorem test_decode_setw : decode 0x01FFFFFF#32 = .command (.setw 16777215#24) := by decide
theorem test_decode_seth : decode 0x02000002#32 = .command (.seth 2#24) := by decide
theorem test_decode_setf_inv : decode 0x03000001#32 = .command (.setf true false) := by decide
theorem test_decode_setf_lb : decode 0x03000002#32 = .command (.setf false true) := by decide
theorem test_decode_nclr : decode 0x04000000#32 = .command .nclr := by decide
theorem test_decode_nbyte : decode 0x05000041#32 = .command (.nbyte 0x41#8) := by decide
theorem test_decode_start : decode 0x08000000#32 = .command .start := by decide
theorem test_decode_pixel : decode 0x09010203#32 = .command (.pixel 1#8 2#8 3#8) := by decide
theorem test_decode_thresh : decode 0x0AC86451#32 = .command (.thresh 200#8 100#8 81#8) := by decide
theorem test_decode_finish : decode 0x0B000000#32 = .command .finish := by decide
theorem test_decode_abort : decode 0x0F000000#32 = .command .abort := by decide

/-- `95_test_vectors.md` L2.8 and L2.9: reserved opcodes and reserved bits. -/
theorem test_decode_reserved :
    [0x06000000#32, 0x07000000#32, 0x0C000000#32, 0xFFFFFFFF#32].map decode = List.replicate 4 .reservedOpcode ∧
    [0x00000001#32, 0x03000004#32, 0x04000100#32, 0x05000100#32, 0x08000001#32, 0x0F000001#32].map decode =
      List.replicate 6 .reservedBits := by decide

theorem test_encode_words : encode (.setf true true) = 0x03000003#32 ∧ encode (.thresh 127#8 127#8 127#8) = 0x0A7F7F7F#32 ∧
    encode (.nbyte 0x74#8) = 0x05000074#32 := by decide

theorem test_table_word : decodeTableWord 32 0x09010203 = some (.pixel 1#8 2#8 3#8) ∧ decodeTableWord 32 0x06000000 = none := by
  decide

/-! ## Well-formedness: a number that does not fit is refused (R81) -/

theorem test_wf_setw : (Asm.setw 16777216).wellFormed = false ∧ (Asm.setw 16777215).wellFormed = true := by decide
theorem test_wf_seth : (Asm.seth 16777216).wellFormed = false ∧ (Asm.seth 16777215).wellFormed = true := by decide
theorem test_wf_setf : (Asm.setf 2 0).wellFormed = false ∧ (Asm.setf 0 2).wellFormed = false ∧ (Asm.setf 1 1).wellFormed = true := by
  decide
theorem test_wf_nbyte : (Asm.nbyte 256).wellFormed = false ∧ (Asm.nbyte 255).wellFormed = true := by decide
theorem test_wf_pixel : (Asm.pixel 256 0 0).wellFormed = false ∧ (Asm.pixel 0 256 0).wellFormed = false ∧
    (Asm.pixel 0 0 256).wellFormed = false ∧ (Asm.pixel 255 255 255).wellFormed = true := by decide
theorem test_wf_thresh : (Asm.thresh 256 0 0).wellFormed = false ∧ (Asm.thresh 0 256 0).wellFormed = false ∧
    (Asm.thresh 0 0 256).wellFormed = false := by decide
theorem test_wf_name : (Asm.name [65, 256]).wellFormed = false := by decide
theorem test_wf_config : (Asm.config 16777216 1 0 0).wellFormed = false ∧ (Asm.config 1 16777216 0 0).wellFormed = false ∧
    (Asm.config 1 1 2 0).wellFormed = false ∧ (Asm.config 1 1 0 2).wellFormed = false := by decide
theorem test_wf_row : (Asm.row 3 256 0 0).wellFormed = false ∧ (Asm.row 3 0 256 0).wellFormed = false ∧
    (Asm.row 3 0 0 256).wellFormed = false := by decide

/-- R81's examples as text, and an operand that does not fit. -/
theorem test_assemble_text : assembleLines ["SETW 9 ; width".toList, "SETF 1, 0".toList, "NBYTE 'A'".toList, "START".toList] =
    some [0x01000009#32, 0x03000001#32, 0x05000041#32, 0x08000000#32] ∧ assembleLine "SETW 0x1000000".toList = none := by
  decide +kernel

/-! ## Commands -/

theorem test_nop : exec .nop loading = .next loading := by rfl

theorem test_setw : after (exec (.setw 9#24) base) (·.width) = some 9#24 := by decide

theorem test_setw_in_load : after (exec (.setw 2#24) loading) (fun t => (statusOf t, t.width)) = some (0x54, 9#24) := by decide

theorem test_seth : after (exec (.seth 2#24) failed) (fun t => (statusOf t, t.height)) = some (0x34, 2#24) := by decide

theorem test_setf : after (exec (.setf false true) configured) flagsWord = some 2#32 := by decide

theorem test_nclr : after (exec .nclr configured) (fun t => (t.nameLen, t.name)) = some (0#32, configured.name) := by decide

theorem test_nbyte : after (exec (.nbyte 0x65#8) configured) (fun t => (t.nameLen, t.name)) =
    some (2#32, [(0, 0x54#8), (1, 0x65#8)]) := by decide

/-- L2.8: the name store is full. -/
theorem test_nbyte_full : after (exec (.nbyte 0x63#8) { configured with nameLen := 4#32 }) (fun t => (statusOf t, t.nameLen)) =
    some (0x84, 4#32) := by decide

/-- R110's example: 9 x 3 gives row stride 2, byte length 6 and six zero bytes. -/
theorem test_start : after (exec .start { configured with height := 3#24 })
    (fun t => (statusOf t, t.rowStride, t.byteLength, t.buf.map (·.2))) = some (0x01, 2#32, 6#32, List.replicate 6 0#8) := by
  decide

/-- L2.9: START in ERROR clears the error, then faults with its own. -/
theorem test_start_dim : after (exec .start failed) statusOf = some 0x14 := by decide

/-- The byte of column 8 is the second one, its mask 0x80, and the row ends (L2.3). -/
theorem test_pixel : after (exec (.pixel 127#8 127#8 127#8) loading) (fun t => (t.buf.map (·.2), t.curX, t.curY)) =
    some ([0xA5#8, 0x80#8, 0x00#8, 0x00#8], 0#24, 1#24) := by decide

theorem test_pixel_overrun : after (exec (.pixel 0#8 0#8 0#8) loaded) (fun t => (statusOf t, t.curY)) = some (0x34, 2#24) := by
  decide

/-- L2.1: sums 380 and 381. -/
theorem test_thresh : after (exec (.thresh 200#8 100#8 80#8) base) (fun t => readReg t 9#8) = some 0x07E#32 ∧
    after (exec (.thresh 200#8 100#8 81#8) base) (fun t => readReg t 9#8) = some 0x17F#32 := by decide

/-- R128: A5 00 3C 80 of width 9 inverts to 5A 80 C3 00. -/
theorem test_finish : after (exec .finish loaded) (fun t => (statusOf t, t.buf.map (·.2))) =
    some (0x02, [0x5A#8, 0x80#8, 0xC3#8, 0x00#8]) := by decide

theorem test_finish_underrun : after (exec .finish loading) (fun t => (statusOf t, t.buf)) = some (0x44, loading.buf) := by
  decide

theorem test_abort : after (exec .abort failed) statusOf = some 0x00 := by decide

theorem test_abort_keeps : after (exec .abort loading) (fun t => (t.curX, t.byteLength, t.buf)) =
    some (8#24, 4#32, loading.buf) := by decide

/-! ## Steps -/

theorem test_offer_then_accept :
    after (step { base with hostAgenda := [.send 0x01000009#32] }) (·.cmdPort) = some (some 0x01000009#32) ∧
    after (step { base with cmdPort := some 0x01000009#32 }) (fun t => (t.width, t.cmdPort)) = some (9#24, none) := by
  decide

theorem test_malformed_abort_dropped : after (step { failed with cmdPort := some 0x0F000001#32 }) statusOf = some 0x34 := by
  decide

theorem test_last_byte : after (step { emitting with hostAgenda := [.take] })
    (fun t => (statusOf t, t.outCount, t.hostArtifacts)) = some (0x03, 10, [emitted]) := by decide

theorem test_reset_in_emit : after (step { emitting with hostAgenda := [.reset], cmdPort := some 0#32 })
    (fun t => (statusOf t, t.outCount, outValid t, t.cmdPort)) = some (0x00, 0, false, none) := by decide

theorem test_read_in_emit : after (step { emitting with hostAgenda := [.read 0x0A#8] }) (·.hostReads) =
    some [(0x0A#8, 9#32)] := by decide

theorem test_fetch_word : after (step (State.reset.withFetchWord 32 0x01000009)) (·.width) = some 9#24 := by decide

/-! ## The functions -/

/-- R143: LF "DEAD" LF "BEEF" for row stride 2. -/
theorem test_line_break : lineBreakString 2 (hexString .upper [0xDE#8, 0xAD#8, 0xBE#8, 0xEF#8]) =
    [0x0A#8, 0x44#8, 0x45#8, 0x41#8, 0x44#8, 0x0A#8, 0x42#8, 0x45#8, 0x45#8, 0x46#8] := by decide

theorem test_dec : dec 2097152 = [0x32#8, 0x30#8, 0x39#8, 0x37#8, 0x31#8, 0x35#8, 0x32#8] := by decide +kernel

/-- P2: nine dark pixels, inverted and line-broken. -/
theorem test_encode_p2 : encodeImage .upper [0x54#8] 9 1 true true (fun _ _ => (0#8, 0#8, 0#8)) =
    [0x7E#8, 0x44#8, 0x47#8, 0x54#8, 0x2C#8, 0x32#8, 0x2C#8, 0x32#8, 0x2C#8, 0x0A#8, 0x46#8, 0x46#8, 0x38#8, 0x30#8] := by
  decide +kernel

end Sys2Proof.Machine.Test
end

