-- ==== Sys2Proof/Tests/Witnesses.lean ====
section
/-! SUPPORT. For each statement with hypotheses, a state and operands that meet all of them together, clause by clause and at
the ends of a clause's range; and the invariant as a check that evaluates, sound for `Inv`. -/

namespace Sys2Proof.Machine.Test

/-! ## The invariant as a check -/

def coversCheck (m : Memory) (n : Nat) : Bool := (List.range n).all (fun a => (m.read a).isSome)

theorem covers_of_check {m : Memory} {n : Nat} (h : coversCheck m n = true) : m.covers n := by
  intro a ha
  have := List.all_eq_true.1 h a (List.mem_range.2 ha)
  exact Option.isSome_iff_exists.1 this

def insideCheck (m : Memory) (n : Nat) : Bool := m.all (fun c => decide (c.1 < n))

theorem inside_of_check {m : Memory} {n : Nat} (h : insideCheck m n = true) : m.inside n := by
  intro c hc
  exact of_decide_eq_true (List.all_eq_true.1 h c hc)

def paddingCheck (s : State) : Bool :=
  (List.range s.height.toNat).all fun y => (List.range (s.rowStride.toNat * 8)).all fun x =>
    decide (x < s.width.toNat) || bufBit s x y == some false

theorem paddingClear_of_check {s : State} (h : paddingCheck s = true) : paddingClear s := by
  intro x y hy hx hx'
  have h1 := List.all_eq_true.1 h y (List.mem_range.2 hy)
  have h2 := List.all_eq_true.1 h1 x (List.mem_range.2 hx')
  rcases Bool.or_eq_true_iff.1 h2 with h3 | h3
  · exact absurd (of_decide_eq_true h3) (by omega)
  · exact eq_of_beq h3

def dimsCheck (s : State) : Bool :=
  decide (0 < s.width.toNat) && decide (0 < s.height.toNat) && decide (s.rowStride.toNat = rowStrideOf s.width.toNat) &&
    decide (s.byteLength.toNat = byteLengthOf s.width.toNat s.height.toNat)

theorem dims_of_check {s : State} (h : dimsCheck s = true) : DimsAgree s := by
  simp only [dimsCheck, Bool.and_eq_true, decide_eq_true_eq] at h
  exact ⟨h.1.1.1, h.1.1.2, h.1.2, h.2⟩

def encodeCheck (s : State) : Bool := outsideEncode s.blockState || (dimsCheck s && paddingCheck s)

def cursorCheck (s : State) : Bool :=
  s.blockState != .load || (decide (s.curX.toNat < s.width.toNat) && decide (s.curY.toNat < s.height.toNat)) ||
    (s.curX == 0#24 && s.curY == s.height)

def emitCheck (s : State) : Bool :=
  s.blockState != .emit ||
    match emission s with
    | .ok e => decide (s.outCount < e.length) && s.hostTaken == e.take s.outCount
    | .error _ => false

def storeCheck (s : State) : Bool :=
  s.params.valid && s.buf.wf && insideCheck s.buf s.params.bufBytes.toNat && s.name.wf &&
    insideCheck s.name s.params.nameMax.toNat && decide (s.nameLen.toNat ≤ s.params.nameMax.toNat) &&
    coversCheck s.name s.nameLen.toNat && decide (s.byteLength.toNat ≤ s.params.bufBytes.toNat) &&
    coversCheck s.buf s.byteLength.toNat

def statusCheck (s : State) : Bool :=
  ((s.err == .noError) != (s.blockState == .error)) && decide (s.hostTaken.length = s.outCount) &&
    (s.blockState != .done || s.hostArtifacts.getLast? == some s.hostTaken)

def invCheck (s : State) : Bool := storeCheck s && statusCheck s && encodeCheck s && cursorCheck s && emitCheck s

theorem outsideEncode_of_inEncode {s : State} (h : inEncode s) : outsideEncode s.blockState = false := by
  rcases h with h | h <;> rw [h] <;> rfl

/-- The check is sound: a state that passes it meets the invariant. -/
theorem inv_of_check {s : State} (h : invCheck s = true) : Inv s := by
  simp only [invCheck, storeCheck, statusCheck, encodeCheck, cursorCheck, Bool.and_eq_true, decide_eq_true_eq,
    Bool.or_eq_true] at h
  obtain ⟨⟨⟨⟨⟨⟨⟨⟨⟨⟨⟨⟨h1, h2⟩, h3⟩, h4⟩, h5⟩, h6⟩, h7⟩, h8⟩, h9⟩, ⟨h10, h11⟩, h12⟩, h13⟩, h14⟩, h15⟩ := h
  refine ⟨h1, h2, inside_of_check h3, h4, inside_of_check h5, h6, covers_of_check h7, ?_, h8, covers_of_check h9,
    fun he => ?_, fun he => ?_, fun hl => ?_, h11, fun he => ?_, fun hd => ?_⟩
  · cases he : s.err <;> cases hb : s.blockState <;> simp_all
  · rcases h13 with h13 | h13
    · rw [outsideEncode_of_inEncode he] at h13; cases h13
    · exact dims_of_check h13.1
  · rcases h13 with h13 | h13
    · rw [outsideEncode_of_inEncode he] at h13; cases h13
    · exact paddingClear_of_check h13.2
  · rcases h14 with (h14 | h14) | h14
    · simp [hl] at h14
    · exact .inl h14
    · exact .inr ⟨eq_of_beq h14.1, eq_of_beq h14.2⟩
  · simp only [emitCheck, he, bne_self_eq_false, Bool.false_or] at h15
    split at h15
    · rename_i e hem
      simp only [Bool.and_eq_true, decide_eq_true_eq] at h15
      exact ⟨e, hem, h15.1, eq_of_beq h15.2⟩
    · cases h15
  · simp only [hd, bne_self_eq_false, Bool.false_eq_true, false_or] at h12
    exact eq_of_beq h12

theorem inv_configured : Inv configured := inv_of_check (by decide)
theorem inv_loading : Inv loading := inv_of_check (by decide)
theorem inv_loaded : Inv loaded := inv_of_check (by decide)
theorem inv_started : Inv started := inv_of_check (by decide)
theorem inv_emitting : Inv emitting := inv_of_check (by decide)
theorem inv_emitting0 : Inv emitting0 := inv_of_check (by decide)
theorem inv_finished : Inv finished := inv_of_check (by decide)
theorem inv_failed : Inv failed := inv_of_check (by decide)

theorem dims_loading : DimsAgree loading := dims_of_check (by decide)
theorem dims_loaded : DimsAgree loaded := dims_of_check (by decide)
theorem dims_emitting : DimsAgree emitting := dims_of_check (by decide)

/-! ## Encoding -/

theorem witness_EncodeOfDecode : decode 0x0AC86451#32 = .command (.thresh 200#8 100#8 81#8) := by decide

/-- The first and last reserved opcodes of each run, in ERROR and out of it. -/
theorem witness_ReservedOpcodesFault :
    [0x06000000#32, 0x07FFFFFF#32, 0x0C000000#32, 0x0E000000#32, 0x10000000#32, 0xFF000000#32].map decode =
      List.replicate 6 .reservedOpcode ∧ loading.blockState ≠ .error ∧ failed.blockState = .error := by decide

/-- The lowest and highest reserved bit of each format. -/
theorem witness_ReservedBitsFault :
    [0x00000001#32, 0x00800000#32, 0x03000004#32, 0x03800000#32, 0x05000100#32, 0x05800000#32].map decode =
      List.replicate 6 .reservedBits ∧
    Op.ofCode (opField 0x00000001#32) = some .nop ∧ Op.ofCode (opField 0x03000004#32) = some .setf ∧
    Op.ofCode (opField 0x05000100#32) = some .nbyte ∧ loading.blockState ≠ .error ∧ failed.blockState = .error := by decide

theorem witness_AssemblerNeverTruncates : (Asm.setw 16777216).wellFormed = false ∧ (Asm.setw 16777215).wellFormed = true ∧
    (Asm.nbyte 256).wellFormed = false ∧ (Asm.nbyte 255).wellFormed = true ∧
    assemble (.pixel 256 0 0) = none ∧ assemble (.pixel 255 0 1) = some [0x09FF0001#32] ∧
    assemble (.setf 1 2) = none ∧ assemble (.setf 0 1) = some [0x03000002#32] ∧
    assemble (.name [65, 255]) = some [0x04000000#32, 0x05000041#32, 0x050000FF#32] ∧ assemble (.name [256]) = none ∧
    assemble (.config 9 2 2 0) = none ∧ assemble (.config 9 2 1 0) = some [0x01000009#32, 0x02000002#32, 0x03000001#32] ∧
    assemble (.row 2 1 2 3) = some [0x09010203#32, 0x09010203#32] := by decide

/-! ## Steps, ports and reset -/

theorem witness_StepRunsDecodedCommand :
    acceptedWord { configured with cmdPort := some 0x01000009#32 } = some 0x01000009#32 ∧
    (Instr.setw 9#24).wellFormed = true ∧ decode 0x01000009#32 = .command (.setw 9#24) ∧
    acceptedWord { failed with cmdPort := some 0x06000000#32 } = some 0x06000000#32 ∧ decode 0x06000000#32 = .reservedOpcode ∧
    acceptedWord { loading with cmdPort := some 0x03000004#32 } = some 0x03000004#32 ∧ decode 0x03000004#32 = .reservedBits ∧
    acceptedWord { loading with cmdPort := some 0#32, hostAgenda := [.reset] } = none ∧
    acceptedWord loading = none ∧ loading.hostAgenda = [] ∧ loading.cmdPort = none ∧
    acceptedWord { emitting with hostAgenda := [.take] } = none := by decide

/-- An offer made in EMIT with CMD free, and each action behind two offers that wait. -/
theorem witness_CommandWaitsInEmit_offers :
    (∃ s : State, s.blockState = .emit ∧ s.cmdPort = none ∧ s.hostAgenda = [.send 0#32, .take]) ∧
    (∃ s : State, s.blockState = .emit ∧ s.cmdPort = some 0#32 ∧ s.hostAgenda = [1#32, 2#32].map .send) ∧
    ∀ a : HostAction, ∃ s : State, s.blockState = .emit ∧ s.cmdPort = some 0#32 ∧
      s.hostAgenda = [1#32, 2#32].map .send ++ a :: [.send 3#32] :=
  ⟨⟨{ emitting with hostAgenda := [.send 0#32, .take] }, rfl, rfl, rfl⟩,
    ⟨{ emitting with cmdPort := some 0#32, hostAgenda := [1#32, 2#32].map .send }, rfl, rfl, rfl⟩,
    fun a => ⟨{ emitting with cmdPort := some 0#32, hostAgenda := [1#32, 2#32].map .send ++ a :: [.send 3#32] }, rfl, rfl, rfl⟩⟩

/-- A word waiting while the host takes a byte that is not the last, and one waiting while it takes the last. -/
theorem witness_CommandWaitsInEmit :
    (∃ s t : State, ∃ w : Word, s.blockState = .emit ∧ s.cmdPort = some w ∧ resetAsserted s = false ∧ step s = .next t ∧
      t.blockState = .emit) ∧
    ∃ s t : State, ∃ w : Word, s.blockState = .emit ∧ s.cmdPort = some w ∧ resetAsserted s = false ∧ step s = .next t ∧
      t.blockState = .done ∧ resetAsserted t = false :=
  ⟨⟨{ emitting0 with cmdPort := some 0#32, hostAgenda := [.take] }, _, 0#32, rfl, rfl, by decide, rfl, by decide⟩,
    ⟨{ emitting with cmdPort := some 0#32, hostAgenda := [.take] }, _, 0#32, rfl, rfl, by decide, rfl, by decide, by decide⟩⟩

/-- A word offered in LOAD at the moment of reset, and one that has waited on CMD in EMIT. -/
theorem witness_ResetTakesEffect :
    (∃ (s : State) (rest : List HostAction), s.hostAgenda = .reset :: rest ∧ s.blockState = .load ∧ s.cmdPort = some 0#32) ∧
    ∃ (s : State) (rest : List HostAction), s.hostAgenda = .reset :: rest ∧ s.blockState = .emit ∧ s.cmdPort = some 0#32 :=
  ⟨⟨{ loading with hostAgenda := [.reset], cmdPort := some 0#32 }, _, rfl, rfl, rfl⟩,
    ⟨{ emitting with hostAgenda := [.reset, .read 0#8], cmdPort := some 0#32 }, _, rfl, rfl, rfl⟩⟩

/-- Runs that are over, and hangs: with nothing to come, with reads, and with an offer behind a word that waits. -/
theorem witness_WaitingKeepsEverything : runOver finished = true ∧ runOver failed = true ∧ runOver base = true ∧
    finished.hostAgenda = [] ∧ hangs emitting = true ∧ hangs { emitting with hostAgenda := [.read 0#8] } = true ∧
    hangs { emitting with cmdPort := some 0#32, hostAgenda := [.send 0#32, .read 0#8] } = true := by decide

/-- A run over with a read, a take or a reset to come; the last byte of an emission. -/
theorem witness_EndOfRunAndHang :
    runOver { finished with hostAgenda := [.read 0#8, .take, .reset] } = true ∧
    (∃ s t : State, Inv s ∧ s.blockState = .emit ∧ step s = .next t ∧ t.blockState = .done) ∧
    (Inv failed ∧ failed.blockState = .error) ∧
    hangs { emitting with cmdPort := some 0#32, hostAgenda := [.send 0#32, .read 0#8] } = true :=
  ⟨by decide, ⟨{ emitting with hostAgenda := [.take] }, _, inv_of_check (by decide), rfl, rfl, by decide⟩, ⟨inv_failed, rfl⟩,
    by decide⟩

/-- A reset behind an offer that waits is reached (R193, R199). -/
theorem test_reset_behind_offer :
    after (step { emitting with cmdPort := some 0#32, hostAgenda := [.send 1#32, .reset] })
      (fun t => (t.blockState, t.cmdPort, t.hostAgenda)) = some (.idle, none, [.send 1#32]) := by decide

theorem witness_RegisterWords : 0x0E ≤ (0x0E#8 : Byte).toNat ∧ 0x0E ≤ (0xFF#8 : Byte).toNat := by decide

theorem witness_ReadHasNoSideEffect : ∃ s : State, s.hostAgenda = [.read 0x0A#8] ∧ acceptedWord s = none ∧ s.blockState = .emit :=
  ⟨{ emitting with hostAgenda := [.read 0x0A#8] }, rfl, by decide, rfl⟩

theorem witness_ConstantsNeverChange : ∃ s t : State, step s = .next t ∧ resetAsserted s = true :=
  ⟨{ loading with hostAgenda := [.reset] }, _, rfl, by decide⟩

/-! ## Commands -/

theorem witness_NopChangesNothing : loading.blockState ≠ .emit ∧ opField 0x00000001#32 = 0x00#8 ∧
    operandField 0x00000001#32 ≠ 0#24 ∧ operandField 0x00800000#32 ≠ 0#24 := by decide

/-- The states of the configuration commands' clauses, for SETW, SETH, SETF and NCLR. -/
theorem witness_configuration_states : base.blockState = .idle ∧ finished.blockState = .done ∧ failed.blockState = .error ∧
    loading.blockState = .load := by decide

theorem witness_SetfWritesFlags : opField 0x03000004#32 = 0x03#8 ∧ (0x03000004#32 : Word).extractLsb' 2 22 ≠ 0#22 ∧
    (0x03800000#32 : Word).extractLsb' 2 22 ≠ 0#22 := by decide

theorem witness_NclrEmptiesName : opField 0x04000100#32 = 0x04#8 ∧ operandField 0x04000100#32 ≠ 0#24 := by decide

/-- NAME_LEN at the last free index, and full: in IDLE and in ERROR. -/
theorem witness_NbyteAppends :
    (∃ s : State, s.blockState = .idle ∧ s.nameLen.toNat < s.params.nameMax.toNat ∧
      s.nameLen.toNat + 1 = s.params.nameMax.toNat) ∧
    (∃ s : State, s.blockState = .idle ∧ s.nameLen = s.params.nameMax) ∧
    (∃ s : State, s.blockState = .error ∧ s.nameLen = s.params.nameMax) ∧ loading.blockState = .load ∧
    opField 0x05000100#32 = 0x05#8 ∧ (0x05000100#32 : Word).extractLsb' 8 16 ≠ 0#16 :=
  ⟨⟨{ configured with nameLen := 3#32 }, rfl, by decide, by decide⟩, ⟨{ configured with nameLen := 4#32 }, rfl, rfl⟩,
    ⟨{ failed with nameLen := 4#32 }, rfl, rfl⟩, rfl, by decide, by decide⟩

theorem witness_AbortClearsStatus : loading.blockState ≠ .emit ∧ failed.blockState = .error ∧
    opField 0x0F000001#32 = 0x0F#8 ∧ operandField 0x0F000001#32 ≠ 0#24 := by decide

/-- START with a zero width, with one byte too many for BUF, and exactly full (65 x 2, 64 x 8 and 64 x 7 of L2.2's kind). -/
theorem witness_StartBeginsEncode :
    (∃ s : State, s.blockState = .done ∧ s.width = 0#24) ∧
    (∃ s : State, s.blockState = .error ∧ s.width ≠ 0#24 ∧ s.height ≠ 0#24 ∧
      s.params.bufBytes.toNat < s.height.toNat * ((s.width.toNat + 7) / 8)) ∧
    (∃ s : State, s.blockState = .idle ∧ s.width ≠ 0#24 ∧ s.height ≠ 0#24 ∧
      s.height.toNat * ((s.width.toNat + 7) / 8) = s.params.bufBytes.toNat) ∧ loading.blockState = .load :=
  ⟨⟨{ finished with width := 0#24 }, rfl, rfl⟩, ⟨{ failed with width := 8#24, height := 65#24 }, rfl, by decide, by decide, by decide⟩,
    ⟨{ base with width := 64#24, height := 8#24 }, rfl, by decide, by decide, by decide⟩, rfl⟩

/-- A dark and a light pixel at the sums 380 and 381, before the end of a row and at it; after the last pixel. -/
theorem witness_PixelPacksAtCursor :
    (126 + 127 + 127) / 3 < 127 ∧ 127 ≤ (127 + 127 + 127) / 3 ∧ loading.blockState = .load ∧ loading.curY ≠ loading.height ∧
    loading.curY.toNat * loading.rowStride.toNat + loading.curX.toNat / 8 < loading.params.bufBytes.toNat ∧
    loading.buf.read (loading.curY.toNat * loading.rowStride.toNat + loading.curX.toNat / 8) = some 0x00#8 ∧
    loading.width.toNat ≤ loading.curX.toNat + 1 ∧
    (7#24 : U24).toNat + 1 < loading.width.toNat ∧ loaded.blockState = .load ∧ loaded.curY = loaded.height := by decide

theorem witness_FinishBeginsEmission :
    (∃ s : State, s.blockState = .load ∧ s.curY = s.height ∧ s.invert = false) ∧
    (loaded.blockState = .load ∧ loaded.curY = loaded.height ∧ loaded.invert = true ∧ DimsAgree loaded ∧
      loaded.byteLength.toNat ≤ loaded.params.bufBytes.toNat ∧ loaded.buf.covers loaded.byteLength.toNat) ∧
    loading.blockState = .load ∧ loading.curY ≠ loading.height :=
  ⟨⟨{ loaded with invert := false }, rfl, rfl, rfl⟩,
    ⟨rfl, rfl, rfl, dims_loaded, by decide, covers_of_check (by decide)⟩, rfl, by decide⟩

/-! ## Legality and faults -/

theorem witness_LegalityTable : loading.blockState ≠ .emit ∧ legal (Instr.start).op loading.blockState = false ∧
    legal (Instr.finish).op failed.blockState = false ∧ emitting.blockState = .emit := by decide

/-- A command that faults out of ERROR, and START's own fault in ERROR. -/
theorem witness_FaultEntryWritesOnlyStatus :
    (∃ s t : State, ∃ w : Word, s.blockState ≠ .error ∧ accept w s = .next t ∧ t.blockState = .error) ∧
    ∃ s t : State, s.blockState = .error ∧ exec .start s = .next t ∧ t.blockState = .error :=
  ⟨⟨loaded, _, 0x09000000#32, by decide, rfl, by decide⟩, ⟨failed, _, rfl, rfl, by decide⟩⟩

/-- In ERROR: a dropped command, and one that runs. -/
theorem witness_FirstErrorSticky :
    (∃ t : State, failed.blockState = .error ∧ accept 0x0B000000#32 failed = .next t ∧
      decode 0x0B000000#32 ≠ .command .start ∧ decode 0x0B000000#32 ≠ .command .abort ∧
      decode 0x0B000000#32 = .command .finish ∧ legal (Instr.finish).op .error = false) ∧
    ∃ t : State, accept 0x01000008#32 failed = .next t ∧ decode 0x01000008#32 = .command (.setw 8#24) ∧ t.width = 8#24 :=
  ⟨⟨_, rfl, rfl, by decide, by decide, by decide, rfl⟩, ⟨_, rfl, by decide, by decide⟩⟩

theorem witness_ErrorLeftOnlyByStartAbortReset :
    (∃ s t : State, s.blockState = .error ∧ step s = .next t ∧ t.blockState = .idle ∧ acceptedWord s = some (encode .abort)) ∧
    (∃ s t : State, s.blockState = .error ∧ step s = .next t ∧ t.blockState = .load ∧ acceptedWord s = some (encode .start)) ∧
    ∃ s t : State, s.blockState = .error ∧ step s = .next t ∧ t.blockState = .idle ∧ resetAsserted s = true :=
  ⟨⟨{ failed with cmdPort := some 0x0F000000#32 }, _, rfl, rfl, by decide, by decide⟩,
    ⟨{ failed with cmdPort := some 0x08000000#32, width := 9#24, height := 1#24 }, _, rfl, rfl, by decide, by decide⟩,
    ⟨{ failed with hostAgenda := [.reset] }, _, rfl, rfl, by decide, by decide⟩⟩

/-- A fault of each rank: reserved opcode, reserved bit, sequence, own check (SETF with bit 2 in LOAD is R181's example). -/
theorem witness_FaultPriority :
    [0x06000000#32, 0x03000004#32, 0x08000000#32].map (fun w => after (accept w loading) (fun t => (t.blockState, t.err))) =
      [some (.error, .opcode), some (.error, .reserved), some (.error, .sequence)] ∧
    after (accept 0x09000000#32 loaded) (fun t => (t.blockState, t.err)) = some (.error, .overrun) ∧
    after (accept 0x08000000#32 base) (fun t => (t.blockState, t.err)) = some (.error, .dim) ∧
    loading.blockState ≠ .error ∧ loading.blockState ≠ .emit := by decide

/-- A step of each kind that changes the block state. -/
theorem witness_StateTransitions :
    after (step { emitting with hostAgenda := [.reset] }) (·.blockState) = some .idle ∧
    after (step { configured with cmdPort := some 0x08000000#32 }) (·.blockState) = some .load ∧
    after (step { loaded with cmdPort := some 0x0B000000#32 }) (·.blockState) = some .emit ∧
    after (step { loading with cmdPort := some 0x0F000000#32 }) (·.blockState) = some .idle ∧
    after (step { loading with cmdPort := some 0x0B000000#32 }) (·.blockState) = some .error ∧
    after (step { emitting with hostAgenda := [.take] }) (·.blockState) = some .done := by decide

/-! ## The encode -/

theorem witness_ConfigurationFrozenDuringEncode :
    (∃ s t : State, inEncode s ∧ resetAsserted s = false ∧ step s = .next t ∧ s.cmdPort = some 0x01000005#32) ∧
    (Instr.setw 5#24).op ∈ [Op.setw, .seth, .setf, .nclr, .nbyte] ∧ loading.blockState = .load ∧ emitting.blockState = .emit :=
  ⟨⟨{ loading with cmdPort := some 0x01000005#32 }, _, .inl rfl, by decide, rfl, rfl⟩, by decide, rfl, rfl⟩

theorem witness_EmissionFixedInEmit : ∃ s t : State, s.blockState = .emit ∧ resetAsserted s = false ∧ step s = .next t ∧
    t.outCount = 1 :=
  ⟨{ emitting0 with hostAgenda := [.take] }, _, rfl, by decide, rfl, by decide⟩

/-- A byte that is not the last, and the last. -/
theorem witness_OutputStepTakesNextByte :
    (∃ s : State, s.blockState = .emit ∧ emission s = .ok emitted ∧ emitted[s.outCount]? = some 0x7E#8 ∧
      s.hostAgenda = [.take] ∧ s.outCount + 1 ≠ emitted.length) ∧
    (∃ s : State, s.blockState = .emit ∧ emission s = .ok emitted ∧ emitted[s.outCount]? = some 0x30#8 ∧
      s.hostAgenda = [.take] ∧ s.outCount + 1 = emitted.length) ∧ loading.blockState ≠ .emit :=
  ⟨⟨{ emitting0 with hostAgenda := [.take] }, rfl, rfl, rfl, rfl, by decide⟩,
    ⟨{ emitting with hostAgenda := [.take] }, rfl, rfl, rfl, rfl, by decide⟩, by decide⟩

theorem witness_HostRecordsTakenBytes :
    (∃ s t : State, s.blockState = .emit ∧ emission s = .ok emitted ∧ emitted[s.outCount]? = some 0x30#8 ∧
      s.hostAgenda = [.take] ∧ step s = .next t ∧ t.hostArtifacts = [emitted]) ∧
    (∃ s t : State, s.blockState = .done ∧ exec .start s = .next t ∧ t.blockState = .load) ∧
    ∃ s t : State, s.blockState = .load ∧ exec .finish s = .next t ∧ t.blockState = .emit :=
  ⟨⟨{ emitting with hostAgenda := [.take] }, _, rfl, rfl, rfl, rfl, rfl, by decide⟩, ⟨finished, _, rfl, rfl, rfl⟩,
    ⟨loaded, _, rfl, rfl, rfl⟩⟩

theorem witness_OnlyWholeArtifacts :
    (∃ s t : State, s.blockState ≠ .emit ∧ step s = .next t ∧ s.cmdPort = some 0x0B000000#32) ∧
    ∃ s t : State, Inv s ∧ s.blockState = .emit ∧ step s = .next t ∧ t.hostArtifacts = [emitted] :=
  ⟨⟨{ loaded with cmdPort := some 0x0B000000#32 }, _, by decide, rfl, rfl⟩,
    ⟨{ emitting with hostAgenda := [.take] }, _, inv_of_check (by decide), rfl, rfl, by decide⟩⟩

theorem witness_DrainTakesWholeArtifact : ∃ s : State, s.blockState = .emit ∧ emission s = .ok emitted ∧
    s.outCount < emitted.length ∧ s.hostTaken = emitted.take s.outCount ∧
    s.hostAgenda = List.replicate (emitted.length - s.outCount) .take ++ [.read 0#8] ∧ s.outCount = 0 :=
  ⟨{ emitting0 with hostAgenda := List.replicate 10 .take ++ [.read 0#8] }, rfl, rfl, by decide, rfl, rfl, rfl⟩

theorem witness_PackedBufferClosedForm : started.blockState = .load ∧ DimsAgree started ∧
    started.byteLength.toNat ≤ started.params.bufBytes.toNat ∧ started.curX = 0#24 ∧ started.curY = 0#24 ∧
    ∀ a, a < started.byteLength.toNat → started.buf.read a = some 0x00#8 :=
  ⟨rfl, dims_of_check (by decide), by decide, rfl, rfl, by decide⟩

/-- A light PIXEL on the cursor's byte, and on another. -/
theorem witness_BitsOnlySetDuringLoad : ∃ s t : State, s.blockState = .load ∧ resetAsserted s = false ∧ step s = .next t ∧
    t.blockState ≠ .emit ∧ s.buf.read 1 = some 0x00#8 ∧ t.buf.read 1 = some 0x80#8 ∧ s.buf.read 0 = some 0xA5#8 :=
  ⟨{ loading with cmdPort := some 0x09FFFFFF#32 }, _, rfl, by decide, rfl, by decide, rfl, by decide, rfl⟩

/-- Column 8 of a 9-wide row shares its byte with column 15 and not its bit; the first and last columns of an extent. -/
theorem witness_PixelsHaveDisjointBits : 8 < 2 * 8 ∧ 15 < 2 * 8 ∧ pixelAddr 2 8 1 = pixelAddr 2 15 1 ∧
    pixelMask 8 &&& pixelMask 8 ≠ 0x00#8 ∧ pixelMask 8 &&& pixelMask 15 = 0x00#8 ∧ pixelAddr 2 15 1 < 2 * 2 := by decide

theorem witness_PixelOrderImmaterial : ∃ t u : State, started.buf.wf = true ∧ setPixelBit 0 0 started = .ok t ∧
    setPixelBit 8 1 t = .ok u :=
  ⟨_, _, by decide, rfl, rfl⟩

/-- The last row of R128: width 9, padding not clear. -/
theorem witness_InvertClosedForm : ∃ s : State, DimsAgree s ∧ s.byteLength.toNat ≤ s.params.bufBytes.toNat ∧
    s.buf.covers s.byteLength.toNat ∧ s.buf.read 1 = some 0x7F#8 :=
  ⟨{ loaded with height := 1#24, byteLength := 2#32, buf := [(0, 0x12#8), (1, 0x7F#8)] }, dims_of_check (by decide), by decide,
    covers_of_check (by decide), rfl⟩

theorem witness_InvertTwice : ∃ t u : State, DimsAgree loaded ∧ loaded.byteLength.toNat ≤ loaded.params.bufBytes.toNat ∧
    loaded.buf.covers loaded.byteLength.toNat ∧ invertBuf loaded = .ok t ∧ invertBuf t = .ok u ∧ paddingClear loaded :=
  ⟨_, _, dims_loaded, by decide, covers_of_check (by decide), rfl, rfl, paddingClear_of_check (by decide)⟩

/-- Two blocks with one build and configuration: one fresh, one with an old buffer, cursor and error. -/
theorem witness_NoCarryOverBetweenEncodes : ∃ s₁ s₂ : State, Inv s₁ ∧ Inv s₂ ∧ s₁.params = s₂.params ∧ sameConfig s₁ s₂ ∧
    outsideEncode s₁.blockState = true ∧ outsideEncode s₂.blockState = true ∧ s₁.buf ≠ s₂.buf :=
  ⟨configured, { loaded with blockState := .error, err := .overrun }, inv_configured, inv_of_check (by decide), rfl,
    ⟨rfl, rfl, rfl, rfl, rfl, rfl⟩, rfl, rfl, by decide⟩

/-- The agenda of one encode on a block whose BUF it exactly fills, from DONE. -/
theorem witness_EncodeEmitsExactly : ∃ s : State, Inv s ∧ outsideEncode s.blockState = true ∧ s.cmdPort = none ∧
    s.hostAgenda = encodeAgenda s.params.hexCase [0x54#8, 0x55#8, 0x56#8, 0x57#8] 9#24 1#24 true true
      (fun _ _ => (255#8, 255#8, 255#8)) ++ [] ∧ (9#24 : U24) ≠ 0#24 ∧ (1#24 : U24) ≠ 0#24 ∧
    byteLengthOf (9#24 : U24).toNat (1#24 : U24).toNat ≤ s.params.bufBytes.toNat ∧
    [0x54#8, 0x55#8, 0x56#8, 0x57#8].length ≤ s.params.nameMax.toNat :=
  ⟨{ finished with
      params := { bufBytes := 2#32, nameMax := 4#32, hexCase := .upper }
      hostAgenda := encodeAgenda .upper [0x54#8, 0x55#8, 0x56#8, 0x57#8] 9#24 1#24 true true
        (fun _ _ => (255#8, 255#8, 255#8)) ++ [] },
    inv_of_check (by decide), rfl, rfl, rfl, by decide, by decide, by decide, by decide⟩

/-- A zero height, and an image one byte too large with a read to come after it. -/
theorem witness_EncodeThatDoesNotFitEndsInError :
    (∃ s : State, Inv s ∧ outsideEncode s.blockState = true ∧ s.cmdPort = none ∧
      s.hostAgenda = sendAll (encodeCommands [] 3#24 0#24 false false (fun _ _ => (0#8, 0#8, 0#8))) ++ []) ∧
    ∃ s : State, Inv s ∧ outsideEncode s.blockState = true ∧ s.cmdPort = none ∧
      s.hostAgenda = sendAll (encodeCommands [] 9#24 1#24 false false (fun _ _ => (0#8, 0#8, 0#8))) ++ [.read 0#8] ∧
      [HostAction.read 0#8].head? ≠ some .reset ∧
      s.params.bufBytes.toNat < byteLengthOf (9#24 : U24).toNat (1#24 : U24).toNat :=
  ⟨⟨{ failed with hostAgenda := sendAll (encodeCommands [] 3#24 0#24 false false (fun _ _ => (0#8, 0#8, 0#8))) ++ [] },
      inv_of_check (by decide), rfl, rfl, rfl⟩,
    ⟨{ base with
        params := { bufBytes := 1#32, nameMax := 1#32, hexCase := .lower }
        hostAgenda := sendAll (encodeCommands [] 9#24 1#24 false false (fun _ _ => (0#8, 0#8, 0#8))) ++ [.read 0#8] },
      inv_of_check (by decide), rfl, rfl, rfl, by decide, by decide⟩⟩

/-! ## The functions of the sub-units -/

theorem witness_ThresholdBoundary : (255 + 126 + 0 : Nat) = 0 + 126 + 255 ∧ light 127#8 127#8 127#8 = true ∧
    light 128#8 127#8 127#8 = true ∧ light 126#8 127#8 127#8 = false := by decide

theorem witness_RowStrideIsCeiling : 0 < 1 ∧ 1 < 2 ^ 24 ∧ 0 < 16777215 ∧ 16777215 < 2 ^ 24 := by decide

theorem witness_HexCharacters : [0xA5#8, 0x05#8][(3 : Nat) / 2]? = some 0x05#8 ∧ [0xA5#8, 0x05#8][(0 : Nat) / 2]? = some 0xA5#8 := by
  decide

theorem witness_HexDigitAlphabet : (9#4).toNat < 10 ∧ 10 ≤ (10#4).toNat ∧ 10 ≤ (15#4).toNat := by decide

theorem witness_LineBreakBeforeEachRow : 0 < 2 ∧ [0xDE#8, 0xAD#8, 0xBE#8, 0xEF#8].length = 2 * 2 := by decide

theorem witness_DecimalIsShortest : 1 ≤ 1 ∧ dec 1 = [0x31#8] := by decide

/-- Without line breaks, and with them at the first and last character of a row. -/
theorem witness_EmissionLayout :
    (DimsAgree emitting ∧ emission emitting = .ok emitted ∧ emitting.lineBreak = false ∧ 1 < 2 * emitting.byteLength.toNat ∧
      emitting.buf.read (1 / 2) = some 0x80#8) ∧
    ∃ s e, DimsAgree s ∧ emission s = .ok e ∧ s.lineBreak = true ∧ 1 < s.height.toNat ∧ 1 ≤ s.rowStride.toNat * 2 ∧
      s.buf.read ((1 * (s.rowStride.toNat * 2) + (s.rowStride.toNat * 2 - 1)) / 2) = some 0x80#8 :=
  ⟨⟨dims_emitting, rfl, rfl, by decide, rfl⟩, ⟨loaded, _, dims_loaded, rfl, rfl, by decide, by decide, rfl⟩⟩

/-! ## The invariant -/

theorem witness_InvariantAtReset : Params.valid { bufBytes := 1#32, nameMax := 1#32, hexCase := .lower } = true ∧
    Params.valid { bufBytes := 4294967295#32, nameMax := 4294967295#32, hexCase := .upper } = true := by decide

/-- A step of a light PIXEL, of FINISH with inversion, and of the last byte. -/
theorem witness_StepKeepsInvariant :
    (∃ s t : State, Inv s ∧ step s = .next t ∧ s.cmdPort = some 0x09FFFFFF#32) ∧
    (∃ s t : State, Inv s ∧ step s = .next t ∧ s.cmdPort = some 0x0B000000#32 ∧ t.blockState = .emit) ∧
    ∃ s t : State, Inv s ∧ step s = .next t ∧ t.blockState = .done :=
  ⟨⟨{ loading with cmdPort := some 0x09FFFFFF#32 }, _, inv_of_check (by decide), rfl, rfl⟩,
    ⟨{ loaded with cmdPort := some 0x0B000000#32 }, _, inv_of_check (by decide), rfl, rfl, by decide⟩,
    ⟨{ emitting with hostAgenda := [.take] }, _, inv_of_check (by decide), rfl, by decide⟩⟩

theorem witness_InvariantNeverStops : ∃ s : State, Inv s ∧ s.blockState = .emit ∧ s.hostAgenda = [.take] :=
  ⟨{ emitting with hostAgenda := [.take] }, inv_of_check (by decide), rfl, rfl⟩

end Sys2Proof.Machine.Test
end

/-! PROOFS. The laws of memories in canonical form, of pixels' addresses and masks, and of bits of BUF. -/

namespace Sys2Proof.Machine

/-! ## Memories in canonical form -/

/-- In the canonical form the cells after the first lie above it. -/
theorem Memory.read_tail_eq_none {b a : Nat} {v : Byte} {m : Memory} (h : Memory.wf ((b, v) :: m) = true) (ha : a ≤ b) :
    m.read a = none := by
  induction m generalizing b v with
  | nil => rfl
  | cons c m ih =>
    obtain ⟨d, u⟩ := c
    obtain ⟨hhead, hm⟩ := (Memory.wf_cons b v _).1 h
    have hbd : b < d := hhead (d, u) rfl
    rw [Memory.read_cons, if_neg (by omega), ih hm (by omega)]

/-- A memory in canonical form is what its addresses read. -/
theorem Memory.ext_of_wf {m n : Memory} (hm : m.wf = true) (hn : n.wf = true) (h : ∀ a, m.read a = n.read a) : m = n := by
  induction m generalizing n with
  | nil =>
    cases n with
    | nil => rfl
    | cons d n => obtain ⟨b, v⟩ := d; simpa [Memory.read_cons] using h b
  | cons c m ih =>
    obtain ⟨b, v⟩ := c
    cases n with
    | nil => simpa [Memory.read_cons] using h b
    | cons d n =>
      obtain ⟨d, u⟩ := d
      have hbd : b = d := by
        rcases Nat.lt_trichotomy b d with hlt | heq | hgt
        · have hb := h b
          rw [Memory.read_cons, if_pos rfl, Memory.read_cons, if_neg (by omega),
            Memory.read_tail_eq_none hn (by omega)] at hb
          cases hb
        · exact heq
        · have hd := h d
          rw [Memory.read_cons, if_neg (by omega), Memory.read_tail_eq_none hm (by omega), Memory.read_cons,
            if_pos rfl] at hd
          cases hd
      subst hbd
      have hvu : v = u := by simpa [Memory.read_cons] using h b
      have htail : ∀ a, Memory.read m a = Memory.read n a := by
        intro a
        by_cases hab : a = b
        · rw [Memory.read_tail_eq_none hm (by omega), Memory.read_tail_eq_none hn (by omega)]
        · simpa [Memory.read_cons, hab] using h a
      rw [hvu, ih ((Memory.wf_cons _ _ _).1 hm).2 ((Memory.wf_cons _ _ _).1 hn).2 htail]

/-- Writes to two addresses commute. -/
theorem Memory.write_comm {m : Memory} (h : m.wf = true) {a b : Nat} (hab : a ≠ b) (u v : Byte) :
    (m.write a u).write b v = (m.write b v).write a u := by
  refine Memory.ext_of_wf (Memory.wf_write (Memory.wf_write h a u) b v) (Memory.wf_write (Memory.wf_write h b v) a u)
    fun c => ?_
  simp only [Memory.read_write]
  by_cases hca : c = a
  · simp [hca, hab]
  · simp [hca]

/-- The second of two writes to one address is the one that stays. -/
theorem Memory.write_write {m : Memory} (h : m.wf = true) (a : Nat) (u v : Byte) :
    (m.write a u).write a v = m.write a v := by
  refine Memory.ext_of_wf (Memory.wf_write (Memory.wf_write h a u) a v) (Memory.wf_write h a v) fun c => ?_
  simp only [Memory.read_write]
  by_cases hca : c = a <;> simp [hca]

/-! ## Read-modify-writes -/

/-- Two read-modify-writes of BUF by commuting functions commute (R57). -/
theorem memModify_comm {s t u : State} {a b : Nat} {f g : Byte → Byte} (hwf : s.buf.wf = true)
    (hfg : ∀ v, f (g v) = g (f v)) (ht : memModify s a f = .ok t) (hu : memModify t b g = .ok u) :
    ∃ t', memModify s b g = .ok t' ∧ memModify t' a f = .ok u := by
  obtain ⟨v, ha, hv, rfl⟩ := memModify_ok_iff.1 ht
  obtain ⟨w, hb, hw, rfl⟩ := memModify_ok_iff.1 hu
  rw [State.withBuf_buf] at hw
  by_cases hab : b = a
  · subst hab
    rw [Memory.read_write_same] at hw
    obtain rfl : f v = w := Option.some.inj hw
    refine ⟨_, memModify_ok_iff.2 ⟨v, hb, hv, rfl⟩, memModify_ok_iff.2 ⟨g v, ha, by simp, ?_⟩⟩
    simp [Memory.write_write hwf, hfg]
  · rw [Memory.read_write_other _ _ hab] at hw
    refine ⟨_, memModify_ok_iff.2 ⟨w, hb, hw, rfl⟩,
      memModify_ok_iff.2 ⟨v, ha, by rw [State.withBuf_buf, Memory.read_write_other _ _ (Ne.symm hab), hv], ?_⟩⟩
    simp [Memory.write_comm hwf hab]

/-! ## Pixels' addresses and masks -/

/-- The byte column of a pixel's address (R50). -/
theorem pixelAddr_mod {rs x : Nat} (hx : x < rs * 8) (y : Nat) : pixelAddr rs x y % rs = x / 8 := by
  rw [pixelAddr, Nat.add_comm, Nat.add_mul_mod_self_right, Nat.mod_eq_of_lt (by omega)]

/-- Every column of the padded raster lies in the encode's extent (R50, R53). -/
theorem pixelAddr_lt {rs h x y : Nat} (hx : x < rs * 8) (hy : y < h) : pixelAddr rs x y < h * rs := by
  have hrow : (y + 1) * rs ≤ h * rs := Nat.mul_le_mul_right rs hy
  rw [Nat.succ_mul] at hrow
  rw [pixelAddr]
  omega

/-- Columns of one byte with different bit positions have no bit in common (R51). -/
theorem pixelMask_and_eq_zero {x x' : Nat} (h : x % 8 ≠ x' % 8) : pixelMask x &&& pixelMask x' = 0x00#8 := by
  have hall : ∀ p q : Fin 8, p ≠ q → (0x80#8 >>> p.val) &&& (0x80#8 >>> q.val) = 0x00#8 := by decide
  exact hall ⟨x % 8, Nat.mod_lt _ (by omega)⟩ ⟨x' % 8, Nat.mod_lt _ (by omega)⟩ fun he => h (congrArg Fin.val he)

/-- A padding column's bit is none of its byte's data bits (R54, R123). -/
theorem dataMask_and_pixelMask {w x : Nat} (h : w ≤ x) : dataMask w (x / 8) &&& pixelMask x = 0x00#8 := by
  have hall : ∀ p q : Fin 8, p ≤ q → (0xFF#8 <<< (8 - p.val)) &&& (0x80#8 >>> q.val) = 0x00#8 := by decide
  have hbits : validBits w (x / 8) ≤ x % 8 := by unfold validBits; omega
  exact hall ⟨validBits w (x / 8), by omega⟩ ⟨x % 8, by omega⟩ hbits

/-! ## Bits of BUF -/

theorem bufBit_eq_false_iff {s : State} {x y : Nat} :
    bufBit s x y = some false ↔
      ∃ v, s.buf.read (pixelAddr s.rowStride.toNat x y) = some v ∧ v &&& pixelMask x = 0x00#8 := by
  simp [bufBit, Option.map_eq_some_iff]

/-- Setting the bit of a column of the image leaves the padding clear (R105, R109). -/
theorem paddingClear_setBit {s : State} {x y : Nat} {v : Byte} (hp : paddingClear s)
    (hrs : s.rowStride.toNat = rowStrideOf s.width.toNat) (hx : x < s.width.toNat)
    (hv : s.buf.read (pixelAddr s.rowStride.toNat x y) = some v) :
    paddingClear (s.withBuf (s.buf.write (pixelAddr s.rowStride.toNat x y) (v ||| pixelMask x))) := by
  intro x' y' hy' hwx' hx'
  simp only [State.withBuf_height, State.withBuf_width, State.withBuf_rowStride] at hy' hwx' hx'
  obtain ⟨v', hv', hclear⟩ := bufBit_eq_false_iff.1 (hp x' y' hy' hwx' hx')
  rw [bufBit_eq_false_iff, State.withBuf_buf, State.withBuf_rowStride, Memory.read_write]
  by_cases ha : pixelAddr s.rowStride.toNat x' y' = pixelAddr s.rowStride.toNat x y
  · obtain rfl : v' = v := by rw [ha, hv] at hv'; exact (Option.some.inj hv').symm
    have hcol : x' / 8 = x / 8 := by
      rw [← pixelAddr_mod hx' y', ha, pixelAddr_mod (by rw [hrs, rowStrideOf]; omega) y]
    refine ⟨v' ||| pixelMask x, if_pos ha, ?_⟩
    rw [BitVec.and_comm, BitVec.and_or_distrib_left, BitVec.and_comm, hclear,
      pixelMask_and_eq_zero (by omega), BitVec.or_zero]
  · exact ⟨v', by rw [if_neg ha, hv'], hclear⟩

end Sys2Proof.Machine

/-! PROOFS. The inverter's two loops as one, and what each command and each step leaves unchanged. -/

namespace Sys2Proof.Machine

/-! ## The inverter -/

/-- The inverter's two loops together, on any buffer of the configured image (R119, R123). -/
theorem invertBuf_ok {s : State} (hd : DimsAgree s) (hb : s.byteLength.toNat ≤ s.params.bufBytes.toNat)
    (hc : s.buf.covers s.byteLength.toNat) :
    ∃ t, invertBuf s = .ok t ∧
      BufMapped s (fun a v => if a < s.byteLength.toNat then invertedByte s.width.toNat a v else v) t := by
  obtain ⟨t, ht, hpad⟩ := forcePadding_ok hd.widthPos hd.rowStrideIs hd.byteLengthIs hb hc
  obtain ⟨u, hu, hflip⟩ := flipAll_ok (s := t) (by rw [hpad.byteLength, hpad.params]; exact hb)
    (fun a ha => hpad.read_some (hc a (hpad.byteLength ▸ ha)))
  refine ⟨u, by rw [invertBuf, ht]; exact hu, (hpad.trans hflip).congr fun a v => ?_⟩
  rw [hpad.byteLength]
  by_cases ha : a < s.byteLength.toNat
  · have hbits : ∀ d : Byte, (v ||| ~~~d) ^^^ 0xFF#8 = ~~~v &&& d := fun d => by
      rw [show 0xFF#8 = BitVec.allOnes 8 from rfl, BitVec.xor_allOnes, BitVec.not_or, BitVec.not_not]
    simp only [if_pos ha, invertedByte, ← hd.rowStrideIs, hbits]
  · simp only [if_neg ha]

/-- A loop whose body changes BUF alone changes BUF alone. -/
theorem forRange_frame {f : Nat → State → Except Fault State} {lo n : Nat} {s t : State}
    (hf : ∀ i u v, f i u = .ok v → v = u.withBuf v.buf) (h : forRange f lo n s = .ok t) : t = s.withBuf t.buf :=
  forRange_keeps (P := fun u => u = s.withBuf u.buf)
    (fun i u v _ _ hu hv => by rw [hf i u v hv, hu]; rfl) rfl h

theorem memModify_frame {s t : State} {a : Nat} {f : Byte → Byte} (h : memModify s a f = .ok t) :
    t = s.withBuf t.buf := by
  obtain ⟨_, _, _, rfl⟩ := memModify_ok_iff.1 h
  rfl

/-- The inverter changes BUF alone, whatever the state (R119). -/
theorem invertBuf_frame {s t : State} (h : invertBuf s = .ok t) : t = s.withBuf t.buf := by
  unfold invertBuf at h
  split at h
  · rename_i p hp
    have hpad : p = s.withBuf p.buf :=
      forRange_frame (fun _ _ _ hrow => forRange_frame (fun _ _ _ hbit => memModify_frame hbit) hrow) hp
    have hflip : t = p.withBuf t.buf := forRange_frame (fun _ _ _ hbyte => memModify_frame hbyte) h
    rw [hflip, hpad]
    rfl
  · cases h

/-- The inverter leaves the padding of the configured image clear (R122). -/
theorem paddingClear_of_inverted {s t : State} (hd : DimsAgree s) (hc : s.buf.covers s.byteLength.toNat)
    (ht : BufMapped s (fun a v => if a < s.byteLength.toNat then invertedByte s.width.toNat a v else v) t) :
    paddingClear t := by
  intro x y hy hwx hx
  have hheight : t.height = s.height := by rw [ht.rest]; rfl
  rw [ht.rowStride] at hx
  rw [ht.width] at hwx
  rw [hheight] at hy
  have hlt : pixelAddr s.rowStride.toNat x y < s.byteLength.toNat := by
    rw [hd.byteLengthIs, byteLengthOf, ← hd.rowStrideIs]
    exact pixelAddr_lt hx hy
  obtain ⟨v, hv⟩ := hc _ hlt
  refine bufBit_eq_false_iff.2 ⟨_, by rw [ht.rowStride, ht.bytes, hv]; rfl, ?_⟩
  simp only [if_pos hlt]
  rw [invertedByte, ← hd.rowStrideIs, pixelAddr_mod hx, BitVec.and_assoc, dataMask_and_pixelMask hwx,
    BitVec.and_zero]

/-! ## What each command's own effect leaves unchanged -/

/-- A fault changes STATUS only (R173). -/
theorem raiseFault_frame (c : ErrCode) (s : State) :
    raiseFault c s = { s with blockState := (raiseFault c s).blockState, err := (raiseFault c s).err } := by
  obtain ⟨e, he⟩ := raiseFault_eq_withStatus c s
  rw [he]
  rfl

/-- NBYTE changes STATUS or the name, nothing else (R166, R180). -/
theorem appendName_frame {b : Byte} {s t : State} (h : appendName b s = .next t) :
    t = { s with blockState := t.blockState, err := t.err, name := t.name, nameLen := t.nameLen } := by
  rcases appendName_next h with ⟨_, rfl⟩ | ⟨_, _, rfl⟩
  · rw [raiseFault_frame]
  · rfl

/-- START changes STATUS, the derived registers, the cursor, OUT_COUNT, BUF and the host's bytes, nothing else (R110). -/
theorem startEncode_frame {s t : State} (h : startEncode (clearError s) = .next t) :
    t = { s with blockState := t.blockState, err := t.err, rowStride := t.rowStride, byteLength := t.byteLength,
                 curX := t.curX, curY := t.curY, outCount := t.outCount, buf := t.buf, hostTaken := t.hostTaken } := by
  rcases startEncode_cases s with ⟨_, he⟩ | ⟨_, _, _, he⟩ | ⟨_, _, _, m, he, _⟩ <;> rw [he] at h <;> cases h <;> rfl

/-- PIXEL changes STATUS, BUF and the cursor, nothing else (R112). -/
theorem packPixel_frame {r g b : Byte} {s t : State} (h : packPixel r g b s = .next t) :
    t = { s with blockState := t.blockState, err := t.err, buf := t.buf, curX := t.curX, curY := t.curY } := by
  rcases packPixel_next h with ⟨_, rfl⟩ | ⟨_, _, rfl⟩ | ⟨_, _, v, _, _, rfl⟩
  · rw [raiseFault_frame]
  · rw [advanceCursor_eq]; rfl
  · rw [advanceCursor_eq]; rfl

/-- FINISH changes STATUS, BUF, OUT_COUNT and the host's bytes, nothing else (R149). -/
theorem finishEncode_frame {s t : State} (h : finishEncode s = .next t) :
    t = { s with blockState := t.blockState, err := t.err, buf := t.buf, outCount := t.outCount,
                 hostTaken := t.hostTaken } := by
  rcases finishEncode_next h with ⟨_, rfl⟩ | ⟨_, _, rfl⟩ | ⟨_, _, u, hu, rfl⟩
  · rw [raiseFault_frame]
  · rfl
  · rw [invertBuf_frame hu]; rfl

/-- No command writes the build parameters, the agenda, the artifacts or the reads. -/
theorem effect_frame {i : Instr} {s t : State} (h : effect i s = .next t) :
    t.params = s.params ∧ t.hostAgenda = s.hostAgenda ∧ t.hostArtifacts = s.hostArtifacts ∧ t.hostReads = s.hostReads := by
  cases i with
  | nbyte b => rw [appendName_frame h]; exact ⟨rfl, rfl, rfl, rfl⟩
  | start => rw [startEncode_frame h]; exact ⟨rfl, rfl, rfl, rfl⟩
  | pixel r g b => rw [packPixel_frame h]; exact ⟨rfl, rfl, rfl, rfl⟩
  | finish => rw [finishEncode_frame h]; exact ⟨rfl, rfl, rfl, rfl⟩
  | _ => cases h; exact ⟨rfl, rfl, rfl, rfl⟩

/-- A command that is none of the five configuration commands keeps the configuration (R47). -/
theorem effect_sameConfig {i : Instr} {s t : State} (hi : i.op ∉ [Op.setw, .seth, .setf, .nclr, .nbyte])
    (h : effect i s = .next t) : sameConfig s t := by
  cases i with
  | setw | seth | setf | nclr | nbyte => simp [Instr.op] at hi
  | start => rw [startEncode_frame h]; exact ⟨rfl, rfl, rfl, rfl, rfl, rfl⟩
  | pixel r g b => rw [packPixel_frame h]; exact ⟨rfl, rfl, rfl, rfl, rfl, rfl⟩
  | finish => rw [finishEncode_frame h]; exact ⟨rfl, rfl, rfl, rfl, rfl, rfl⟩
  | _ => cases h; exact ⟨rfl, rfl, rfl, rfl, rfl, rfl⟩

/-! ## The states a command is legal in -/

theorem inLoad_eq_true {b : BlockState} : inLoad b = true ↔ b = .load := by
  cases b <;> simp [inLoad]

theorem outsideEncode_eq_true {b : BlockState} : outsideEncode b = true ↔ b ≠ .load ∧ b ≠ .emit := by
  cases b <;> simp [outsideEncode]

/-- In LOAD the configuration commands are not legal (R47, R179). -/
theorem legal_load_of_config {op : Op} (h : op ∈ [Op.setw, .seth, .setf, .nclr, .nbyte]) : legal op .load = false := by
  simp only [List.mem_cons, List.not_mem_nil, or_false] at h
  rcases h with rfl | rfl | rfl | rfl | rfl <;> rfl

/-- In EMIT no word is accepted (R198). -/
theorem acceptedWord_of_emit {s : State} (h : s.blockState = .emit) : acceptedWord s = none := by
  cases ha : acceptedWord s with
  | none => rfl
  | some w => exact absurd h (acceptedWord_eq_some.1 ha).2.1

/-! ## What a step leaves unchanged -/

/-- No command writes the build parameters (R37 to R39). -/
theorem accept_params {w : Word} {s t : State} (he : s.blockState ≠ .emit) (h : accept w s = .next t) :
    t.params = s.params := by
  rcases accept_next he h with ⟨_, rfl⟩ | ⟨_, rfl⟩ | ⟨i, _, _, rfl⟩ | ⟨i, _, _, heff⟩
  · rw [raiseFault_frame]
  · rw [raiseFault_frame]
  · rw [raiseFault_frame]
  · exact (effect_frame heff).1

/-- The output step changes the emission index, the block state and the host's record, nothing else (R153). -/
theorem outputStep_frame {s t : State} (h : outputStep s = .next t) :
    t = { s with blockState := t.blockState, outCount := t.outCount, hostTaken := t.hostTaken,
                 hostArtifacts := t.hostArtifacts } := by
  rcases outputStep_next h with ⟨_, rfl⟩ | ⟨_, e, b, _, _, ⟨_, rfl⟩ | ⟨_, rfl⟩⟩ <;> rfl

/-- No step writes the build parameters, reset included (R37 to R39). -/
theorem step_params {s t : State} (h : step s = .next t) : t.params = s.params := by
  rcases step_cases s with ⟨rest, _, hs⟩ | ⟨w, ha, hs⟩ | ⟨_, _, hs⟩ | ⟨_, rest, _, hs⟩ | ⟨_, i, rest, _, hs⟩ |
    ⟨_, w, rest, _, _, hs⟩ <;> rw [hs] at h
  · cases h; rfl
  · obtain ⟨_, he, _⟩ := acceptedWord_eq_some.1 ha
    exact accept_params (s := s.withPort none) he h
  · cases h; rfl
  · rw [outputStep_frame h]; rfl
  · cases h; rfl
  · cases h; rfl

theorem sameConfig_raiseFault (c : ErrCode) (s : State) : sameConfig s (raiseFault c s) := by
  rw [raiseFault_frame]
  exact ⟨rfl, rfl, rfl, rfl, rfl, rfl⟩

/-- A word accepted in LOAD keeps the configuration (R47). -/
theorem accept_sameConfig_of_load {w : Word} {s t : State} (hl : s.blockState = .load) (h : accept w s = .next t) :
    sameConfig s t := by
  rcases accept_next (by simp [hl]) h with ⟨_, rfl⟩ | ⟨_, rfl⟩ | ⟨i, _, _, rfl⟩ | ⟨i, _, hlegal, heff⟩
  · exact sameConfig_raiseFault _ s
  · exact sameConfig_raiseFault _ s
  · exact sameConfig_raiseFault _ s
  · refine effect_sameConfig (fun hi => ?_) heff
    rw [hl, legal_load_of_config hi] at hlegal
    cases hlegal

/-- During an encode every step but reset keeps the configuration (R47). -/
theorem step_sameConfig_of_inEncode {s t : State} (he : inEncode s) (hr : resetAsserted s = false)
    (h : step s = .next t) : sameConfig s t := by
  rcases step_cases s with ⟨rest, hn, hs⟩ | ⟨w, ha, hs⟩ | ⟨_, _, hs⟩ | ⟨_, rest, _, hs⟩ | ⟨_, i, rest, _, hs⟩ |
    ⟨_, w, rest, _, _, hs⟩ <;> rw [hs] at h
  · rw [resetAsserted_eq_true.2 ⟨rest, hn⟩] at hr; cases hr
  · obtain ⟨_, hne, _⟩ := acceptedWord_eq_some.1 ha
    exact accept_sameConfig_of_load (s := s.withPort none) (he.resolve_right hne) h
  · cases h; exact ⟨rfl, rfl, rfl, rfl, rfl, rfl⟩
  · rw [outputStep_frame h]; exact ⟨rfl, rfl, rfl, rfl, rfl, rfl⟩
  · cases h; exact ⟨rfl, rfl, rfl, rfl, rfl, rfl⟩
  · cases h; exact ⟨rfl, rfl, rfl, rfl, rfl, rfl⟩

/-! ## The register words -/

theorem readReg_configId (s : State) : readReg s 0x0B#8 = 0#31 ++ BitVec.ofBool (hexCaseBit s.params.hexCase) := rfl
theorem readReg_bufSize (s : State) : readReg s 0x0C#8 = s.params.bufBytes := rfl
theorem readReg_nameCap (s : State) : readReg s 0x0D#8 = s.params.nameMax := rfl

/-- STATUS: STATE in bits 2..0, ERR in bits 7..4, the rest 0 (R24). -/
theorem statusWord_fields (s : State) :
    (statusWord s).extractLsb' 0 3 = s.blockState.code ∧ (statusWord s).getLsbD 3 = false ∧
      (statusWord s).extractLsb' 4 4 = s.err.code ∧ (statusWord s).extractLsb' 8 24 = 0#24 := by
  have hall : ∀ (e : BitVec 4) (b : BitVec 3),
      let w : Word := 0#24 ++ e ++ 0#1 ++ b
      w.extractLsb' 0 3 = b ∧ w.getLsbD 3 = false ∧ w.extractLsb' 4 4 = e ∧ w.extractLsb' 8 24 = 0#24 := by decide
  exact hall s.err.code s.blockState.code

/-- FLAGS: INVERT in bit 0, LINEBREAK in bit 1, the rest 0 (R27). -/
theorem flagsWord_fields (s : State) :
    (flagsWord s).getLsbD 0 = s.invert ∧ (flagsWord s).getLsbD 1 = s.lineBreak ∧
      (flagsWord s).extractLsb' 2 30 = 0#30 := by
  have hall : ∀ lb inv : Bool,
      let w : Word := 0#30 ++ BitVec.ofBool lb ++ BitVec.ofBool inv
      w.getLsbD 0 = inv ∧ w.getLsbD 1 = lb ∧ w.extractLsb' 2 30 = 0#30 := by decide
  exact hall s.lineBreak s.invert

/-- Indices above the register map read 0 (R40). -/
theorem readReg_unassigned (s : State) {i : Byte} (h : 0x0E ≤ i.toNat) : readReg s i = 0#32 := by
  unfold readReg
  split
  case h_15 => rfl
  all_goals omega

/-! ## The host's record -/

/-- In EMIT a take at the head of the agenda is the output step, even while a word waits on CMD (R153, R198). -/
theorem step_of_take_of_emit {s : State} {rest : List HostAction} (he : s.blockState = .emit)
    (ha : s.hostAgenda = .take :: rest) : step s = outputStep (s.withAgenda rest) := by
  have hnext : nextAction s = some (.take, rest) := nextAction_cons ha fun _ _ h => by cases h
  rw [step_of_none (acceptedWord_of_emit he), hostStep, hnext]

/-- A START that begins an encode empties the host's bytes with OUT_COUNT (R35, R110). -/
theorem startEncode_taken {s t : State} (h : startEncode (clearError s) = .next t) :
    t.blockState = .error ∨ t.hostTaken = [] ∧ t.outCount = 0 := by
  rcases startEncode_cases s with ⟨_, he⟩ | ⟨_, _, _, he⟩ | ⟨_, _, _, m, he, _⟩ <;> rw [he] at h <;> cases h
  · exact .inl rfl
  · exact .inl rfl
  · exact .inr ⟨rfl, rfl⟩

/-- A FINISH that begins an emission empties the host's bytes with OUT_COUNT (R35, R149). -/
theorem finishEncode_taken {s t : State} (h : finishEncode s = .next t) :
    t.blockState = .error ∨ t.hostTaken = [] ∧ t.outCount = 0 := by
  rcases finishEncode_next h with ⟨_, rfl⟩ | ⟨_, _, rfl⟩ | ⟨_, _, u, _, rfl⟩
  · exact .inl (raiseFault_blockState _ s)
  · exact .inr ⟨rfl, rfl⟩
  · exact .inr ⟨rfl, rfl⟩

/-- START and FINISH end in ERROR or with the host's bytes empty, and keep its artifacts. -/
theorem exec_taken {i : Instr} {s t : State} (hi : i = .start ∨ i = .finish) (he : s.blockState ≠ .emit)
    (h : exec i s = .next t) :
    (t.blockState = .error ∨ t.hostTaken = [] ∧ t.outCount = 0) ∧ t.hostArtifacts = s.hostArtifacts := by
  cases hl : legal i.op s.blockState with
  | false =>
    rw [exec_of_illegal he hl] at h
    cases h
    exact ⟨.inl (raiseFault_blockState _ s), by rw [raiseFault_frame]⟩
  | true =>
    rw [exec_of_legal hl] at h
    obtain ⟨_, _, hartifacts, _⟩ := effect_frame h
    rcases hi with rfl | rfl
    · exact ⟨startEncode_taken h, hartifacts⟩
    · exact ⟨finishEncode_taken h, hartifacts⟩

end Sys2Proof.Machine

/-! PROOFS. The invariant under each kind of change, from a register write to a whole step. -/

namespace Sys2Proof.Machine

/-! ## The emission string exists -/

/-- The name is there when all of its bytes are written (R150, R194). -/
theorem nameBytes_ok {s : State} (hb : s.nameLen.toNat ≤ s.params.nameMax.toNat) (hc : s.name.covers s.nameLen.toNat) :
    ∃ bs, nameBytes s = .ok bs := by
  refine ⟨_, collect_ok (g := fun k => (s.name.read k).getD 0x00#8) fun k _ hk => ?_⟩
  obtain ⟨v, hv⟩ := hc k (by omega)
  exact nameRead_ok_iff.2 ⟨by omega, by simp [hv]⟩

/-- The buffer's bytes are there when all of them are written (R129, R194). -/
theorem bufBytes_ok {s : State} (hb : s.byteLength.toNat ≤ s.params.bufBytes.toNat) (hc : s.buf.covers s.byteLength.toNat) :
    ∃ bs, bufBytes s = .ok bs := by
  refine ⟨_, collect_ok (g := fun a => (s.buf.read a).getD 0x00#8) fun a _ ha => ?_⟩
  obtain ⟨v, hv⟩ := hc a (by omega)
  exact memRead_ok_iff.2 ⟨by omega, by simp [hv]⟩

/-- E is the container of the name and the buffer's bytes (R151). -/
theorem emission_eq {s : State} {name bytes : List Byte} (hn : nameBytes s = .ok name) (hb : bufBytes s = .ok bytes) :
    emission s = .ok (container name s.byteLength.toNat s.rowStride.toNat
      (payloadOf s.params.hexCase s.lineBreak s.rowStride.toNat bytes)) := by
  simp [emission, hn, hb]

/-- A container is never empty: it begins with the marker (R144, R145). -/
theorem container_length_pos (name : List Byte) (bl rs : Nat) (payload : List Byte) :
    0 < (container name bl rs payload).length := by
  simp [container, header, marker]

/-- Where all that E is made of has been written, E exists and is not empty (R151, R194). -/
theorem Inv.emission_ok {s : State} (h : Inv s) : ∃ e, emission s = .ok e ∧ 0 < e.length := by
  obtain ⟨name, hn⟩ := nameBytes_ok h.nameLenBound h.nameWritten
  obtain ⟨bytes, hb⟩ := bufBytes_ok h.byteLengthBound h.bufWritten
  exact ⟨_, emission_eq hn hb, container_length_pos _ _ _ _⟩

/-! ## The invariant under each kind of change -/

/-- The dimensions speak of four registers only. -/
theorem DimsAgree.of_eq {s t : State} (h : DimsAgree s) (hw : t.width = s.width) (hh : t.height = s.height)
    (hr : t.rowStride = s.rowStride) (hb : t.byteLength = s.byteLength) : DimsAgree t := by
  obtain ⟨hwp, hhp, hrs, hbl⟩ := h
  exact ⟨hw ▸ hwp, hh ▸ hhp, by rw [hr, hw, hrs], by rw [hb, hw, hh, hbl]⟩

/-- The invariant says nothing of CMD, the agenda, the reads and THRESH_RESULT. -/
theorem Inv.withUnseen {s : State} (h : Inv s) (w : Option Word) (a : List HostAction) (r : List (Byte × Word))
    (th : BitVec 9) : Inv { s with cmdPort := w, hostAgenda := a, hostReads := r, threshResult := th } :=
  { h with dims := fun he => (h.dims he).of_eq rfl rfl rfl rfl }

theorem Inv.withPort {s : State} (h : Inv s) (w : Option Word) : Inv (s.withPort w) :=
  h.withUnseen w s.hostAgenda s.hostReads s.threshResult

theorem Inv.withAgenda {s : State} (h : Inv s) (a : List HostAction) : Inv (s.withAgenda a) :=
  h.withUnseen s.cmdPort a s.hostReads s.threshResult

/-- Going to IDLE with no error, or to ERROR with one, keeps the invariant (R24, R173, R183). -/
theorem Inv.withStatus {s : State} (h : Inv s) {b : BlockState} {e : ErrCode}
    (hbe : b = .idle ∧ e = .noError ∨ b = .error ∧ e ≠ .noError) : Inv (s.withStatus b e) := by
  have hne : b ≠ .load ∧ b ≠ .emit ∧ b ≠ .done := by rcases hbe with ⟨rfl, _⟩ | ⟨rfl, _⟩ <;> simp
  obtain ⟨hload, hemit, hdone⟩ := hne
  exact { h with
    errExactly := by rcases hbe with ⟨rfl, rfl⟩ | ⟨rfl, he⟩ <;> simp_all
    dims := fun he => (he.elim hload hemit).elim
    padding := fun he => (he.elim hload hemit).elim
    loadCursor := fun he => (hload he).elim
    emitProgress := fun he => (hemit he).elim
    doneArtifact := fun he => (hdone he).elim }

/-- Taking a fault keeps the invariant (R173). -/
theorem Inv.after_raiseFault {s : State} (h : Inv s) {c : ErrCode} (hc : c ≠ .noError) : Inv (raiseFault c s) := by
  by_cases he : s.blockState = .error
  · rwa [raiseFault_of_error he]
  · rw [raiseFault_of_ne he]
    exact h.withStatus (.inr ⟨rfl, hc⟩)

theorem Inv.after_clearError {s : State} (h : Inv s) : Inv (clearError s) := h.withStatus (.inl ⟨rfl, rfl⟩)

/-- Outside an encode the configuration may change, as long as the name stays inside its store and written (R28, R47). -/
theorem Inv.withConfig {s : State} (h : Inv s) (ho : outsideEncode s.blockState = true) (w ht : U24) (inv lb : Bool)
    {len : Word} {m : Memory} (hwf : m.wf = true) (hin : m.inside s.params.nameMax.toNat)
    (hlen : len.toNat ≤ s.params.nameMax.toNat) (hcov : m.covers len.toNat) :
    Inv { s with width := w, height := ht, invert := inv, lineBreak := lb, nameLen := len, name := m } := by
  obtain ⟨hload, hemit⟩ := outsideEncode_eq_true.1 ho
  exact { h with
    nameWf := hwf
    nameInside := hin
    nameLenBound := hlen
    nameWritten := hcov
    dims := fun he => (he.elim hload hemit).elim
    padding := fun he => (he.elim hload hemit).elim
    loadCursor := fun he => (hload he).elim
    emitProgress := fun he => (hemit he).elim }

/-- Outside EMIT, BUF may change, as long as it stays in its space, written, and clear in the padding (R122, R194). -/
theorem Inv.withBuf {s : State} (h : Inv s) (he : s.blockState ≠ .emit) {m : Memory} (hwf : m.wf = true)
    (hin : m.inside s.params.bufBytes.toNat) (hcov : m.covers s.byteLength.toNat)
    (hpad : s.blockState = .load → paddingClear (s.withBuf m)) : Inv (s.withBuf m) :=
  { h with
    bufWf := hwf
    bufInside := hin
    bufWritten := hcov
    dims := fun hi => (h.dims hi).of_eq rfl rfl rfl rfl
    padding := fun hi => hpad (hi.resolve_right he)
    emitProgress := fun hem => (he hem).elim }

/-- NBYTE's own effect keeps the invariant (R166). -/
theorem Inv.after_appendName {s t : State} (h : Inv s) (ho : outsideEncode s.blockState = true) {b : Byte}
    (ht : appendName b s = .next t) : Inv t := by
  rcases appendName_next ht with ⟨_, rfl⟩ | ⟨_, hlt, rfl⟩
  · exact h.after_raiseFault (by decide)
  · have hsucc : (s.nameLen + 1#32).toNat = s.nameLen.toNat + 1 := by
      have := s.params.nameMax.isLt
      simp [BitVec.toNat_add]; omega
    refine h.withConfig ho s.width s.height s.invert s.lineBreak (Memory.wf_write h.nameWf _ _)
      (Memory.inside_write h.nameInside hlt) (by omega) fun k hk => ?_
    rw [State.withName_name, Memory.read_write]
    by_cases hkl : k = s.nameLen.toNat
    · exact ⟨b, if_pos hkl⟩
    · rw [if_neg hkl]
      exact h.nameWritten k (by omega)

/-- The row stride of a 24-bit width fits its register (R29, R102). -/
theorem rowStrideOf_lt (w : U24) : rowStrideOf w.toNat < 2 ^ 32 := by
  have := w.isLt
  unfold rowStrideOf
  omega

/-- The registers of a new encode keep the invariant when the image fits and its extent is zeroed (R104, R110). -/
theorem Inv.after_startRegs {s : State} (h : Inv s) (herr : s.err = .noError) (hw : s.width ≠ 0#24) (hh : s.height ≠ 0#24)
    (hfit : byteLengthOf s.width.toNat s.height.toNat ≤ s.params.bufBytes.toNat)
    (hzero : ∀ a, a < byteLengthOf s.width.toNat s.height.toNat → s.buf.read a = some 0x00#8) :
    Inv (startRegs s (rowStrideOf s.width.toNat) (byteLengthOf s.width.toNat s.height.toNat)) := by
  have hwpos : 0 < s.width.toNat := Nat.pos_of_ne_zero fun h0 => hw (BitVec.eq_of_toNat_eq h0)
  have hhpos : 0 < s.height.toNat := Nat.pos_of_ne_zero fun h0 => hh (BitVec.eq_of_toNat_eq h0)
  have hrs : (BitVec.ofNat 32 (rowStrideOf s.width.toNat)).toNat = rowStrideOf s.width.toNat := by
    rw [BitVec.toNat_ofNat, Nat.mod_eq_of_lt (rowStrideOf_lt s.width)]
  have hbl : (BitVec.ofNat 32 (byteLengthOf s.width.toNat s.height.toNat)).toNat =
      byteLengthOf s.width.toNat s.height.toNat := by
    rw [BitVec.toNat_ofNat, Nat.mod_eq_of_lt (Nat.lt_of_le_of_lt hfit s.params.bufBytes.isLt)]
  exact { h with
    errExactly := by simp [herr]
    byteLengthBound := by simpa [hbl] using hfit
    bufWritten := fun a ha => ⟨0x00#8, hzero a (by simpa [hbl] using ha)⟩
    dims := fun _ => ⟨hwpos, hhpos, hrs, hbl⟩
    padding := fun _ x y hy _ hx => by
      rw [startRegs_rowStride, hrs] at hx
      exact bufBit_eq_false_iff.2 ⟨0x00#8, by rw [startRegs_rowStride, hrs]; exact hzero _ (pixelAddr_lt hx hy),
        BitVec.zero_and⟩
    loadCursor := fun _ => .inl ⟨hwpos, hhpos⟩
    takenCount := rfl
    emitProgress := fun he => by cases he
    doneArtifact := fun he => by cases he }

/-- START's own effect keeps the invariant (R110). -/
theorem Inv.after_startEncode {s t : State} (h : Inv s) (ht : startEncode (clearError s) = .next t) : Inv t := by
  rcases startEncode_cases s with ⟨_, he⟩ | ⟨_, _, _, he⟩ | ⟨hw, hh, hfit, m, he, hread, hwf, hin⟩ <;>
    rw [he] at ht <;> cases ht
  · exact h.withStatus (.inr ⟨rfl, by decide⟩)
  · exact h.withStatus (.inr ⟨rfl, by decide⟩)
  · have hcov : m.covers s.byteLength.toNat := fun a ha => by
      rw [hread]
      split
      · exact ⟨_, rfl⟩
      · exact h.bufWritten a ha
    have hbuf : Inv ((clearError s).withBuf m) :=
      h.after_clearError.withBuf (by simp) (hwf h.bufWf) (hin h.bufInside) hcov fun hl => by cases hl
    exact hbuf.after_startRegs rfl hw hh hfit fun a ha => (hread a).trans (if_pos ha)

/-- Before the last pixel the cursor's move keeps the invariant (R33, R112, R113). -/
theorem Inv.after_advanceCursor {s : State} (h : Inv s) (hl : s.blockState = .load)
    (hy : s.curY.toNat < s.height.toNat) : Inv (advanceCursor s) := by
  have hw := s.width.isLt
  have hh := s.height.isLt
  rw [advanceCursor_eq]
  refine { h with dims := fun hi => (h.dims hi).of_eq rfl rfl rfl rfl, loadCursor := fun _ => ?_ }
  simp only [State.withCursor_curX, State.withCursor_curY, State.withCursor_width, State.withCursor_height]
  by_cases hnext : s.curX.toNat + 1 < s.width.toNat
  · refine .inl ⟨?_, ?_⟩
    · rw [if_pos hnext, BitVec.toNat_add]
      simp; omega
    · rwa [if_pos hnext]
  · have hrow : (s.curY + 1#24).toNat = s.curY.toNat + 1 := by
      simp [BitVec.toNat_add]; omega
    simp only [if_neg hnext, hrow]
    by_cases hlast : s.curY.toNat + 1 < s.height.toNat
    · exact .inl ⟨(h.dims (.inl hl)).widthPos, hlast⟩
    · exact .inr ⟨trivial, BitVec.eq_of_toNat_eq (by omega)⟩

/-- Packing a light pixel of the image keeps the invariant (R105, R109). -/
theorem Inv.setBit {s : State} (h : Inv s) (hl : s.blockState = .load) {x y : Nat} {v : Byte}
    (hx : x < s.width.toNat) (ha : pixelAddr s.rowStride.toNat x y < s.params.bufBytes.toNat)
    (hv : s.buf.read (pixelAddr s.rowStride.toNat x y) = some v) :
    Inv (s.withBuf (s.buf.write (pixelAddr s.rowStride.toNat x y) (v ||| pixelMask x))) :=
  h.withBuf (by simp [hl]) (Memory.wf_write h.bufWf _ _) (Memory.inside_write h.bufInside ha)
    (Memory.covers_write h.bufWritten _ _) fun _ =>
      paddingClear_setBit (h.padding (.inl hl)) (h.dims (.inl hl)).rowStrideIs hx hv

/-- PIXEL's own effect keeps the invariant (R112). -/
theorem Inv.after_packPixel {s t : State} (h : Inv s) (hl : s.blockState = .load) {r g b : Byte}
    (ht : packPixel r g b s = .next t) : Inv t := by
  have hcursor : s.curY ≠ s.height → s.curX.toNat < s.width.toNat ∧ s.curY.toNat < s.height.toNat := fun hne =>
    (h.loadCursor hl).resolve_right fun hpast => hne hpast.2
  rcases packPixel_next ht with ⟨_, rfl⟩ | ⟨hne, _, rfl⟩ | ⟨hne, _, v, ha, hv, rfl⟩
  · exact h.after_raiseFault (by decide)
  · obtain ⟨_, hy⟩ := hcursor hne
    exact h.after_advanceCursor hl hy
  · obtain ⟨hx, hy⟩ := hcursor hne
    exact (h.setBit hl hx ha hv).after_advanceCursor hl hy

/-- The inverter keeps the invariant (R119, R122). -/
theorem Inv.after_invertBuf {s t : State} (h : Inv s) (hl : s.blockState = .load) (ht : invertBuf s = .ok t) : Inv t := by
  have hd : DimsAgree s := h.dims (.inl hl)
  obtain ⟨u, hu, hmap⟩ := invertBuf_ok hd h.byteLengthBound h.bufWritten
  obtain rfl : u = t := by rw [hu] at ht; exact Except.ok.inj ht
  have hpad : paddingClear u := paddingClear_of_inverted hd h.bufWritten hmap
  rw [hmap.rest] at hpad ⊢
  exact h.withBuf (by simp [hl]) (hmap.wf h.bufWf) (hmap.inside h.bufInside)
    (fun a ha => hmap.read_some (h.bufWritten a ha)) fun _ => hpad

/-- The registers of a new emission keep the invariant: E exists, and none of it has been taken (R149, R151). -/
theorem Inv.after_finishRegs {s : State} (h : Inv s) (hl : s.blockState = .load) : Inv (finishRegs s) := by
  obtain ⟨e, hem, hpos⟩ := h.emission_ok
  exact { h with
    errExactly := by simpa [hl] using h.errExactly
    dims := fun _ => (h.dims (.inl hl)).of_eq rfl rfl rfl rfl
    padding := fun _ => h.padding (.inl hl)
    loadCursor := fun he => by cases he
    takenCount := rfl
    emitProgress := fun _ => ⟨e, hem, hpos, rfl⟩
    doneArtifact := fun he => by cases he }

/-- FINISH's own effect keeps the invariant (R149). -/
theorem Inv.after_finishEncode {s t : State} (h : Inv s) (hl : s.blockState = .load) (ht : finishEncode s = .next t) :
    Inv t := by
  rcases finishEncode_next ht with ⟨_, rfl⟩ | ⟨_, _, rfl⟩ | ⟨_, _, u, hu, rfl⟩
  · exact h.after_raiseFault (by decide)
  · exact h.after_finishRegs hl
  · have hlu : u.blockState = .load := by rw [invertBuf_frame hu]; exact hl
    exact (h.after_invertBuf hl hu).after_finishRegs hlu

/-- Every command keeps the invariant where it is legal (R179). -/
theorem Inv.after_effect {i : Instr} {s t : State} (h : Inv s) (hl : legal i.op s.blockState = true)
    (ht : effect i s = .next t) : Inv t := by
  cases i with
  | nop => cases ht; exact h
  | setw w =>
    cases ht
    exact h.withConfig hl w s.height s.invert s.lineBreak h.nameWf h.nameInside h.nameLenBound h.nameWritten
  | seth ht =>
    cases ht
    exact h.withConfig hl s.width ht s.invert s.lineBreak h.nameWf h.nameInside h.nameLenBound h.nameWritten
  | setf inv lb =>
    cases ht
    exact h.withConfig hl s.width s.height inv lb h.nameWf h.nameInside h.nameLenBound h.nameWritten
  | nclr =>
    cases ht
    exact h.withConfig hl s.width s.height s.invert s.lineBreak h.nameWf h.nameInside (Nat.zero_le _)
      (Memory.covers_zero _)
  | nbyte b => exact h.after_appendName hl ht
  | start => exact h.after_startEncode ht
  | pixel r g b => exact h.after_packPixel (inLoad_eq_true.1 hl) ht
  | thresh r g b => cases ht; exact h.withUnseen s.cmdPort s.hostAgenda s.hostReads (threshWord r g b)
  | finish => exact h.after_finishEncode (inLoad_eq_true.1 hl) ht
  | abort => cases ht; exact h.after_clearError

/-- Accepting a word keeps the invariant (R159). -/
theorem Inv.after_accept {w : Word} {s t : State} (h : Inv s) (he : s.blockState ≠ .emit) (ht : accept w s = .next t) :
    Inv t := by
  rcases accept_next he ht with ⟨_, rfl⟩ | ⟨_, rfl⟩ | ⟨i, _, _, rfl⟩ | ⟨i, _, hl, heff⟩
  · exact h.after_raiseFault (by decide)
  · exact h.after_raiseFault (by decide)
  · exact h.after_raiseFault (by decide)
  · exact h.after_effect hl heff

/-- The output step keeps the invariant: the bytes taken are one more of E, or all of it (R153, R155). -/
theorem Inv.after_outputStep {s t : State} (h : Inv s) (ht : outputStep s = .next t) : Inv t := by
  rcases outputStep_next ht with ⟨_, rfl⟩ | ⟨hem, e, b, he, hb, hstep⟩
  · exact h
  · obtain ⟨e', he', hlt, htaken⟩ := h.emitProgress hem
    obtain rfl : e = e' := by rw [he] at he'; exact Except.ok.inj he'
    have hcount : (s.hostTaken ++ [b]).length = s.outCount + 1 := by rw [List.length_append, h.takenCount]; rfl
    rcases hstep with ⟨_, rfl⟩ | ⟨hne, rfl⟩
    · exact { h with
        errExactly := by simpa [hem] using h.errExactly
        dims := fun hi => by rcases hi with hi | hi <;> cases hi
        padding := fun hi => by rcases hi with hi | hi <;> cases hi
        loadCursor := fun hl => by cases hl
        takenCount := hcount
        emitProgress := fun hm => by cases hm
        doneArtifact := fun _ => List.getLast?_concat }
    · refine { h with
        dims := fun hi => (h.dims hi).of_eq rfl rfl rfl rfl
        takenCount := hcount
        emitProgress := fun _ => ⟨e, he, by rw [takeByte_outCount]; omega, ?_⟩
        doneArtifact := fun hd => by rw [takeByte_blockState, hem] at hd; cases hd }
      rw [takeByte_hostTaken, takeByte_outCount, htaken, List.take_add_one, hb]
      rfl

/-- The invariant holds after reset, whatever the host has left to do and has received (R193). -/
theorem Inv.after_resetBlock {s : State} (h : Inv s) : Inv (resetBlock s) where
  paramsValid := h.paramsValid
  bufWf := rfl
  bufInside := Memory.inside_nil _
  nameWf := rfl
  nameInside := Memory.inside_nil _
  nameLenBound := Nat.zero_le _
  nameWritten := Memory.covers_zero _
  errExactly := by simp
  byteLengthBound := Nat.zero_le _
  bufWritten := Memory.covers_zero _
  dims := fun hi => by rcases hi with hi | hi <;> cases hi
  padding := fun hi => by rcases hi with hi | hi <;> cases hi
  loadCursor := fun hl => by cases hl
  takenCount := rfl
  emitProgress := fun he => by cases he
  doneArtifact := fun hd => by cases hd

end Sys2Proof.Machine

/-! PROOFS. The obligations about the state. -/

namespace Sys2Proof.Machine

/-- Settles O59: one case for each thing a step can be. -/
theorem stepKeepsInvariant : Obligations.StepKeepsInvariant := by
  intro s t h ht
  rcases step_cases s with ⟨rest, _, hs⟩ | ⟨w, ha, hs⟩ | ⟨_, _, hs⟩ | ⟨_, rest, _, hs⟩ | ⟨_, i, rest, _, hs⟩ |
    ⟨_, w, rest, _, _, hs⟩ <;> rw [hs] at ht
  · cases ht; exact (h.withAgenda rest).after_resetBlock
  · obtain ⟨_, he, _⟩ := acceptedWord_eq_some.1 ha
    exact (h.withPort none).after_accept he ht
  · cases ht; exact h
  · exact (h.withAgenda rest).after_outputStep ht
  · cases ht
    exact h.withUnseen s.cmdPort rest (s.hostReads ++ [(i, readReg s i)]) s.threshResult
  · cases ht; exact (h.withAgenda rest).withPort (some w)

/-- Settles O14: each word by its fields' own lemma, or by what a wider word of the same value reads as. -/
theorem registerWords : Obligations.RegisterWords := by
  refine ⟨⟨rfl, rfl, rfl, rfl, rfl⟩, ⟨rfl, rfl, rfl, rfl, rfl, rfl, rfl, rfl, rfl⟩, fun s => ?_⟩
  have h24 : 24 ≤ 32 := by decide
  have hconfig : readReg s 0x0B#8 = if s.params.hexCase = .lower then 1#32 else 0#32 := by
    rw [readReg_configId]
    cases s.params.hexCase <;> rfl
  exact ⟨statusWord_fields s,
    ⟨BitVec.toNat_setWidth_of_le h24, BitVec.toNat_setWidth_of_le h24⟩,
    flagsWord_fields s,
    ⟨rfl, rfl, rfl⟩,
    ⟨BitVec.toNat_setWidth_of_le h24, BitVec.toNat_setWidth_of_le h24⟩,
    BitVec.toNat_setWidth_of_le (by decide),
    BitVec.toNat_ofNat s.outCount 32,
    ⟨hconfig, rfl, rfl⟩,
    fun i hi => readReg_unassigned s hi⟩

/-- Settles O16: no step writes the build parameters, and the three words are functions of them. -/
theorem constantsNeverChange : Obligations.ConstantsNeverChange := by
  intro s t h
  have hp : t.params = s.params := step_params h
  simp only [readReg_configId, readReg_bufSize, readReg_nameCap, hp, true_and]
  cases s.params.hexCase <;> decide

/-- Settles O34: in LOAD no configuration command is legal, and in EMIT no word is accepted. -/
theorem configurationFrozenDuringEncode : Obligations.ConfigurationFrozenDuringEncode := by
  refine ⟨fun s t he hr h => step_sameConfig_of_inEncode he hr h, fun i s hi hl => ?_, fun s => acceptedWord_of_emit⟩
  rw [exec_of_illegal (by simp [hl]) (by rw [hl, legal_load_of_config hi]), raiseFault_of_ne (by simp [hl])]
  rfl

/-- Settles O37: a take in EMIT is the output step, and START and FINISH begin with no byte taken. -/
theorem hostRecordsTakenBytes : Obligations.HostRecordsTakenBytes := by
  refine ⟨fun s t e b rest he hem hb ha h => ?_, fun i s t hi he h => ?_⟩
  · obtain ⟨hk, rfl⟩ := List.getElem?_eq_some_iff.1 hb
    rw [step_of_take_of_emit he ha, outputStep_of_emit (s := s.withAgenda rest) he hem hk] at h
    cases h
    by_cases hlast : s.outCount + 1 = e.length <;> simp [hlast]
  · obtain ⟨htaken, hartifacts⟩ := exec_taken hi he h
    refine ⟨fun hb _ => htaken.resolve_left fun herr => ?_, hartifacts⟩
    simp [herr] at hb

/-- Settles O43: two pixels' bits are two read-modify-writes by an OR, and neither changes the row stride. -/
theorem pixelOrderImmaterial : Obligations.PixelOrderImmaterial := by
  intro s t u x y x' y' hwf ht hu
  have hst : t.rowStride = s.rowStride := by rw [memModify_frame ht]; rfl
  rw [setPixelBit, hst] at hu
  have hcomm : ∀ v, v ||| pixelMask x' ||| pixelMask x = v ||| pixelMask x ||| pixelMask x' := fun v => by ac_rfl
  obtain ⟨t', ht', hu'⟩ := memModify_comm hwf hcomm ht hu
  have hst' : t'.rowStride = s.rowStride := by rw [memModify_frame ht']; rfl
  exact ⟨t', ht', by rw [setPixelBit, hst']; exact hu'⟩

/-- Settles O15: with no word to accept, the read at the head of the agenda is the step. -/
theorem readHasNoSideEffect : Obligations.ReadHasNoSideEffect := by
  intro s i rest hagenda hnone
  have hnext : nextAction s = some (.read i, rest) := nextAction_cons hagenda fun _ _ h => by cases h
  rw [step_of_none hnone, hostStep, hnext]
  rfl

end Sys2Proof.Machine

/-! PROOFS. Each command's own effect, case by case, and why it answers a next state wherever the invariant holds. -/

namespace Sys2Proof.Machine

/-! ## The own effects, an equation per case -/

/-- START with a dimension 0 (R176). -/
theorem startEncode_of_zero {s : State} (hd : s.width = 0#24 ∨ s.height = 0#24) :
    startEncode (clearError s) = .next (s.withStatus .error .dim) := by
  rcases startEncode_cases s with ⟨_, he⟩ | ⟨hw, hh, _⟩ | ⟨hw, hh, _⟩
  · exact he
  · exact absurd hd (not_or.2 ⟨hw, hh⟩)
  · exact absurd hd (not_or.2 ⟨hw, hh⟩)

/-- START with an image larger than BUF (R177). -/
theorem startEncode_of_large {s : State} (hd : ¬(s.width = 0#24 ∨ s.height = 0#24))
    (hf : s.params.bufBytes.toNat < byteLengthOf s.width.toNat s.height.toNat) :
    startEncode (clearError s) = .next (s.withStatus .error .capacity) := by
  rcases startEncode_cases s with ⟨hz, _⟩ | ⟨_, _, _, he⟩ | ⟨_, _, hfit, _⟩
  · exact absurd hz hd
  · exact he
  · omega

/-- START with an image that fits: the new encode, on a zeroed extent (R104, R110). -/
theorem startEncode_of_fits {s : State} (hd : ¬(s.width = 0#24 ∨ s.height = 0#24))
    (hf : byteLengthOf s.width.toNat s.height.toNat ≤ s.params.bufBytes.toNat) :
    ∃ m, startEncode (clearError s) =
        .next ((startRegs (clearError s) (rowStrideOf s.width.toNat) (byteLengthOf s.width.toNat s.height.toNat)).withBuf m) ∧
      ∀ a, a < byteLengthOf s.width.toNat s.height.toNat → m.read a = some 0x00#8 := by
  rcases startEncode_cases s with ⟨hz, _⟩ | ⟨_, _, hlarge, _⟩ | ⟨_, _, _, m, he, hread, _⟩
  · exact absurd hz hd
  · omega
  · exact ⟨m, he, fun a ha => (hread a).trans (if_pos ha)⟩

/-- NBYTE on a full store (R180). -/
theorem appendName_of_full {s : State} (h : s.nameLen = s.params.nameMax) (b : Byte) :
    appendName b s = .next (raiseFault .nameFull s) := by
  simp [appendName, h]

/-- NBYTE with room in the store (R166). -/
theorem appendName_of_room {s : State} (h : s.nameLen.toNat < s.params.nameMax.toNat) (b : Byte) :
    appendName b s = .next { s.withName (s.name.write s.nameLen.toNat b) with nameLen := s.nameLen + 1#32 } := by
  have hne : s.nameLen ≠ s.params.nameMax := fun heq => by rw [heq] at h; exact Nat.lt_irrefl _ h
  simp [appendName, hne, nameWrite_ok_iff.2 ⟨h, rfl⟩]

/-- PIXEL after the last pixel (R178). -/
theorem packPixel_of_past {s : State} (h : s.curY = s.height) (r g b : Byte) :
    packPixel r g b s = .next (raiseFault .overrun s) := by
  simp [packPixel, h]

/-- A dark PIXEL moves the cursor only (R112). -/
theorem packPixel_of_dark {s : State} (h : s.curY ≠ s.height) {r g b : Byte} (hl : light r g b = false) :
    packPixel r g b s = .next (advanceCursor s) := by
  simp [packPixel, h, hl]

/-- A light PIXEL sets the cursor's bit and moves the cursor (R105, R112). -/
theorem packPixel_of_light {s : State} (h : s.curY ≠ s.height) {r g b v : Byte} (hl : light r g b = true)
    (ha : pixelAddr s.rowStride.toNat s.curX.toNat s.curY.toNat < s.params.bufBytes.toNat)
    (hv : s.buf.read (pixelAddr s.rowStride.toNat s.curX.toNat s.curY.toNat) = some v) :
    packPixel r g b s =
      .next (advanceCursor (s.withBuf (s.buf.write (pixelAddr s.rowStride.toNat s.curX.toNat s.curY.toNat)
        (v ||| pixelMask s.curX.toNat)))) := by
  simp [packPixel, h, hl, setPixelBit_ok ha hv]

/-- FINISH before the last pixel (R178). -/
theorem finishEncode_of_early {s : State} (h : s.curY ≠ s.height) :
    finishEncode s = .next (raiseFault .underrun s) := by
  simp [finishEncode, h]

/-- FINISH without inversion (R149). -/
theorem finishEncode_of_plain {s : State} (h : s.curY = s.height) (hi : s.invert = false) :
    finishEncode s = .next (finishRegs s) := by
  simp [finishEncode, h, hi]

/-- FINISH with inversion (R124, R149). -/
theorem finishEncode_of_inverted {s u : State} (h : s.curY = s.height) (hi : s.invert = true) (hu : invertBuf s = .ok u) :
    finishEncode s = .next (finishRegs u) := by
  simp [finishEncode, h, hi, hu]

/-! ## Progress from a state of the invariant -/

/-- NAME_LEN is NAME_MAX or there is room for a byte (R28). -/
theorem Inv.nameLen_lt {s : State} (h : Inv s) (hne : s.nameLen ≠ s.params.nameMax) :
    s.nameLen.toNat < s.params.nameMax.toNat :=
  Nat.lt_of_le_of_ne h.nameLenBound fun heq => hne (BitVec.eq_of_toNat_eq heq)

/-- Before the end of the image, the cursor's byte lies in the encode's extent and has a value (R53, R194). -/
theorem Inv.cursorByte {s : State} (h : Inv s) (hl : s.blockState = .load) (hy : s.curY ≠ s.height) :
    pixelAddr s.rowStride.toNat s.curX.toNat s.curY.toNat < s.byteLength.toNat ∧
      ∃ v, s.buf.read (pixelAddr s.rowStride.toNat s.curX.toNat s.curY.toNat) = some v := by
  have hd : DimsAgree s := h.dims (.inl hl)
  obtain ⟨hx, hrow⟩ := (h.loadCursor hl).resolve_right fun hpast => hy hpast.2
  have hpad : s.curX.toNat < s.rowStride.toNat * 8 := by rw [hd.rowStrideIs, rowStrideOf]; omega
  have hlt : pixelAddr s.rowStride.toNat s.curX.toNat s.curY.toNat < s.byteLength.toNat := by
    rw [hd.byteLengthIs, byteLengthOf, ← hd.rowStrideIs]
    exact pixelAddr_lt hpad hrow
  exact ⟨hlt, h.bufWritten _ hlt⟩

theorem Inv.appendName_answers {s : State} (h : Inv s) (b : Byte) : ∃ t, appendName b s = .next t := by
  by_cases hfull : s.nameLen = s.params.nameMax
  · exact ⟨_, appendName_of_full hfull b⟩
  · exact ⟨_, appendName_of_room (h.nameLen_lt hfull) b⟩

theorem startEncode_answers (s : State) : ∃ t, startEncode (clearError s) = .next t := by
  rcases startEncode_cases s with ⟨_, he⟩ | ⟨_, _, _, he⟩ | ⟨_, _, _, _, he, _⟩ <;> exact ⟨_, he⟩

theorem Inv.packPixel_answers {s : State} (h : Inv s) (hl : s.blockState = .load) (r g b : Byte) :
    ∃ t, packPixel r g b s = .next t := by
  by_cases hy : s.curY = s.height
  · exact ⟨_, packPixel_of_past hy r g b⟩
  · cases hlight : light r g b with
    | false => exact ⟨_, packPixel_of_dark hy hlight⟩
    | true =>
      obtain ⟨hlt, v, hv⟩ := h.cursorByte hl hy
      exact ⟨_, packPixel_of_light hy hlight (Nat.lt_of_lt_of_le hlt h.byteLengthBound) hv⟩

theorem Inv.finishEncode_answers {s : State} (h : Inv s) (hl : s.blockState = .load) : ∃ t, finishEncode s = .next t := by
  by_cases hy : s.curY = s.height
  · cases hinv : s.invert with
    | false => exact ⟨_, finishEncode_of_plain hy hinv⟩
    | true =>
      obtain ⟨u, hu, _⟩ := invertBuf_ok (h.dims (.inl hl)) h.byteLengthBound h.bufWritten
      exact ⟨_, finishEncode_of_inverted hy hinv hu⟩
  · exact ⟨_, finishEncode_of_early hy⟩

/-- Where it is legal, every command's own effect answers a next state (R53, R194). -/
theorem Inv.effect_answers {i : Instr} {s : State} (h : Inv s) (hl : legal i.op s.blockState = true) :
    ∃ t, effect i s = .next t := by
  cases i with
  | nbyte b => exact h.appendName_answers b
  | start => exact startEncode_answers s
  | pixel r g b => exact h.packPixel_answers (inLoad_eq_true.1 hl) r g b
  | finish => exact h.finishEncode_answers (inLoad_eq_true.1 hl)
  | _ => exact ⟨_, rfl⟩

/-- Every command answers a next state, of the invariant again (R159, R179, R198). -/
theorem Inv.exec_answers {s : State} (h : Inv s) (i : Instr) : ∃ t, exec i s = .next t ∧ Inv t := by
  by_cases he : s.blockState = .emit
  · exact ⟨_, exec_of_emit he i, h.withPort _⟩
  · cases hl : legal i.op s.blockState with
    | false => exact ⟨_, exec_of_illegal he hl, h.after_raiseFault (by decide)⟩
    | true =>
      obtain ⟨t, ht⟩ := h.effect_answers hl
      exact ⟨t, by rw [exec_of_legal hl, ht], h.after_effect hl ht⟩

theorem Inv.accept_answers {s : State} (h : Inv s) (w : Word) : ∃ t, accept w s = .next t := by
  rcases accept_cases w s with ⟨_, ha⟩ | ⟨_, ha⟩ | ⟨i, _, ha⟩
  · exact ⟨_, ha⟩
  · exact ⟨_, ha⟩
  · obtain ⟨t, ht, _⟩ := h.exec_answers i
    exact ⟨t, ha.trans ht⟩

/-- In EMIT there is a byte to take, and elsewhere a take has no effect (R153). -/
theorem Inv.outputStep_answers {s : State} (h : Inv s) : ∃ t, outputStep s = .next t := by
  by_cases he : s.blockState = .emit
  · obtain ⟨e, hem, hlt, _⟩ := h.emitProgress he
    exact ⟨_, outputStep_of_emit he hem hlt⟩
  · exact ⟨_, outputStep_of_ne he⟩

/-- Settles O60: one case for each thing a step can be; only a command and a take can stop, and neither does. -/
theorem invariantNeverStops : Obligations.InvariantNeverStops := by
  intro s h
  rcases step_cases s with ⟨rest, _, hs⟩ | ⟨w, _, hs⟩ | ⟨_, _, hs⟩ | ⟨_, rest, _, hs⟩ | ⟨_, i, rest, _, hs⟩ |
    ⟨_, w, rest, _, _, hs⟩
  · exact ⟨_, hs⟩
  · rw [hs]; exact (h.withPort none).accept_answers w
  · exact ⟨_, hs⟩
  · rw [hs]; exact (h.withAgenda rest).outputStep_answers
  · exact ⟨_, hs⟩
  · exact ⟨_, hs⟩

end Sys2Proof.Machine

/-! PROOFS. The whole output of an emission, taken byte by byte. -/

namespace Sys2Proof.Machine

theorem core_run_succ {s t : State} (h : step s = .next t) (k : Nat) :
    Host.Core.run Sys2Proof.core (k + 1) s = Host.Core.run Sys2Proof.core k t := by
  have hcore : Sys2Proof.core.step s = .next t := h
  simp only [Host.Core.run, hcore]

/-- The state after the host has taken the last byte of E. -/
def drained (s : State) (e : List Byte) (rest : List HostAction) : State :=
  { s with blockState := .done, outCount := e.length, hostTaken := e, hostAgenda := rest,
           hostArtifacts := s.hostArtifacts ++ [e] }

/-- Taking the last byte leaves the block drained (R153, R154). -/
theorem takeLast_eq_drained {s : State} {e : List Byte} (hk : s.outCount < e.length) (hlast : s.outCount + 1 = e.length)
    (htaken : s.hostTaken = e.take s.outCount) (rest : List HostAction) :
    takeLast (s.withAgenda rest) e[s.outCount] = drained s e rest := by
  have hall : s.hostTaken ++ [e[s.outCount]] = e := by
    rw [htaken, List.take_append_getElem hk, hlast, List.take_length]
  simp only [takeLast, takeByte, drained, State.withAgenda, hall, hlast]

/-- In EMIT a take at the head of the agenda takes the next byte of E (R153). -/
theorem step_of_take_of_emission {s : State} {e : List Byte} {rest : List HostAction} (hb : s.blockState = .emit)
    (hem : emission s = .ok e) (hk : s.outCount < e.length) (ha : s.hostAgenda = .take :: rest) :
    step s = .next (if s.outCount + 1 = e.length then takeLast (s.withAgenda rest) e[s.outCount]
      else takeByte (s.withAgenda rest) e[s.outCount]) :=
  (step_of_take_of_emit hb ha).trans (outputStep_of_emit (s := s.withAgenda rest) hb hem hk)

/-- With n bytes of E left and n takes to come, n steps drain the block (R63, R153, R204). -/
theorem run_takes {n : Nat} {s : State} {e : List Byte} {rest : List HostAction} (hb : s.blockState = .emit)
    (hem : emission s = .ok e) (hpos : 0 < n) (hn : s.outCount + n = e.length) (htaken : s.hostTaken = e.take s.outCount)
    (ha : s.hostAgenda = List.replicate n .take ++ rest) :
    Host.Core.run Sys2Proof.core n s = .next (drained s e rest) := by
  induction n generalizing s with
  | zero => exact absurd hpos (Nat.lt_irrefl 0)
  | succ n ih =>
    have hk : s.outCount < e.length := by omega
    rw [core_run_succ (step_of_take_of_emission hb hem hk (ha.trans List.cons_append))]
    by_cases hlast : n = 0
    · subst hlast
      rw [if_pos hn]
      exact congrArg Host.Outcome.next (takeLast_eq_drained hk hn htaken rest)
    · rw [if_neg (by omega)]
      exact ih (s := takeByte (s.withAgenda _) e[s.outCount]) hb hem (by omega)
        (by rw [takeByte_outCount, State.withAgenda_outCount]; omega)
        (by rw [takeByte_hostTaken, takeByte_outCount, State.withAgenda_hostTaken, State.withAgenda_outCount, htaken,
          List.take_append_getElem hk])
        rfl

/-- Settles O39, by induction on the number of bytes left. -/
theorem drainTakesWholeArtifact : Obligations.DrainTakesWholeArtifact :=
  fun _ _ _ hb hem hlt htaken ha => run_takes hb hem (by omega) (by omega) htaken ha

end Sys2Proof.Machine

/-! PROOFS. A bit of its own for each pixel. -/

namespace Sys2Proof.Machine

/-- Columns of the padded raster with one address lie in one row and one byte of it (R50). -/
theorem pixelAddr_inj {rs x y x' y' : Nat} (hx : x < rs * 8) (hx' : x' < rs * 8)
    (h : pixelAddr rs x y = pixelAddr rs x' y') : x / 8 = x' / 8 ∧ y = y' := by
  have hcol : x / 8 = x' / 8 := by rw [← pixelAddr_mod hx y, h, pixelAddr_mod hx' y']
  have hrows : y * rs = y' * rs := by rw [pixelAddr, pixelAddr] at h; omega
  exact ⟨hcol, Nat.eq_of_mul_eq_mul_right (by omega) hrows⟩

/-- Settles O42: the address gives the row and the byte of a column, the mask its place in the byte. -/
theorem pixelsHaveDisjointBits : Obligations.PixelsHaveDisjointBits := by
  refine ⟨fun rs x y x' y' hx hx' haddr hmask => ?_, fun rs h x y hx hy => pixelAddr_lt hx hy⟩
  obtain ⟨hbyte, hrow⟩ := pixelAddr_inj hx hx' haddr
  have hbit : x % 8 = x' % 8 := by
    by_contra hne
    exact hmask (pixelMask_and_eq_zero hne)
  exact ⟨by omega, hrow⟩

end Sys2Proof.Machine

/-! PROOFS. No state carries over between encodes: two states that show an encode the same stay so under every command. -/

namespace Sys2Proof.Machine

/-! ## What an encode sees of a state -/

/-- The two states hold the same image: its registers, the cursor, and BUF as far as the encode's extent (R53, R68). -/
structure SameImage (s t : State) : Prop where
  rowStride : t.rowStride = s.rowStride
  byteLength : t.byteLength = s.byteLength
  curX : t.curX = s.curX
  curY : t.curY = s.curY
  bytes : ∀ a, a < s.byteLength.toNat → t.buf.read a = s.buf.read a

/-- The two states show an encode the same: the build, the configuration, STATUS and, during an encode, the image. -/
structure SameRun (s t : State) : Prop where
  params : t.params = s.params
  config : sameConfig s t
  blockState : t.blockState = s.blockState
  err : t.err = s.err
  image : inEncode s → SameImage s t

theorem collect_congr {f g : Nat → Except Fault Byte} {lo n : Nat} (h : ∀ i, lo ≤ i → i < lo + n → f i = g i) :
    collect f lo n = collect g lo n := by
  induction n generalizing lo with
  | zero => rfl
  | succ n ih =>
    have htail : collect f (lo + 1) n = collect g (lo + 1) n := ih fun i hlo hhi => h i (by omega) (by omega)
    simp only [collect, h lo (Nat.le_refl lo) (by omega), htail]

/-- States that show an encode the same have the same emission string (R151). -/
theorem SameRun.same_emission {s t : State} (h : SameRun s t) (he : inEncode s) : emission t = emission s := by
  obtain ⟨_, _, _, hlb, hlen, hname⟩ := h.config
  obtain ⟨hrs, hbl, _, _, hbytes⟩ := h.image he
  have hnames : nameBytes t = nameBytes s := by
    rw [nameBytes, nameBytes, hlen]
    exact collect_congr fun k _ _ => by rw [nameRead, nameRead, h.params, hname]
  have hbufs : bufBytes t = bufBytes s := by
    rw [bufBytes, bufBytes, hbl]
    exact collect_congr fun a _ ha => by rw [memRead, memRead, h.params, hbytes a (by omega)]
  rw [emission, emission, hnames, hbufs, hbl, hrs, hlb, h.params]

/-! ## The changes that keep two states the same to an encode -/

/-- Outside an encode, one build, configuration and STATUS are enough. -/
theorem SameRun.of_outsideEncode {s t : State} (hp : t.params = s.params) (hc : sameConfig s t)
    (hb : t.blockState = s.blockState) (he : t.err = s.err) (ho : outsideEncode s.blockState = true) : SameRun s t where
  params := hp
  config := hc
  blockState := hb
  err := he
  image := fun hi =>
    have ⟨hload, hemit⟩ := outsideEncode_eq_true.1 ho
    (hi.elim hload hemit).elim

theorem SameRun.after_raiseFault {s t : State} (h : SameRun s t) (c : ErrCode) :
    SameRun (raiseFault c s) (raiseFault c t) := by
  by_cases he : s.blockState = .error
  · rwa [raiseFault_of_error he, raiseFault_of_error (h.blockState.trans he)]
  · rw [raiseFault_of_ne he, raiseFault_of_ne (by rwa [h.blockState])]
    exact .of_outsideEncode h.params h.config rfl rfl rfl

/-- Buffers that agree on the encode's extent, during an encode. -/
theorem SameRun.withBuf {s t : State} (h : SameRun s t) (he : inEncode s) {m n : Memory}
    (hmn : ∀ a, a < s.byteLength.toNat → n.read a = m.read a) : SameRun (s.withBuf m) (t.withBuf n) :=
  { h with
    config := h.config
    image := fun _ => { h.image he with bytes := hmn } }

theorem SameRun.withThresh {s t : State} (h : SameRun s t) (x : BitVec 9) :
    SameRun { s with threshResult := x } { t with threshResult := x } :=
  { h with
    config := h.config
    image := fun he => { h.image he with } }

theorem SameRun.withPort {s t : State} (h : SameRun s t) (w : Option Word) :
    SameRun (s.withPort w) (t.withPort w) :=
  { h with
    config := h.config
    image := fun he => { h.image he with } }

theorem SameRun.after_advanceCursor {s t : State} (h : SameRun s t) (he : inEncode s) :
    SameRun (advanceCursor s) (advanceCursor t) := by
  obtain ⟨hw, _⟩ := h.config
  have hi : SameImage s t := h.image he
  rw [advanceCursor_eq, advanceCursor_eq, hi.curX, hi.curY, hw]
  exact { h with
    config := h.config
    image := fun _ => { hi with curX := rfl, curY := rfl } }

/-- The registers of a new emission. -/
theorem SameRun.after_finishRegs {s t : State} (h : SameRun s t) (he : inEncode s) :
    SameRun (finishRegs s) (finishRegs t) :=
  { h with
    config := h.config
    blockState := rfl
    image := fun _ => { h.image he with } }

/-! ## The commands -/

/-- START makes any two states with one build and configuration the same to the encode it begins (R68, R110). -/
theorem sameRun_startEncode {s t s' t' : State} (hp : t.params = s.params) (hc : sameConfig s t)
    (hs : startEncode (clearError s) = .next s') (ht : startEncode (clearError t) = .next t') : SameRun s' t' := by
  have ⟨hw, hh, _⟩ := hc
  by_cases hd : s.width = 0#24 ∨ s.height = 0#24
  · rw [startEncode_of_zero hd] at hs
    rw [startEncode_of_zero (by rwa [hw, hh])] at ht
    cases hs; cases ht
    exact .of_outsideEncode hp hc rfl rfl rfl
  · have hd' : ¬(t.width = 0#24 ∨ t.height = 0#24) := by rwa [hw, hh]
    by_cases hf : s.params.bufBytes.toNat < byteLengthOf s.width.toNat s.height.toNat
    · rw [startEncode_of_large hd hf] at hs
      rw [startEncode_of_large hd' (by rwa [hp, hw, hh])] at ht
      cases hs; cases ht
      exact .of_outsideEncode hp hc rfl rfl rfl
    · obtain ⟨m, hm, hzero⟩ := startEncode_of_fits hd (Nat.le_of_not_lt hf)
      obtain ⟨n, hn, hzero'⟩ := startEncode_of_fits hd' (by rw [hp, hw, hh]; omega)
      rw [hm] at hs
      rw [hn, hw, hh] at ht
      rw [hw, hh] at hzero'
      cases hs; cases ht
      exact
        { params := hp
          config := hc
          blockState := rfl
          err := rfl
          image := fun _ =>
            { rowStride := rfl
              byteLength := rfl
              curX := rfl
              curY := rfl
              bytes := fun a ha => by
                have hlt : a < byteLengthOf s.width.toNat s.height.toNat :=
                  Nat.lt_of_lt_of_le ha (Nat.mod_le _ _)
                exact (hzero' a hlt).trans (hzero a hlt).symm } }

theorem SameRun.after_appendName {s t s' t' : State} (h : SameRun s t) (his : Inv s)
    (ho : outsideEncode s.blockState = true) {b : Byte} (hs : appendName b s = .next s')
    (ht : appendName b t = .next t') : SameRun s' t' := by
  obtain ⟨hw, hh, hinv, hlb, hlen, hname⟩ := h.config
  by_cases hfull : s.nameLen = s.params.nameMax
  · rw [appendName_of_full hfull] at hs
    rw [appendName_of_full (by rwa [hlen, h.params])] at ht
    cases hs; cases ht
    exact h.after_raiseFault _
  · have hlt := his.nameLen_lt hfull
    rw [appendName_of_room hlt] at hs
    rw [appendName_of_room (by rwa [hlen, h.params]), hlen, hname] at ht
    cases hs; cases ht
    exact .of_outsideEncode h.params ⟨hw, hh, hinv, hlb, rfl, rfl⟩ h.blockState h.err ho

/-- A light PIXEL finds the same byte in both buffers and leaves the same one (R105, R112). -/
theorem SameRun.after_packPixel {s t s' t' : State} (h : SameRun s t) (his : Inv s) (hl : s.blockState = .load)
    {r g b : Byte} (hs : packPixel r g b s = .next s') (ht : packPixel r g b t = .next t') : SameRun s' t' := by
  obtain ⟨_, hh, _⟩ := h.config
  have he : inEncode s := .inl hl
  obtain ⟨hrs, _, hx, hy, hbytes⟩ := h.image he
  by_cases hpast : s.curY = s.height
  · rw [packPixel_of_past hpast] at hs
    rw [packPixel_of_past (by rwa [hy, hh])] at ht
    cases hs; cases ht
    exact h.after_raiseFault _
  · have hpast' : t.curY ≠ t.height := by rwa [hy, hh]
    cases hlight : light r g b with
    | false =>
      rw [packPixel_of_dark hpast hlight] at hs
      rw [packPixel_of_dark hpast' hlight] at ht
      cases hs; cases ht
      exact h.after_advanceCursor he
    | true =>
      obtain ⟨hlt, v, hv⟩ := his.cursorByte hl hpast
      have hin := Nat.lt_of_lt_of_le hlt his.byteLengthBound
      rw [packPixel_of_light hpast hlight hin hv] at hs
      rw [packPixel_of_light (v := v) hpast' hlight (by rwa [hrs, hx, hy, h.params])
        (by rwa [hrs, hx, hy, hbytes _ hlt]), hrs, hx, hy] at ht
      cases hs; cases ht
      refine SameRun.after_advanceCursor (h.withBuf he fun a ha => ?_) he
      rw [Memory.read_write, Memory.read_write, hbytes a ha]

/-- The inverter maps the bytes of both extents alike (R119, R123). -/
theorem SameRun.after_invertBuf {s t s' t' : State} (h : SameRun s t) (his : Inv s) (hit : Inv t)
    (hl : s.blockState = .load) (hs : invertBuf s = .ok s') (ht : invertBuf t = .ok t') : SameRun s' t' := by
  obtain ⟨hw, _⟩ := h.config
  have he : inEncode s := .inl hl
  obtain ⟨_, hbl, _, _, hbytes⟩ := h.image he
  obtain ⟨u, hu, hmap⟩ := invertBuf_ok (his.dims he) his.byteLengthBound his.bufWritten
  obtain ⟨u', hu', hmap'⟩ := invertBuf_ok (hit.dims (.inl (h.blockState.trans hl))) hit.byteLengthBound hit.bufWritten
  obtain rfl : u = s' := Except.ok.inj (hu.symm.trans hs)
  obtain rfl : u' = t' := Except.ok.inj (hu'.symm.trans ht)
  rw [hmap.rest, hmap'.rest]
  refine h.withBuf he fun a ha => ?_
  rw [hmap.bytes, hmap'.bytes, hbytes a ha, hbl, hw]

theorem SameRun.after_finishEncode {s t s' t' : State} (h : SameRun s t) (his : Inv s) (hit : Inv t)
    (hl : s.blockState = .load) (hs : finishEncode s = .next s') (ht : finishEncode t = .next t') : SameRun s' t' := by
  obtain ⟨_, hh, hinv, _⟩ := h.config
  have he : inEncode s := .inl hl
  have hy := (h.image he).curY
  rcases finishEncode_next hs with ⟨hearly, rfl⟩ | ⟨hpast, hplain, rfl⟩ | ⟨hpast, hi, u, hu, rfl⟩
  · rw [finishEncode_of_early (by rwa [hy, hh])] at ht
    cases ht
    exact h.after_raiseFault _
  · rw [finishEncode_of_plain (by rwa [hy, hh]) (by rwa [hinv])] at ht
    cases ht
    exact h.after_finishRegs he
  · obtain ⟨u', hu', _⟩ := invertBuf_ok (hit.dims (.inl (h.blockState.trans hl))) hit.byteLengthBound hit.bufWritten
    rw [finishEncode_of_inverted (by rwa [hy, hh]) (by rwa [hinv]) hu'] at ht
    cases ht
    have hlu : inEncode u := .inl (by rw [invertBuf_frame hu]; exact hl)
    exact (h.after_invertBuf his hit hl hu hu').after_finishRegs hlu

/-- Every command keeps two states the same to an encode, where it is legal (R68). -/
theorem SameRun.after_effect {i : Instr} {s t s' t' : State} (h : SameRun s t) (his : Inv s) (hit : Inv t)
    (hl : legal i.op s.blockState = true) (hs : effect i s = .next s') (ht : effect i t = .next t') : SameRun s' t' := by
  obtain ⟨hw, hh, hinv, hlb, hlen, hname⟩ := h.config
  cases i with
  | nop => cases hs; cases ht; exact h
  | setw imm =>
    cases hs; cases ht
    exact .of_outsideEncode h.params ⟨rfl, hh, hinv, hlb, hlen, hname⟩ h.blockState h.err hl
  | seth imm =>
    cases hs; cases ht
    exact .of_outsideEncode h.params ⟨hw, rfl, hinv, hlb, hlen, hname⟩ h.blockState h.err hl
  | setf inv lb =>
    cases hs; cases ht
    exact .of_outsideEncode h.params ⟨hw, hh, rfl, rfl, hlen, hname⟩ h.blockState h.err hl
  | nclr =>
    cases hs; cases ht
    exact .of_outsideEncode h.params ⟨hw, hh, hinv, hlb, rfl, hname⟩ h.blockState h.err hl
  | nbyte b => exact h.after_appendName his hl hs ht
  | start => exact sameRun_startEncode h.params h.config hs ht
  | pixel r g b => exact h.after_packPixel his (inLoad_eq_true.1 hl) hs ht
  | thresh r g b => cases hs; cases ht; exact h.withThresh _
  | finish => exact h.after_finishEncode his hit (inLoad_eq_true.1 hl) hs ht
  | abort => cases hs; cases ht; exact .of_outsideEncode h.params h.config rfl rfl rfl

/-- Every command keeps two states the same to an encode, in any state (R68, R179, R198). -/
theorem SameRun.after_exec {i : Instr} {s t s' t' : State} (h : SameRun s t) (his : Inv s) (hit : Inv t)
    (hs : exec i s = .next s') (ht : exec i t = .next t') : SameRun s' t' := by
  by_cases he : s.blockState = .emit
  · rw [exec_of_emit he] at hs
    rw [exec_of_emit (h.blockState.trans he)] at ht
    cases hs; cases ht
    exact h.withPort _
  · have he' : t.blockState ≠ .emit := by rwa [h.blockState]
    cases hl : legal i.op s.blockState with
    | false =>
      rw [exec_of_illegal he hl] at hs
      rw [exec_of_illegal he' (by rwa [h.blockState])] at ht
      cases hs; cases ht
      exact h.after_raiseFault _
    | true =>
      rw [exec_of_legal hl] at hs
      rw [exec_of_legal (by rwa [h.blockState])] at ht
      exact h.after_effect his hit hl hs ht

theorem execAll_cons {i : Instr} {s t : State} (h : exec i s = .next t) (is : List Instr) :
    execAll (i :: is) s = execAll is t := by
  rw [execAll, h]

/-- A list of commands answers in both states, and keeps them the same to an encode (R68). -/
theorem SameRun.after_execAll {s t : State} (h : SameRun s t) (his : Inv s) (hit : Inv t) (cmds : List Instr) :
    ∃ s' t', execAll cmds s = .next s' ∧ execAll cmds t = .next t' ∧ SameRun s' t' := by
  induction cmds generalizing s t with
  | nil => exact ⟨s, t, rfl, rfl, h⟩
  | cons i cmds ih =>
    obtain ⟨s', hs, his'⟩ := his.exec_answers i
    obtain ⟨t', ht, hit'⟩ := hit.exec_answers i
    rw [execAll_cons hs, execAll_cons ht]
    exact ih (h.after_exec his hit hs ht) his' hit'

/-- Settles O46: START makes the two states the same to an encode, and every command keeps them so. -/
theorem noCarryOverBetweenEncodes : Obligations.NoCarryOverBetweenEncodes := by
  intro s₁ s₂ cmds h₁ h₂ hp hc ho₁ ho₂
  obtain ⟨u₁, hu₁, hi₁⟩ := h₁.exec_answers .start
  obtain ⟨u₂, hu₂, hi₂⟩ := h₂.exec_answers .start
  have hstart : SameRun u₁ u₂ :=
    sameRun_startEncode hp.symm hc ((exec_of_legal (i := .start) ho₁).symm.trans hu₁)
      ((exec_of_legal (i := .start) ho₂).symm.trans hu₂)
  obtain ⟨t₁, t₂, ht₁, ht₂, h⟩ := hstart.after_execAll hi₁ hi₂ cmds
  exact ⟨t₁, t₂, (execAll_cons hu₁ cmds).trans ht₁, (execAll_cons hu₂ cmds).trans ht₂, h.blockState.symm, h.err.symm,
    h.config, fun he => (h.same_emission (.inr he)).symm⟩

end Sys2Proof.Machine

/-! PROOFS. The operand field of a command, and the decoder and the encoder as inverses of each other. -/

namespace Sys2Proof

/-! ## The operand field -/

/-- The operand field of a command's word (R70, R75). -/
def Instr.operand : Instr → U24
  | .setw imm => imm
  | .seth imm => imm
  | .setf inv lb => flagOperand inv lb
  | .nbyte byte => byteOperand byte
  | .pixel r g b => rgbOperand r g b
  | .thresh r g b => rgbOperand r g b
  | .nop => 0#24
  | .nclr => 0#24
  | .start => 0#24
  | .finish => 0#24
  | .abort => 0#24

/-- A command's word is its opcode followed by its operand field (R69). -/
theorem encode_eq_opWord (i : Instr) : encode i = opWord i.op i.operand := by
  cases i <;> rfl

/-- The encoder sets no reserved bit (R70). -/
theorem reservedBitSet_operand (i : Instr) : reservedBitSet i.op.format i.operand = false := by
  cases i with
  | setf inv lb => exact reservedBitSet_flagOperand inv lb
  | nbyte byte => exact reservedBitSet_byteOperand byte
  | _ => rfl

/-- The decoder's fields of a command's operand are the command's own (R71 to R74). -/
theorem instr_operand (i : Instr) : i.op.instr i.operand = i := by
  cases i with
  | setf | nbyte | pixel | thresh => simp [Instr.op, Instr.operand, Op.instr]
  | _ => rfl

@[simp] theorem op_instr (op : Op) (v : U24) : (op.instr v).op = op := by
  cases op <;> rfl

/-! ## An operand field with no reserved bit set is its format's fields put together (R70) -/

/-- One bit of a field, as a field of its own. -/
theorem ofBool_getLsbD (v : U24) (i : Nat) : BitVec.ofBool (v.getLsbD i) = v.extractLsb' i 1 := by
  ext j hj
  obtain rfl : j = 0 := by omega
  simp

theorem flagOperand_fields {v : U24} (h : reservedBitSet .f2 v = false) : flagOperand (invField v) (lbField v) = v := by
  have hhigh : v.extractLsb' 2 22 = 0#22 := by simpa [reservedBitSet] using h
  have hlow : v.extractLsb' 2 22 ++ v.extractLsb' 1 1 = v.extractLsb' 1 23 :=
    BitVec.extractLsb'_append_extractLsb'_eq_extractLsb' rfl
  rw [flagOperand, invField, lbField, ofBool_getLsbD, ofBool_getLsbD, ← hhigh, hlow]
  exact BitVec.extractLsb'_append_extractLsb'

theorem byteOperand_field {v : U24} (h : reservedBitSet .b8 v = false) : byteOperand (byteField v) = v := by
  have hhigh : v.extractLsb' 8 16 = 0#16 := by simpa [reservedBitSet] using h
  rw [byteOperand, byteField, ← hhigh]
  exact BitVec.extractLsb'_append_extractLsb'

theorem rgbOperand_fields (v : U24) : rgbOperand (rField v) (gField v) (bField v) = v := by
  have hhigh : v.extractLsb' 16 8 ++ v.extractLsb' 8 8 = v.extractLsb' 8 16 :=
    BitVec.extractLsb'_append_extractLsb'_eq_extractLsb' rfl
  rw [rgbOperand, rField, gField, bField, hhigh]
  exact BitVec.extractLsb'_append_extractLsb'

/-- With no reserved bit set, a command's operand is the field it was decoded from (R70, R76). -/
theorem operand_instr {op : Op} {v : U24} (h : reservedBitSet op.format v = false) : (op.instr v).operand = v := by
  have hz (hf : op.format = .z) : v = 0#24 := by simpa [hf, reservedBitSet] using h
  cases op with
  | setf => exact flagOperand_fields h
  | nbyte => exact byteOperand_field h
  | setw | seth => rfl
  | pixel | thresh => exact rgbOperand_fields v
  | _ => exact (hz rfl).symm

/-! ## The three answers of the decoder (R76) -/

theorem decode_of_ofCode {w : Word} {op : Op} (h : Op.ofCode (opField w) = some op) :
    decode w = if reservedBitSet op.format (operandField w) then .reservedBits
      else .command (op.instr (operandField w)) := by
  simp [decode, h]

theorem decode_eq_reservedOpcode_iff (w : Word) : decode w = .reservedOpcode ↔ Op.ofCode (opField w) = none := by
  cases h : Op.ofCode (opField w) with
  | none => simp [decode, h]
  | some op => rw [decode_of_ofCode h]; split <;> simp

theorem decode_eq_reservedBits_iff {w : Word} {op : Op} (h : Op.ofCode (opField w) = some op) :
    decode w = .reservedBits ↔ reservedBitSet op.format (operandField w) = true := by
  rw [decode_of_ofCode h]; split <;> simp [*]

theorem decode_eq_command_iff (w : Word) (i : Instr) :
    decode w = .command i ↔
      ∃ op, Op.ofCode (opField w) = some op ∧ reservedBitSet op.format (operandField w) = false ∧
        op.instr (operandField w) = i := by
  cases h : Op.ofCode (opField w) with
  | none => simp [decode, h]
  | some op => rw [decode_of_ofCode h]; split <;> simp [*]

theorem decode_encode (i : Instr) : decode (encode i) = .command i := by
  rw [encode_eq_opWord, decode_opWord, reservedBitSet_operand, instr_operand]
  rfl

theorem encode_of_decode {w : Word} {i : Instr} (h : decode w = .command i) : encode i = w := by
  obtain ⟨op, hop, hres, rfl⟩ := (decode_eq_command_iff w i).1 h
  calc encode (op.instr (operandField w))
      = opWord op (operandField w) := by rw [encode_eq_opWord, op_instr, operand_instr hres]
    _ = opField w ++ operandField w := by rw [opWord, code_of_ofCode hop]
    _ = w := (word_eq_append w).symm

/-! ## The reserved words -/

/-- The reserved opcodes (R77). -/
theorem ofCode_eq_none_iff (c : Byte) : Op.ofCode c = none ↔
    (c = 0x06#8 ∨ c = 0x07#8 ∨ c = 0x0C#8 ∨ c = 0x0D#8 ∨ c = 0x0E#8 ∨ 0x10 ≤ c.toNat) := by
  revert c
  decide

/-- The reserved bits of each format (R70, R78). -/
theorem reservedBitSet_iff (f : Format) (w : Word) : reservedBitSet f (operandField w) = true ↔
    ((f = .z ∧ w.extractLsb' 0 24 ≠ 0#24) ∨ (f = .f2 ∧ w.extractLsb' 2 22 ≠ 0#22) ∨
      (f = .b8 ∧ w.extractLsb' 8 16 ≠ 0#16)) := by
  have hsub (start len : Nat) (h : start + len ≤ 24) :
      (operandField w).extractLsb' start len = w.extractLsb' start len :=
    BitVec.extractLsb'_extractLsb'_of_le h
  cases f with
  | z => simp [reservedBitSet, operandField]
  | f2 | b8 => simp [reservedBitSet, hsub]
  | u24 | rgb => simp [reservedBitSet]

end Sys2Proof

/-! PROOFS. The obligations about the decoder and the encoder. -/

namespace Sys2Proof.Machine

/-- Settles O1: the decoder on a word put together from an opcode and its operand. -/
theorem decodeOfEncode : Obligations.DecodeOfEncode := decode_encode

/-- Settles O2: a command's opcode has one code, and its operand is the whole of a field with no reserved bit set. -/
theorem encodeOfDecode : Obligations.EncodeOfDecode := fun _ _ => encode_of_decode

/-- A fault's next state: outside ERROR only STATUS is written, in ERROR nothing (R173, R184). -/
theorem next_raiseFault (c : ErrCode) (s : State) :
    (s.blockState ≠ .error →
      (.next (raiseFault c s) : Host.Outcome State Fault Refusal) = .next { s with blockState := .error, err := c }) ∧
    (s.blockState = .error → (.next (raiseFault c s) : Host.Outcome State Fault Refusal) = .next s) :=
  ⟨fun h => congrArg _ (raiseFault_of_ne h c), fun h => congrArg _ (raiseFault_of_error h c)⟩

theorem accept_of_reservedOpcode {w : Word} (h : decode w = .reservedOpcode) (s : State) :
    accept w s = .next (raiseFault .opcode s) := by
  simp [accept, h]

theorem accept_of_reservedBits {w : Word} (h : decode w = .reservedBits) (s : State) :
    accept w s = .next (raiseFault .reserved s) := by
  simp [accept, h]

/-- Settles O3: the decoder refuses the codes the opcode map does not hold, and such a word only takes the fault. -/
theorem reservedOpcodesFault : Obligations.ReservedOpcodesFault := by
  refine ⟨fun w => ?_, by decide +kernel, rfl, fun w s hw => ?_⟩
  · rw [decode_eq_reservedOpcode_iff, ofCode_eq_none_iff]
  · rw [accept_of_reservedOpcode hw]
    exact next_raiseFault _ s

/-- Settles O4: each format's reserved bits, and a word with one of them set only takes the fault. -/
theorem reservedBitsFault : Obligations.ReservedBitsFault := by
  refine ⟨fun w op h => ?_, ?_, ?_, ?_, ?_, ?_, rfl, fun w s hw => ?_⟩
  · rw [decode_eq_reservedBits_iff h, reservedBitSet_iff]
  · rintro ⟨⟩ <;> decide
  · rintro ⟨⟩ <;> decide
  · rintro ⟨⟩ <;> decide
  · rintro ⟨⟩ <;> decide
  · rintro ⟨⟩ <;> decide
  · rw [accept_of_reservedBits hw]
    exact next_raiseFault _ s

/-- Settles O5: the decoder run on each word. -/
theorem sampleWordsDecode : Obligations.SampleWordsDecode := by
  unfold Obligations.SampleWordsDecode
  decide

end Sys2Proof.Machine
/-! PROOFS. The assembler: what it answers, and the words of its commands. -/

namespace Sys2Proof.Machine

/-! ## What the assembler answers (R81) -/

theorem assemble_of_wellFormed {a : Asm} (h : a.wellFormed = true) : assemble a = some ((expandAsm a).map encode) := by
  simp [assemble, h]

theorem assemble_of_not_wellFormed {a : Asm} (h : a.wellFormed = false) : assemble a = none := by
  simp [assemble, h]

/-- The assembler's answer, from the bounds of the numbers and the words they make where the bounds hold. -/
theorem assemble_eq_ite {a : Asm} {fits : Prop} [Decidable fits] {ws : List Word} (hfits : a.wellFormed = true ↔ fits)
    (hwords : fits → (expandAsm a).map encode = ws) : assemble a = if fits then some ws else none := by
  by_cases h : fits
  · rw [if_pos h, assemble_of_wellFormed (hfits.2 h), hwords h]
  · rw [if_neg h, assemble_of_not_wellFormed (Bool.eq_false_iff.2 fun hwf => h (hfits.1 hwf))]

theorem fitsField_eq_true {bits n : Nat} : fitsField bits n = true ↔ n < 2 ^ bits := decide_eq_true_iff

/-- The value of a field fits it. -/
@[simp] theorem fitsField_toNat {bits : Nat} (v : BitVec bits) : fitsField bits v.toNat = true :=
  fitsField_eq_true.2 v.isLt

@[simp] theorem fitsField_boolToNat (b : Bool) : fitsField 1 b.toNat = true := by cases b <;> rfl

/-- The flag a one-bit number writes. -/
@[simp] theorem decide_boolToNat_eq_one (b : Bool) : decide (b.toNat = 1) = b := by cases b <;> rfl

/-- A number below 2 as a flag and as a one-bit field. -/
theorem ofBool_decide_eq_one {n : Nat} (h : n < 2) : BitVec.ofBool (decide (n = 1)) = BitVec.ofNat 1 n := by
  revert n
  decide

/-! ## The words, written out from the formats (R70) -/

theorem encode_nclr : encode .nclr = 0x04000000#32 := rfl

theorem encode_setw (imm : U24) : encode (.setw imm) = 0x01#8 ++ imm := rfl

theorem encode_seth (imm : U24) : encode (.seth imm) = 0x02#8 ++ imm := rfl

theorem encode_setf (inv lb : Bool) :
    encode (.setf inv lb) = 0x00C00000#30 ++ BitVec.ofBool lb ++ BitVec.ofBool inv := by
  revert inv lb
  decide

theorem encode_setf_decide {inv lb : Nat} (hinv : inv < 2) (hlb : lb < 2) :
    encode (.setf (decide (inv = 1)) (decide (lb = 1))) = 0x00C00000#30 ++ BitVec.ofNat 1 lb ++ BitVec.ofNat 1 inv := by
  rw [encode_setf, ofBool_decide_eq_one hinv, ofBool_decide_eq_one hlb]

theorem encode_nbyte (b : Byte) : encode (.nbyte b) = 0x050000#24 ++ b :=
  BitVec.append_assoc' (x₁ := 0x05#8) (x₂ := 0#16) (x₃ := b)

/-- An RGB command's word: the opcode's code and the three components (R74). -/
theorem opWord_rgbOperand (op : Op) (r g b : Byte) : opWord op (rgbOperand r g b) = op.code ++ r ++ g ++ b := by
  rw [opWord, rgbOperand]
  refine (BitVec.append_assoc' (x₁ := op.code) (x₂ := r ++ g) (x₃ := b)).trans ?_
  exact congrArg (· ++ b) (BitVec.append_assoc' (x₁ := op.code) (x₂ := r) (x₃ := g))

theorem encode_pixel (r g b : Byte) : encode (.pixel r g b) = 0x09#8 ++ r ++ g ++ b := opWord_rgbOperand .pixel r g b

theorem encode_thresh (r g b : Byte) : encode (.thresh r g b) = 0x0A#8 ++ r ++ g ++ b := opWord_rgbOperand .thresh r g b

/-! ## The obligations -/

/-- Settles O6: a field's value fits the field, so the assembler encodes the expansion, and the numbers read back as
the values. -/
theorem pseudoInstructionsExpand : Obligations.PseudoInstructionsExpand := by
  refine ⟨fun s => ?_, fun w h inv lb => ?_, rfl, rfl, fun n r g b => ?_, rfl⟩
  · have hwf : (Asm.name (s.map BitVec.toNat)).wellFormed = true := by simp [Asm.wellFormed]
    simp [assemble_of_wellFormed hwf, expandAsm]
  · have hwf : (Asm.config w.toNat h.toNat inv.toNat lb.toNat).wellFormed = true := by simp [Asm.wellFormed]
    simp [assemble_of_wellFormed hwf, expandAsm]
  · have hwf : (Asm.row n r.toNat g.toNat b.toNat).wellFormed = true := by simp [Asm.wellFormed]
    simp [assemble_of_wellFormed hwf, expandAsm]

/-- Decoding the words of some commands gives the commands back. -/
theorem map_decode_map_encode (is : List Instr) : (is.map encode).map decode = is.map .command := by
  simp [decode_encode]

/-- Settles O7: well-formedness is the bounds, and each form's words are its commands' words written out. -/
theorem assemblerNeverTruncates : Obligations.AssemblerNeverTruncates := by
  intro a
  refine ⟨assemble_of_not_wellFormed, fun h => ⟨_, assemble_of_wellFormed h, map_decode_map_encode _⟩,
    ?setw, ?seth, ?setf, ?nbyte, ?pixel, ?thresh, ?name, ?config, ?row⟩
  case setw =>
    rintro n rfl
    exact assemble_eq_ite fitsField_eq_true fun _ => congrArg ([·]) (encode_setw _)
  case seth =>
    rintro n rfl
    exact assemble_eq_ite fitsField_eq_true fun _ => congrArg ([·]) (encode_seth _)
  case setf =>
    rintro inv lb rfl
    refine assemble_eq_ite (by simp [Asm.wellFormed, fitsField_eq_true]) fun ⟨hinv, hlb⟩ => ?_
    simp [expandAsm, encode_setf_decide hinv hlb]
  case nbyte =>
    rintro n rfl
    exact assemble_eq_ite fitsField_eq_true fun _ => congrArg ([·]) (encode_nbyte _)
  case pixel =>
    rintro r g b rfl
    refine assemble_eq_ite (by simp [Asm.wellFormed, fitsField_eq_true, and_assoc]) fun _ => ?_
    simp [expandAsm, encode_pixel]
  case thresh =>
    rintro r g b rfl
    refine assemble_eq_ite (by simp [Asm.wellFormed, fitsField_eq_true, and_assoc]) fun _ => ?_
    simp [expandAsm, encode_thresh]
  case name =>
    rintro s rfl
    refine assemble_eq_ite (by simp [Asm.wellFormed, fitsField_eq_true]) fun _ => ?_
    simp [expandAsm, encode_nclr, encode_nbyte]
  case config =>
    rintro w h inv lb rfl
    refine assemble_eq_ite (by simp [Asm.wellFormed, fitsField_eq_true, and_assoc]) fun ⟨_, _, hinv, hlb⟩ => ?_
    simp [expandAsm, encode_setw, encode_seth, encode_setf_decide hinv hlb]
  case row =>
    rintro n r g b rfl
    refine assemble_eq_ite (by simp [Asm.wellFormed, fitsField_eq_true, and_assoc]) fun _ => ?_
    simp [expandAsm, encode_pixel]

end Sys2Proof.Machine

/-! PROOFS. The thresholder: the boundary of the threshold function, and what THRESH writes. -/

namespace Sys2Proof.Machine

/-! ## The threshold function -/

/-- A gray of at least 127 is a sum of at least 381: the division drops out of the comparison (R95). -/
theorem light_eq_true_iff (r g b : Byte) : light r g b = true ↔ 381 ≤ r.toNat + g.toNat + b.toNat := by
  rw [light, decide_eq_true_iff, gray, Nat.le_div_iff_mul_le (by decide)]

/-- The gray of three bytes is a byte, so GRAY holds it whole (R34). -/
theorem gray_lt (r g b : Byte) : gray r g b < 2 ^ 8 := by
  unfold gray
  omega

/-- Settles O49: light is a lower bound on the sum, and the sum is monotone in each component. -/
theorem thresholdBoundary : Obligations.ThresholdBoundary := by
  refine ⟨fun r g b => ?_, fun r g b r' g' b' hsum => ?_, fun r g b r' g' b' hr hg hb hlight => ?_⟩
  · rw [Bool.eq_iff_iff, decide_eq_true_iff, light_eq_true_iff]
  · rw [Bool.eq_iff_iff, light_eq_true_iff, light_eq_true_iff, hsum]
  · rw [light_eq_true_iff] at hlight ⊢
    omega

/-! ## THRESH -/

/-- A word of four bytes is the bytes shifted to their places (R69, R74). -/
theorem append_bytes_eq_or (c r g b : Byte) : c ++ r ++ g ++ b =
    (c.setWidth 32 <<< 24 ||| r.setWidth 32 <<< 16 ||| g.setWidth 32 <<< 8 ||| b.setWidth 32) :=
  (BitVec.setWidth_eq _).symm.trans BitVec.setWidth_append_append_append_eq_shiftLeft_setWidth_or

theorem readReg_threshResult (s : State) : readReg s 0x09#8 = s.threshResult.setWidth 32 := rfl

/-- THRESH_RESULT as the host reads it: GRAY in the low byte, LIGHT in bit 8 (R34, R97). -/
theorem setWidth_threshWord (r g b : Byte) : (threshWord r g b).setWidth 32 =
    (BitVec.ofNat 32 (gray r g b) ||| if 127 ≤ gray r g b then 0x100#32 else 0#32) := by
  have hgray : (BitVec.ofNat 8 (gray r g b)).setWidth 32 = BitVec.ofNat 32 (gray r g b) :=
    BitVec.setWidth_ofNat_of_le_of_lt (by decide) (gray_lt r g b)
  have hlight : (BitVec.ofBool (light r g b)).setWidth 32 <<< 8 = if 127 ≤ gray r g b then 0x100#32 else 0#32 := by
    unfold light
    split <;> simp [*]
  rw [threshWord, BitVec.setWidth_append_eq_shiftLeft_setWidth_or, hgray, hlight, BitVec.or_comm]

/-- THRESH is legal in every state that accepts a word (R97, R179). -/
theorem legal_thresh {b : BlockState} (h : b ≠ .emit) : legal .thresh b = true := by
  cases b with
  | emit => exact absurd rfl h
  | idle | load | done | error => rfl

/-- Settles O23: outside EMIT THRESH is legal, and its own effect is the one register write. -/
theorem threshWritesResult : Obligations.ThreshWritesResult := by
  intro r g b s
  refine ⟨(encode_thresh r g b).trans (append_bytes_eq_or _ r g b), fun hne => ?_, acceptedWord_of_emit⟩
  have hexec : exec (.thresh r g b) s = .next { s with threshResult := threshWord r g b } :=
    exec_of_legal (legal_thresh hne)
  exact ⟨_, hexec, rfl, (readReg_threshResult _).trans (setWidth_threshWord r g b)⟩

end Sys2Proof.Machine

/-! PROOFS. The bit packer: START, PIXEL at the cursor, and the buffer an image's pixels leave. -/

namespace Sys2Proof.Machine

/-! ## START -/

/-- Settles O50: the ceiling of a division by 8. -/
theorem rowStrideIsCeiling : Obligations.RowStrideIsCeiling := by
  intro w hpos hlt
  unfold rowStrideOf
  omega

/-- ROW_STRIDE holds the row stride of a 24-bit width whole (R29, R102). -/
theorem toNat_ofNat_rowStrideOf (w : U24) : (BitVec.ofNat 32 (rowStrideOf w.toNat)).toNat = rowStrideOf w.toNat := by
  rw [BitVec.toNat_ofNat, Nat.mod_eq_of_lt (rowStrideOf_lt w)]

/-- BYTE_LENGTH holds the length of an image that fits BUF whole (R30, R111). -/
theorem toNat_ofNat_byteLengthOf {w h : Nat} {n : Word} (hfit : byteLengthOf w h ≤ n.toNat) :
    (BitVec.ofNat 32 (byteLengthOf w h)).toNat = byteLengthOf w h := by
  rw [BitVec.toNat_ofNat, Nat.mod_eq_of_lt (Nat.lt_of_le_of_lt hfit n.isLt)]

/-- With no encode in progress START runs, from the state with the error cleared (R110, R179). -/
theorem exec_start_of_outsideEncode {s : State} (h : outsideEncode s.blockState = true) :
    exec .start s = startEncode (clearError s) := exec_of_legal h

/-- Settles O25: with no encode in progress one case for each outcome of START's checks. -/
theorem startBeginsEncode : Obligations.StartBeginsEncode := by
  refine ⟨rfl, fun s hb => ?_, fun s hl => ?_, fun s => acceptedWord_of_emit, rfl, rfl⟩
  · have ho : outsideEncode s.blockState = true := by rcases hb with h | h | h <;> rw [h] <;> rfl
    rw [exec_start_of_outsideEncode ho]
    refine ⟨fun hzero => startEncode_of_zero hzero,
      fun hw hh hlarge => startEncode_of_large (not_or.2 ⟨hw, hh⟩) hlarge, fun hw hh hfit => ?_⟩
    rcases startEncode_cases s with ⟨hzero, _⟩ | ⟨_, _, hlarge, _⟩ | ⟨_, _, _, m, hstart, hread, _⟩
    · exact absurd hzero (not_or.2 ⟨hw, hh⟩)
    · exact absurd hfit (Nat.not_le.2 hlarge)
    · have hlen := toNat_ofNat_byteLengthOf (w := s.width.toNat) (h := s.height.toNat) hfit
      refine ⟨_, hstart, rfl, toNat_ofNat_rowStrideOf s.width, hlen, fun a ha => ?_, fun a ha => ?_⟩
      · exact (hread a).trans (if_pos (hlen ▸ ha))
      · exact (hread a).trans (if_neg (Nat.not_lt.2 (hlen ▸ ha)))
  · rw [exec_of_illegal (by simp [hl]) (by rw [hl]; rfl)]
    exact (next_raiseFault _ s).1 (by simp [hl])

/-! ## PIXEL at the cursor -/

theorem exec_pixel_of_load {s : State} (h : s.blockState = .load) (r g b : Byte) :
    exec (.pixel r g b) s = packPixel r g b s := exec_of_legal (inLoad_eq_true.2 h)

/-- PIXEL is legal in LOAD alone (R179). -/
theorem exec_pixel_of_ne_load {s : State} (hl : s.blockState ≠ .load) (he : s.blockState ≠ .emit) (r g b : Byte) :
    exec (.pixel r g b) s = .next (raiseFault .sequence s) :=
  exec_of_illegal he (Bool.eq_false_iff.2 fun h => hl (inLoad_eq_true.1 h))

/-- Within a row the cursor moves to the next column (R33). -/
theorem advanceCursor_of_lt {s : State} (h : s.curX.toNat + 1 < s.width.toNat) :
    advanceCursor s = s.withCursor (s.curX + 1#24) s.curY := if_pos h

/-- At the end of a row the cursor moves to the next row (R33). -/
theorem advanceCursor_of_le {s : State} (h : s.width.toNat ≤ s.curX.toNat + 1) :
    advanceCursor s = s.withCursor 0#24 (s.curY + 1#24) := if_neg (Nat.not_lt.2 h)

/-- The cursor moves in raster order (R33, R112). -/
theorem advanceCursor_raster (s : State) :
    (s.curX.toNat + 1 < s.width.toNat →
      (advanceCursor s).curX = s.curX + 1#24 ∧ (advanceCursor s).curY = s.curY) ∧
    (s.width.toNat ≤ s.curX.toNat + 1 →
      (advanceCursor s).curX = 0#24 ∧ (advanceCursor s).curY = s.curY + 1#24) :=
  ⟨fun h => by rw [advanceCursor_of_lt h]; exact ⟨rfl, rfl⟩, fun h => by rw [advanceCursor_of_le h]; exact ⟨rfl, rfl⟩⟩

/-- Settles O26: each clause is a case of PIXEL's own effect, and the cursor's move is one for dark and light pixels. -/
theorem pixelPacksAtCursor : Obligations.PixelPacksAtCursor := by
  intro r g b s
  refine ⟨(encode_pixel r g b).trans (append_bytes_eq_or _ r g b), ?dark, ?light, ?past, ?idleOrDone, ?error,
    acceptedWord_of_emit⟩
  case dark =>
    intro hl hy hgray
    have hdark : light r g b = false := decide_eq_false (Nat.not_le.2 hgray)
    refine ⟨_, (exec_pixel_of_load hl r g b).trans (packPixel_of_dark hy hdark), ?_, advanceCursor_raster s⟩
    rw [advanceCursor_eq]
    rfl
  case light =>
    intro v hl hy hgray ha hv
    have hlight : light r g b = true := decide_eq_true hgray
    refine ⟨_, (exec_pixel_of_load hl r g b).trans (packPixel_of_light hy hlight ha hv), ?_, ?_, fun a hne => ?_,
      advanceCursor_raster (s.withBuf (s.buf.write _ _))⟩
    all_goals rw [advanceCursor_eq]
    · rfl
    · exact Memory.read_write_same _ _ _
    · exact Memory.read_write_other _ _ hne
  case past =>
    intro hl hy
    rw [exec_pixel_of_load hl, packPixel_of_past hy]
    exact (next_raiseFault _ s).1 (by simp [hl])
  case idleOrDone =>
    intro h
    rw [exec_pixel_of_ne_load (by rcases h with h | h <;> simp [h]) (by rcases h with h | h <;> simp [h])]
    exact (next_raiseFault _ s).1 (by rcases h with h | h <;> simp [h])
  case error =>
    intro h
    rw [exec_pixel_of_ne_load (by simp [h]) (by simp [h])]
    exact (next_raiseFault _ s).2 h

/-! ## What changes BUF in LOAD -/

/-- From s to t the bit at the cursor of s is set in BUF, and no other byte changes (R105). -/
def SetsCursorBit (s t : State) : Prop :=
  ∃ v, s.buf.read (pixelAddr s.rowStride.toNat s.curX.toNat s.curY.toNat) = some v ∧
    t.buf = s.buf.write (pixelAddr s.rowStride.toNat s.curX.toNat s.curY.toNat) (v ||| pixelMask s.curX.toNat)

theorem raiseFault_buf (c : ErrCode) (s : State) : (raiseFault c s).buf = s.buf := by rw [raiseFault_frame]

/-- PIXEL writes BUF for a light pixel only (R112). -/
theorem packPixel_buf {r g b : Byte} {s t : State} (h : packPixel r g b s = .next t) :
    t.buf = s.buf ∨ light r g b = true ∧ SetsCursorBit s t := by
  rcases packPixel_next h with ⟨_, rfl⟩ | ⟨_, _, rfl⟩ | ⟨_, hlight, v, _, hv, rfl⟩
  · exact .inl (raiseFault_buf _ s)
  · exact .inl (by rw [advanceCursor_eq]; rfl)
  · exact .inr ⟨hlight, v, hv, by rw [advanceCursor_eq]; rfl⟩

/-- In LOAD a command that does not begin the emission leaves BUF, unless it is a light PIXEL (R108). -/
theorem effect_buf_of_load {i : Instr} {s t : State} (hl : s.blockState = .load) (hi : legal i.op s.blockState = true)
    (h : effect i s = .next t) (ht : t.blockState ≠ .emit) :
    t.buf = s.buf ∨ ∃ r g b, i = .pixel r g b ∧ light r g b = true ∧ SetsCursorBit s t := by
  cases i with
  | setw | seth | setf | nclr | nbyte | start => rw [hl] at hi; cases hi
  | pixel r g b => exact (packPixel_buf h).imp_right fun hset => ⟨r, g, b, rfl, hset⟩
  | finish =>
    rcases finishEncode_next h with ⟨_, rfl⟩ | ⟨_, _, rfl⟩ | ⟨_, _, u, _, rfl⟩
    · exact .inl (raiseFault_buf _ s)
    · exact absurd rfl ht
    · exact absurd rfl ht
  | nop | thresh | abort => cases h; exact .inl rfl

/-- In LOAD a word that does not begin the emission leaves BUF, unless it is a light PIXEL's (R108). -/
theorem accept_buf_of_load {w : Word} {s t : State} (hl : s.blockState = .load) (h : accept w s = .next t)
    (ht : t.blockState ≠ .emit) :
    t.buf = s.buf ∨ ∃ r g b, decode w = .command (.pixel r g b) ∧ light r g b = true ∧ SetsCursorBit s t := by
  rcases accept_next (by simp [hl]) h with ⟨_, rfl⟩ | ⟨_, rfl⟩ | ⟨i, _, _, rfl⟩ | ⟨i, hi, hlegal, heff⟩
  · exact .inl (raiseFault_buf _ s)
  · exact .inl (raiseFault_buf _ s)
  · exact .inl (raiseFault_buf _ s)
  · refine (effect_buf_of_load hl hlegal heff ht).imp_right ?_
    rintro ⟨r, g, b, rfl, hset⟩
    exact ⟨r, g, b, hi, hset⟩

/-- In LOAD a step that is no reset and does not begin the emission leaves BUF, unless it accepts a light PIXEL (R108). -/
theorem step_buf_of_load {s t : State} (hl : s.blockState = .load) (hr : resetAsserted s = false)
    (h : step s = .next t) (ht : t.blockState ≠ .emit) :
    t.buf = s.buf ∨ SetsCursorBit s t ∧
      ∃ w r g b, acceptedWord s = some w ∧ decode w = .command (.pixel r g b) ∧ light r g b = true := by
  rcases step_cases s with ⟨rest, hn, hs⟩ | ⟨w, ha, hs⟩ | ⟨_, _, hs⟩ | ⟨_, rest, _, hs⟩ | ⟨_, i, rest, _, hs⟩ |
    ⟨_, w, rest, _, _, hs⟩ <;> rw [hs] at h
  · rw [resetAsserted_eq_true.2 ⟨rest, hn⟩] at hr; cases hr
  · refine (accept_buf_of_load (s := s.withPort none) hl h ht).imp_right ?_
    rintro ⟨r, g, b, hw, hlight, hset⟩
    exact ⟨hset, w, r, g, b, ha, hw, hlight⟩
  · cases h; exact .inl rfl
  · rw [outputStep_frame h]; exact .inl rfl
  · cases h; exact .inl rfl
  · cases h; exact .inl rfl

/-- Settles O41: the one write to BUF in LOAD is a light PIXEL's, and it ORs the cursor's mask into the cursor's byte. -/
theorem bitsOnlySetDuringLoad : Obligations.BitsOnlySetDuringLoad := by
  intro s t a v hl hr h ht hv
  rcases step_buf_of_load hl hr h ht with hsame | ⟨⟨u, hu, hset⟩, hpixel⟩
  · exact .inl (by rw [hsame, hv])
  · by_cases ha : a = pixelAddr s.rowStride.toNat s.curX.toNat s.curY.toNat
    · obtain rfl : v = u := Option.some.inj (hv.symm.trans (ha ▸ hu))
      exact .inr ⟨ha, by rw [hset, ← ha, Memory.read_write_same], hpixel⟩
    · exact .inl (by rw [hset, Memory.read_write_other _ _ ha, hv])

end Sys2Proof.Machine

/-! PROOFS. The packed buffer: a byte of R107's sum column by column, and BUF pixel by pixel. -/

namespace Sys2Proof.Machine

/-! ## The columns of a byte -/

theorem getMsbD_pixelMask (x : Nat) {p : Nat} (hp : p < 8) : (pixelMask x).getMsbD p = decide (x % 8 = p) := by
  have hall : ∀ q p : Fin 8, (0x80#8 >>> q.val).getMsbD p.val = decide (q.val = p.val) := by decide
  exact hall ⟨x % 8, Nat.mod_lt x (by decide)⟩ ⟨p, hp⟩

/-- Every byte is the sum of the masks of its columns that are set (R51). -/
theorem sum_columnMasks (v : Byte) :
    (List.range 8).foldl (fun acc p => acc + if v.getMsbD p then pixelMask p else 0x00#8) 0x00#8 = v := by
  revert v
  decide

/-- The byte whose column p is set exactly when column 8 * j + p of the row lies in the image and is light. -/
def columnByte (w : Nat) (img : Image) (y j : Nat) : Byte :=
  BitVec.ofFnBE fun p : Fin 8 => decide (8 * j + p < w ∧ lightPixel (img (8 * j + p) y) = true)

theorem getMsbD_columnByte (w : Nat) (img : Image) (y j : Nat) {p : Nat} (hp : p < 8) :
    (columnByte w img y j).getMsbD p = decide (8 * j + p < w ∧ lightPixel (img (8 * j + p) y) = true) := by
  rw [columnByte, BitVec.getMsbD_ofFnBE, dif_pos hp]

/-- R107's sum has the term of each column in a bit of its own. -/
theorem packedByte_eq_columnByte (w : Nat) (img : Image) (y j : Nat) : packedByte w img y j = columnByte w img y j := by
  refine Eq.trans (List.foldl_ext _ _ _ fun acc p hp => ?_) (sum_columnMasks (columnByte w img y j))
  rw [getMsbD_columnByte w img y j (List.mem_range.1 hp), packedBit]
  simp only [decide_eq_true_iff]

/-- Column p of a packed byte (R107). -/
theorem getMsbD_packedByte (w : Nat) (img : Image) (y j : Nat) {p : Nat} (hp : p < 8) :
    (packedByte w img y j).getMsbD p = decide (8 * j + p < w ∧ lightPixel (img (8 * j + p) y) = true) := by
  rw [packedByte_eq_columnByte, getMsbD_columnByte w img y j hp]

/-- With no column packed every byte is 0. -/
theorem packedByte_zero (img : Image) (y j : Nat) : packedByte 0 img y j = 0x00#8 :=
  BitVec.eq_of_getMsbD_eq fun p hp => by simp [getMsbD_packedByte _ _ _ _ hp]

/-- One more column leaves the other bytes of its row as they are. -/
theorem packedByte_succ_of_ne {x j : Nat} (h : j ≠ x / 8) (img : Image) (y : Nat) :
    packedByte (x + 1) img y j = packedByte x img y j := by
  refine BitVec.eq_of_getMsbD_eq fun p hp => ?_
  have hcol : 8 * j + p < x + 1 ↔ 8 * j + p < x := by omega
  simp only [getMsbD_packedByte _ _ _ _ hp, hcol]

/-- One more column puts its bit into its byte exactly when it is light (R105, R107). -/
theorem packedByte_succ (x : Nat) (img : Image) (y : Nat) :
    packedByte (x + 1) img y (x / 8) =
      if lightPixel (img x y) = true then packedByte x img y (x / 8) ||| pixelMask x else packedByte x img y (x / 8) := by
  refine BitVec.eq_of_getMsbD_eq fun p hp => ?_
  have hnew := getMsbD_packedByte (x + 1) img y (x / 8) hp
  have hold := getMsbD_packedByte x img y (x / 8) hp
  have hmask := getMsbD_pixelMask x hp
  by_cases hx : x % 8 = p
  · -- the new column's own bit, clear until now
    have hcol : 8 * (x / 8) + p = x := by omega
    simp only [hcol, Nat.lt_irrefl, Nat.lt_succ_self, true_and, false_and, decide_false] at hnew hold
    split <;> simp [hnew, hold, hmask, hx, *]
  · -- any other bit
    have hcol : 8 * (x / 8) + p < x + 1 ↔ 8 * (x / 8) + p < x := by omega
    simp only [hcol, ← hold] at hnew
    split <;> simp [hnew, hmask, hx]

/-! ## One pixel -/

/-- PIXEL before the last pixel, dark or light: the cursor's byte takes the bit of a light pixel, and the cursor moves
(R105, R112). -/
theorem packPixel_ok {s : State} {v : Byte} (r g b : Byte) (hy : s.curY ≠ s.height)
    (ha : pixelAddr s.rowStride.toNat s.curX.toNat s.curY.toNat < s.params.bufBytes.toNat)
    (hv : s.buf.read (pixelAddr s.rowStride.toNat s.curX.toNat s.curY.toNat) = some v) :
    ∃ m, packPixel r g b s = .next (advanceCursor (s.withBuf m)) ∧
      ∀ a, m.read a = if a = pixelAddr s.rowStride.toNat s.curX.toNat s.curY.toNat then
        some (if light r g b = true then v ||| pixelMask s.curX.toNat else v) else s.buf.read a := by
  cases hlight : light r g b with
  | false =>
    refine ⟨s.buf, packPixel_of_dark hy hlight, fun a => ?_⟩
    split
    · simp [*]
    · rfl
  | true => exact ⟨_, packPixel_of_light hy hlight ha hv, fun a => Memory.read_write _ _ _ _⟩

/-! ## BUF pixel by pixel -/

/-- How many columns of row y' are packed when the next pixel is column x of row y (R33). -/
def packedColumns (w x y y' : Nat) : Nat := if y' < y then w else if y' = y then x else 0

theorem packedColumns_self (w x y : Nat) : packedColumns w x y y = x := by simp [packedColumns]

theorem packedColumns_of_lt {y y' : Nat} (h : y' < y) (w x : Nat) : packedColumns w x y y' = w := if_pos h

/-- Only its own row sees a column packed. -/
theorem packedColumns_of_ne {y y' : Nat} (h : y' ≠ y) (w x x' : Nat) :
    packedColumns w x y y' = packedColumns w x' y y' := by simp [packedColumns, h]

/-- The end of a row is the start of the next one. -/
theorem packedColumns_nextRow (w y y' : Nat) : packedColumns w 0 (y + 1) y' = packedColumns w w y y' := by
  unfold packedColumns
  split_ifs <;> omega

/-- BUF after the pixels of the rows before y and the first x columns of row y, from the encode's START in s: each byte of
the extent is R107's sum over the columns packed so far, and no other byte has changed. -/
structure PackedTo (s : State) (img : Image) (x y : Nat) (m : Memory) : Prop where
  bytes : ∀ y' j, y' < s.height.toNat → j < s.rowStride.toNat →
    m.read (y' * s.rowStride.toNat + j) = some (packedByte (packedColumns s.width.toNat x y y') img y' j)
  above : ∀ a, s.byteLength.toNat ≤ a → m.read a = s.buf.read a

/-- Byte j of row y' lies in the extent (R50, R53). -/
theorem DimsAgree.byteAddr_lt {s : State} (hd : DimsAgree s) {y j : Nat} (hy : y < s.height.toNat)
    (hj : j < s.rowStride.toNat) : y * s.rowStride.toNat + j < s.byteLength.toNat := by
  have hlt : pixelAddr s.rowStride.toNat (8 * j) y < s.height.toNat * s.rowStride.toNat := pixelAddr_lt (by omega) hy
  rw [pixelAddr, Nat.mul_div_cancel_left j (by decide)] at hlt
  rwa [hd.byteLengthIs, byteLengthOf, ← hd.rowStrideIs]

/-- A byte of the extent has the address of its own columns only (R50). -/
theorem byteAddr_ne_pixelAddr {rs x y j y' : Nat} (hx : x < rs * 8) (hj : j < rs) (h : ¬(y' = y ∧ j = x / 8)) :
    y' * rs + j ≠ pixelAddr rs x y := fun heq => by
  have hcol : pixelAddr rs (8 * j) y' = y' * rs + j := by rw [pixelAddr, Nat.mul_div_cancel_left j (by decide)]
  obtain ⟨hbyte, hrow⟩ := pixelAddr_inj (by omega) hx (hcol.trans heq)
  exact h ⟨hrow, by omega⟩

/-- The zeroed buffer has no column packed (R104). -/
theorem PackedTo.start {s : State} (img : Image) (hd : DimsAgree s)
    (hzero : ∀ a, a < s.byteLength.toNat → s.buf.read a = some 0x00#8) : PackedTo s img 0 0 s.buf where
  bytes y' j hy' hj := by
    have hnone : packedColumns s.width.toNat 0 0 y' = 0 := by simp [packedColumns]
    rw [hnone, packedByte_zero, hzero _ (hd.byteAddr_lt hy' hj)]
  above _ _ := rfl

theorem PackedTo.nextRow {s : State} {img : Image} {y : Nat} {m : Memory} (h : PackedTo s img s.width.toNat y m) :
    PackedTo s img 0 (y + 1) m where
  bytes y' j hy' hj := by rw [packedColumns_nextRow, h.bytes y' j hy' hj]
  above := h.above

/-- The byte of the next pixel, before it is packed. -/
theorem PackedTo.read_next {s : State} {img : Image} {x y : Nat} {m : Memory} (h : PackedTo s img x y m)
    (hx : x / 8 < s.rowStride.toNat) (hy : y < s.height.toNat) :
    m.read (pixelAddr s.rowStride.toNat x y) = some (packedByte x img y (x / 8)) := by
  rw [pixelAddr, h.bytes y (x / 8) hy hx, packedColumns_self]

/-- Packing the next pixel's column into its byte packs one column more (R105, R107). -/
theorem PackedTo.succ {s : State} {img : Image} {x y : Nat} {m n : Memory} (h : PackedTo s img x y m)
    (hx : x < s.rowStride.toNat * 8) (hlt : pixelAddr s.rowStride.toNat x y < s.byteLength.toNat)
    (hread : ∀ a, n.read a = if a = pixelAddr s.rowStride.toNat x y then some (packedByte (x + 1) img y (x / 8))
      else m.read a) : PackedTo s img (x + 1) y n where
  bytes y' j hy' hj := by
    by_cases hcell : y' = y ∧ j = x / 8
    · obtain ⟨rfl, rfl⟩ := hcell
      rw [hread, packedColumns_self]
      exact if_pos rfl
    · rw [hread, if_neg (byteAddr_ne_pixelAddr hx hj hcell), h.bytes y' j hy' hj]
      by_cases hrow : y' = y
      · subst hrow
        rw [packedColumns_self, packedColumns_self, packedByte_succ_of_ne fun hbyte => hcell ⟨rfl, hbyte⟩]
      · rw [packedColumns_of_ne hrow]
  above a ha := by rw [hread, if_neg (by omega), h.above a ha]

/-! ## The cursor pixel by pixel -/

/-- s with BUF m and the cursor at column x of row y, or at the start of the next row when x is the row's end (R33). -/
def State.atPixel (s : State) (m : Memory) (x y : Nat) : State :=
  (s.withBuf m).withCursor (BitVec.ofNat 24 (if x < s.width.toNat then x else 0))
    (BitVec.ofNat 24 (if x < s.width.toNat then y else y + 1))

theorem State.atPixel_of_lt (s : State) (m : Memory) {x : Nat} (hx : x < s.width.toNat) (y : Nat) :
    s.atPixel m x y = (s.withBuf m).withCursor (BitVec.ofNat 24 x) (BitVec.ofNat 24 y) := by
  rw [State.atPixel, if_pos hx, if_pos hx]

/-- The end of a row is the start of the next one. -/
theorem State.atPixel_nextRow (s : State) (m : Memory) (hw : 0 < s.width.toNat) (y : Nat) :
    s.atPixel m s.width.toNat y = s.atPixel m 0 (y + 1) := by
  simp [State.atPixel, hw]

@[simp] theorem State.atPixel_buf (s : State) (m : Memory) (x y : Nat) : (s.atPixel m x y).buf = m := rfl
@[simp] theorem State.atPixel_withBuf (s : State) (m n : Memory) (x y : Nat) :
    (s.atPixel m x y).withBuf n = s.atPixel n x y := rfl

theorem State.atPixel_curX_toNat (s : State) (m : Memory) {x : Nat} (hx : x < s.width.toNat) (y : Nat) :
    (s.atPixel m x y).curX.toNat = x := by
  rw [s.atPixel_of_lt m hx, State.withCursor_curX, BitVec.toNat_ofNat, Nat.mod_eq_of_lt (hx.trans s.width.isLt)]

theorem State.atPixel_curY_toNat (s : State) (m : Memory) {x y : Nat} (hx : x < s.width.toNat) (hy : y < s.height.toNat) :
    (s.atPixel m x y).curY.toNat = y := by
  rw [s.atPixel_of_lt m hx, State.withCursor_curY, BitVec.toNat_ofNat, Nat.mod_eq_of_lt (hy.trans s.height.isLt)]

/-- The cursor's move is one column further (R33, R112). -/
theorem advanceCursor_atPixel {s : State} (m : Memory) {x : Nat} (hx : x < s.width.toNat) (y : Nat) :
    advanceCursor (s.atPixel m x y) = s.atPixel m (x + 1) y := by
  have hcurX : (s.atPixel m x y).curX.toNat + 1 = x + 1 := congrArg (· + 1) (s.atPixel_curX_toNat m hx y)
  by_cases hnext : x + 1 < s.width.toNat
  · rw [advanceCursor_of_lt (hcurX.trans_lt hnext), s.atPixel_of_lt m hx, s.atPixel_of_lt m hnext, BitVec.ofNat_add]
    rfl
  · rw [advanceCursor_of_le (s := s.atPixel m x y) ((Nat.le_of_not_lt hnext).trans_eq hcurX.symm),
      s.atPixel_of_lt m hx, State.atPixel, if_neg hnext, if_neg hnext, BitVec.ofNat_add]
    rfl

/-- The PIXEL of column x of row y, with the cursor there, packs that column (R107, R112). -/
theorem PackedTo.exec_pixel {s : State} {img : Image} {x y : Nat} {m : Memory} (h : PackedTo s img x y m)
    (hl : s.blockState = .load) (hd : DimsAgree s) (hfit : s.byteLength.toNat ≤ s.params.bufBytes.toNat)
    (hx : x < s.width.toNat) (hy : y < s.height.toNat) :
    ∃ n, exec (pixelCommand (img x y)) (s.atPixel m x y) = .next (s.atPixel n (x + 1) y) ∧ PackedTo s img (x + 1) y n := by
  have hcurX := s.atPixel_curX_toNat m hx y
  have hcurY := s.atPixel_curY_toNat m hx hy
  have hpad : x < s.rowStride.toNat * 8 := by rw [hd.rowStrideIs, rowStrideOf]; omega
  have hlt : pixelAddr s.rowStride.toNat x y < s.byteLength.toNat := hd.byteAddr_lt hy (by omega)
  have hbefore : (s.atPixel m x y).curY ≠ s.height := fun heq => by
    rw [heq] at hcurY
    omega
  obtain ⟨n, hn, hread⟩ := packPixel_ok (s := s.atPixel m x y) (img x y).1 (img x y).2.1 (img x y).2.2 hbefore
    (by rw [hcurX, hcurY]; exact Nat.lt_of_lt_of_le hlt hfit)
    (by rw [hcurX, hcurY]; exact h.read_next (by omega) hy)
  rw [hcurX, hcurY] at hread
  rw [State.atPixel_withBuf, advanceCursor_atPixel n hx] at hn
  refine ⟨n, (exec_pixel_of_load (s := s.atPixel m x y) hl _ _ _).trans hn, h.succ hpad hlt fun a => ?_⟩
  rw [packedByte_succ]
  exact hread a

/-! ## All the pixels -/

theorem execAll_append {is js : List Instr} {s t : State} (h : execAll is s = .next t) :
    execAll (is ++ js) s = execAll js t := by
  induction is generalizing s with
  | nil => cases h; rfl
  | cons i is ih =>
    simp only [execAll] at h
    split at h
    · rename_i u hu
      rw [List.cons_append, execAll_cons hu, ih h]
    · cases h
    · cases h

/-- Groups of commands each of which moves `P i` to `P (i + 1)` run one after another to `P` of their number. -/
theorem execAll_flatMap_range {f : Nat → List Instr} {P : Nat → State → Prop} {n : Nat} {s : State}
    (hstep : ∀ i t, i < n → P i t → ∃ u, execAll (f i) t = .next u ∧ P (i + 1) u) (h : P 0 s) :
    ∃ t, execAll ((List.range n).flatMap f) s = .next t ∧ P n t := by
  induction n with
  | zero => exact ⟨s, rfl, h⟩
  | succ n ih =>
    obtain ⟨t, ht, hp⟩ := ih fun i t hi => hstep i t (Nat.lt_succ_of_lt hi)
    obtain ⟨u, hu, hq⟩ := hstep n t (Nat.lt_succ_self n) hp
    refine ⟨u, ?_, hq⟩
    rw [List.range_succ, List.flatMap_append, List.flatMap_singleton, execAll_append ht, hu]

/-- The PIXELs of row y pack it (R114). -/
theorem PackedTo.execAll_row {s : State} {img : Image} {y : Nat} {m : Memory} (h : PackedTo s img 0 y m)
    (hl : s.blockState = .load) (hd : DimsAgree s) (hfit : s.byteLength.toNat ≤ s.params.bufBytes.toNat)
    (hy : y < s.height.toNat) :
    ∃ n, execAll (rowCommands s.width.toNat img y) (s.atPixel m 0 y) = .next (s.atPixel n 0 (y + 1)) ∧
      PackedTo s img 0 (y + 1) n := by
  obtain ⟨t, ht, n, rfl, hn⟩ := execAll_flatMap_range (f := fun x => [pixelCommand (img x y)])
    (P := fun x t => ∃ n, t = s.atPixel n x y ∧ PackedTo s img x y n) (n := s.width.toNat)
    (by
      rintro x _ hx ⟨n, rfl, hn⟩
      obtain ⟨n', hexec, hn'⟩ := hn.exec_pixel hl hd hfit hx hy
      exact ⟨_, execAll_cons hexec [], n', rfl, hn'⟩)
    ⟨m, rfl, h⟩
  refine ⟨n, ?_, hn.nextRow⟩
  rw [rowCommands, List.map_eq_flatMap, ht, s.atPixel_nextRow n hd.widthPos]

/-- The PIXELs of an image pack it (R107, R114). -/
theorem execAll_pixelCommands {s : State} (img : Image) (hl : s.blockState = .load) (hd : DimsAgree s)
    (hfit : s.byteLength.toNat ≤ s.params.bufBytes.toNat) (hx : s.curX = 0#24) (hy : s.curY = 0#24)
    (hzero : ∀ a, a < s.byteLength.toNat → s.buf.read a = some 0x00#8) :
    ∃ n, execAll (pixelCommands s.width.toNat s.height.toNat img) s = .next (s.atPixel n 0 s.height.toNat) ∧
      PackedTo s img 0 s.height.toNat n := by
  have hstart : s = s.atPixel s.buf 0 0 :=
    calc s = (s.withBuf s.buf).withCursor s.curX s.curY := rfl
      _ = s.atPixel s.buf 0 0 := by rw [hx, hy, s.atPixel_of_lt s.buf hd.widthPos]
  obtain ⟨t, ht, n, rfl, hn⟩ := execAll_flatMap_range (f := rowCommands s.width.toNat img)
    (P := fun y t => ∃ n, t = s.atPixel n 0 y ∧ PackedTo s img 0 y n) (n := s.height.toNat)
    (by
      rintro y _ hy ⟨n, rfl, hn⟩
      obtain ⟨n', hexec, hn'⟩ := hn.execAll_row hl hd hfit hy
      exact ⟨_, hexec, n', rfl, hn'⟩)
    ⟨s.buf, hstart, .start img hd hzero⟩
  exact ⟨n, ht, hn⟩

/-- Settles O40: the rows before the height are all of the image's, and each is packed to its end. -/
theorem packedBufferClosedForm : Obligations.PackedBufferClosedForm := by
  intro s img hl hd hfit hx hy hzero
  obtain ⟨n, hexec, hn⟩ := execAll_pixelCommands img hl hd hfit hx hy hzero
  refine ⟨_, hexec, ?_, fun y j hy hj => ?_, hn.above⟩
  · rw [s.atPixel_of_lt n hd.widthPos, BitVec.ofNat_toNat, BitVec.setWidth_eq]
    rfl
  · rw [State.atPixel_buf, hn.bytes y j hy hj, packedColumns_of_lt hy]

end Sys2Proof.Machine

/-! PROOFS. The polarity inverter: its closed form, and what inverting twice leaves. -/

namespace Sys2Proof.Machine

/-! ## The columns of an inverted byte -/

/-- Column p of byte j of a row is a data bit exactly when it lies in the image (R123). -/
theorem getMsbD_dataMask (w j : Nat) {p : Nat} (hp : p < 8) : (dataMask w j).getMsbD p = decide (8 * j + p < w) := by
  have hall : ∀ (q : Fin 9) (p : Fin 8), (0xFF#8 <<< (8 - q.val)).getMsbD p.val = decide (p.val < q.val) := by decide
  have hvalid : validBits w j < 9 := by unfold validBits; omega
  have hcol : p < validBits w j ↔ 8 * j + p < w := by unfold validBits; omega
  rw [dataMask, hall ⟨validBits w j, hvalid⟩ ⟨p, hp⟩, decide_eq_decide]
  exact hcol

/-- Column p of an inverted byte: complemented in the image, 0 in the padding (R123). -/
theorem getMsbD_invertedByte (w a : Nat) (v : Byte) {p : Nat} (hp : p < 8) :
    (invertedByte w a v).getMsbD p = (!v.getMsbD p && decide (8 * (a % rowStrideOf w) + p < w)) := by
  rw [invertedByte, BitVec.getMsbD_and, BitVec.getMsbD_not, getMsbD_dataMask w _ hp, decide_eq_true hp, Bool.true_and]

/-- The second inversion complements the data bits back and leaves the padding 0 (R126). -/
theorem invertedByte_invertedByte (w a : Nat) (v : Byte) :
    invertedByte w a (invertedByte w a v) = v &&& dataMask w (a % rowStrideOf w) := by
  refine BitVec.eq_of_getMsbD_eq fun p hp => ?_
  rw [getMsbD_invertedByte w a _ hp, getMsbD_invertedByte w a v hp, BitVec.getMsbD_and, getMsbD_dataMask w _ hp]
  cases decide (8 * (a % rowStrideOf w) + p < w) <;> simp

/-- No byte is its own inverse: its first column is one of the image (R127). -/
theorem invertedByte_ne_self {w : Nat} (hw : 0 < w) (a : Nat) (v : Byte) : invertedByte w a v ≠ v := by
  intro heq
  have hrow : a % rowStrideOf w < rowStrideOf w := Nat.mod_lt a (by unfold rowStrideOf; omega)
  have hdata : 8 * (a % rowStrideOf w) + 0 < w := by unfold rowStrideOf at hrow ⊢; omega
  have hbit := getMsbD_invertedByte w a v (p := 0) (by decide)
  rw [heq, decide_eq_true hdata, Bool.and_true] at hbit
  exact (Bool.eq_not_self _).1 hbit

/-! ## A byte whose padding is clear -/

theorem getMsbD_eq_false_of_and_pixelMask {v : Byte} {x : Nat} (h : v &&& pixelMask x = 0x00#8) :
    v.getMsbD (x % 8) = false := by
  have hbit := congrArg (BitVec.getMsbD · (x % 8)) h
  simpa [BitVec.getMsbD_and, getMsbD_pixelMask x (Nat.mod_lt x (by decide))] using hbit

theorem DimsAgree.rowStride_pos {s : State} (hd : DimsAgree s) : 0 < s.rowStride.toNat := by
  have hw := hd.widthPos
  rw [hd.rowStrideIs, rowStrideOf]
  omega

/-- The extent holds at least one byte (R103). -/
theorem DimsAgree.byteLength_pos {s : State} (hd : DimsAgree s) : 0 < s.byteLength.toNat :=
  Nat.zero_lt_of_lt (hd.byteAddr_lt hd.heightPos hd.rowStride_pos)

/-- Every address of the extent is a byte of a row of the image (R50, R103). -/
theorem DimsAgree.row_lt {s : State} (hd : DimsAgree s) {a : Nat} (ha : a < s.byteLength.toNat) :
    a / s.rowStride.toNat < s.height.toNat := by
  rw [hd.byteLengthIs, byteLengthOf, ← hd.rowStrideIs, Nat.mul_comm] at ha
  exact Nat.div_lt_of_lt_mul ha

/-- With the padding clear a byte's set bits are all data bits (R54, R123). -/
theorem and_dataMask_of_paddingClear {s : State} (hd : DimsAgree s) (hp : paddingClear s) {a : Nat} {v : Byte}
    (ha : a < s.byteLength.toNat) (hv : s.buf.read a = some v) :
    v &&& dataMask s.width.toNat (a % s.rowStride.toNat) = v := by
  refine BitVec.eq_of_getMsbD_eq fun p hp8 => ?_
  rw [BitVec.getMsbD_and, getMsbD_dataMask _ _ hp8]
  by_cases hdata : 8 * (a % s.rowStride.toNat) + p < s.width.toNat
  · rw [decide_eq_true hdata, Bool.and_true]
  · -- a padding column: `paddingClear` says that its bit is 0
    have hcol := Nat.mod_lt a hd.rowStride_pos
    have haddr : pixelAddr s.rowStride.toNat (8 * (a % s.rowStride.toNat) + p) (a / s.rowStride.toNat) = a := by
      have hbyte : (8 * (a % s.rowStride.toNat) + p) / 8 = a % s.rowStride.toNat := by omega
      rw [pixelAddr, hbyte, Nat.div_add_mod']
    obtain ⟨v', hv', hclear⟩ := bufBit_eq_false_iff.1
      (hp (8 * (a % s.rowStride.toNat) + p) (a / s.rowStride.toNat) (hd.row_lt ha) (by omega) (by omega))
    rw [haddr, hv] at hv'
    obtain rfl : v = v' := Option.some.inj hv'
    have hbit := getMsbD_eq_false_of_and_pixelMask hclear
    rw [Nat.mul_add_mod, Nat.mod_eq_of_lt hp8] at hbit
    rw [hbit, Bool.false_and]

/-! ## Buffers mapped byte by byte -/

theorem BufMapped.read_eq_some {s t : State} {f : Nat → Byte → Byte} (h : BufMapped s f t) {a : Nat} {v : Byte}
    (hv : s.buf.read a = some v) : t.buf.read a = some (f a v) := by
  rw [h.bytes, hv, Option.map_some]

/-- An address whose byte the map keeps reads as before. -/
theorem BufMapped.read_eq_of_fixed {s t : State} {f : Nat → Byte → Byte} (h : BufMapped s f t) {a : Nat}
    (hf : ∀ v, s.buf.read a = some v → f a v = v) : t.buf.read a = s.buf.read a := by
  cases hv : s.buf.read a with
  | none => rw [h.bytes, hv, Option.map_none]
  | some v => rw [h.read_eq_some hv, hf v hv]

theorem BufMapped.dimsAgree {s t : State} {f : Nat → Byte → Byte} (h : BufMapped s f t) (hd : DimsAgree s) :
    DimsAgree t :=
  hd.of_eq h.width (by rw [h.rest]; rfl) h.rowStride h.byteLength

/-! ## The inverter -/

/-- An inversion of the configured image is the map of R123. -/
theorem invertBuf_mapped {s t : State} (hd : DimsAgree s) (hb : s.byteLength.toNat ≤ s.params.bufBytes.toNat)
    (hc : s.buf.covers s.byteLength.toNat) (h : invertBuf s = .ok t) :
    BufMapped s (fun a v => if a < s.byteLength.toNat then invertedByte s.width.toNat a v else v) t := by
  obtain ⟨t', ht', hmap⟩ := invertBuf_ok hd hb hc
  obtain rfl : t' = t := Except.ok.inj (ht'.symm.trans h)
  exact hmap

/-- After an inversion of the configured image, a second one is again the map of R123. -/
theorem invertBuf_mapped_again {s t u : State} (hd : DimsAgree s) (hb : s.byteLength.toNat ≤ s.params.bufBytes.toNat)
    (hc : s.buf.covers s.byteLength.toNat) (ht : invertBuf s = .ok t) (hu : invertBuf t = .ok u) :
    BufMapped t (fun a v => if a < s.byteLength.toNat then invertedByte s.width.toNat a v else v) u := by
  have hmap := invertBuf_mapped hd hb hc ht
  have hagain := invertBuf_mapped (hmap.dimsAgree hd) (by rwa [hmap.byteLength, hmap.params])
    (fun a ha => hmap.read_some (hc a (hmap.byteLength ▸ ha))) hu
  rwa [hmap.byteLength, hmap.width] at hagain

/-- Inverting twice masks every byte of the extent to its data bits (R126). -/
theorem invertBuf_twice_mapped {s t u : State} (hd : DimsAgree s) (hb : s.byteLength.toNat ≤ s.params.bufBytes.toNat)
    (hc : s.buf.covers s.byteLength.toNat) (ht : invertBuf s = .ok t) (hu : invertBuf t = .ok u) :
    BufMapped s (fun a v =>
      if a < s.byteLength.toNat then v &&& dataMask s.width.toNat (a % s.rowStride.toNat) else v) u := by
  refine ((invertBuf_mapped hd hb hc ht).trans (invertBuf_mapped_again hd hb hc ht hu)).congr fun a v => ?_
  by_cases ha : a < s.byteLength.toNat
  · simp only [if_pos ha, invertedByte_invertedByte, hd.rowStrideIs]
  · simp only [if_neg ha]

/-- Settles O44: the two loops are one map of the extent's bytes. -/
theorem invertClosedForm : Obligations.InvertClosedForm := by
  intro s hd hb hc
  obtain ⟨t, ht, hmap⟩ := invertBuf_ok hd hb hc
  refine ⟨t, ht, hmap.rest, fun a v ha hv => ?_, fun a ha => ?_, paddingClear_of_inverted hd hc hmap⟩
  · rw [hmap.read_eq_some hv, if_pos ha, hd.rowStrideIs]
    rfl
  · exact hmap.read_eq_of_fixed fun v _ => if_neg (Nat.not_lt.2 ha)

/-- Settles O45: two maps of R123 mask each byte to its data bits, and the second changes the first byte, as it would
any. -/
theorem invertTwice : Obligations.InvertTwice := by
  intro s t u hd hb hc ht hu
  have htwice := invertBuf_twice_mapped hd hb hc ht hu
  refine ⟨fun a v ha hv => ?_, fun hp a => ?_, 0, ?_, ?_⟩
  · rw [htwice.read_eq_some hv, if_pos ha]
  · refine htwice.read_eq_of_fixed fun v hv => ?_
    split
    · exact and_dataMask_of_paddingClear hd hp ‹_› hv
    · rfl
  · exact hd.byteLength_pos
  · obtain ⟨v, hv⟩ := (invertBuf_mapped hd hb hc ht).read_some (hc 0 hd.byteLength_pos)
    rw [(invertBuf_mapped_again hd hb hc ht hu).read_eq_some hv, hv, if_pos hd.byteLength_pos]
    exact fun heq => invertedByte_ne_self hd.widthPos 0 v (Option.some.inj heq)

end Sys2Proof.Machine

/-! PROOFS. The hex serializer: the digit alphabet, and which byte each character comes from. -/

namespace Sys2Proof.Machine

/-! ## The digit alphabet (R131) -/

theorem hexDigit_of_lt {n : BitVec 4} (h : n.toNat < 10) (hc : HexCase) :
    hexDigit hc n = BitVec.ofNat 8 (0x30 + n.toNat) := by
  rw [hexDigit, if_pos h, BitVec.ofNat_add, BitVec.ofNat_toNat]

theorem hexDigit_of_ge {n : BitVec 4} (h : 10 ≤ n.toNat) (hc : HexCase) :
    hexDigit hc n = hexLetter hc + BitVec.ofNat 8 (n.toNat - 10) := by
  rw [hexDigit, if_neg (Nat.not_lt.2 h), ← BitVec.ofNat_sub_ofNat_of_le _ _ (by decide) h, BitVec.ofNat_toNat]

/-- Settles O52: the digits count up from '0', the letters from the case's own first letter. -/
theorem hexDigitAlphabet : Obligations.HexDigitAlphabet := by
  intro n
  refine ⟨hexDigit_of_lt, fun h => ⟨?upper, ?lower⟩⟩
  case upper => rw [hexDigit_of_ge h, hexLetter, BitVec.ofNat_add]
  case lower => rw [hexDigit_of_ge h, hexLetter, BitVec.ofNat_add]

/-! ## The characters of the hex string (R129, R130) -/

/-- The nibble of its byte that the character at index k shows: the high one where k is even (R130). -/
def nibbleAt (k : Nat) (v : Byte) : BitVec 4 := if k % 2 = 0 then v.extractLsb' 4 4 else v.extractLsb' 0 4

theorem nibbleAt_eq_ofNat (k : Nat) (v : Byte) :
    nibbleAt k v = if k % 2 = 0 then BitVec.ofNat 4 (v.toNat / 16) else BitVec.ofNat 4 (v.toNat % 16) := by
  have hhigh : v.extractLsb' 4 4 = BitVec.ofNat 4 (v.toNat / 16) :=
    congrArg (BitVec.ofNat 4) (Nat.shiftRight_eq_div_pow v.toNat 4)
  have hlow : v.extractLsb' 0 4 = BitVec.ofNat 4 (v.toNat % 16) :=
    BitVec.eq_of_toNat_eq (by simp)
  rw [nibbleAt, hhigh, hlow]

theorem hexString_cons (hc : HexCase) (v : Byte) (bytes : List Byte) :
    hexString hc (v :: bytes) = hexDigit hc (nibbleAt 0 v) :: hexDigit hc (nibbleAt 1 v) :: hexString hc bytes := rfl

theorem hexString_length (hc : HexCase) (bytes : List Byte) : (hexString hc bytes).length = 2 * bytes.length := by
  induction bytes with
  | nil => rfl
  | cons v bytes ih => rw [hexString_cons, List.length_cons, List.length_cons, ih, List.length_cons]; omega

/-- Character k shows a nibble of byte k / 2 (R130, R133). -/
theorem hexString_getElem? (hc : HexCase) (bytes : List Byte) (k : Nat) :
    (hexString hc bytes)[k]? = bytes[k / 2]?.map fun v => hexDigit hc (nibbleAt k v) := by
  induction bytes generalizing k with
  | nil => rfl
  | cons v bytes ih =>
    match k with
    | 0 => rfl
    | 1 => rfl
    | k + 2 =>
      have hhalf : (k + 2) / 2 = k / 2 + 1 := Nat.add_div_right k (by decide)
      have hnibble (u : Byte) : nibbleAt (k + 2) u = nibbleAt k u := by rw [nibbleAt, Nat.add_mod_right, nibbleAt]
      simp only [hexString_cons, List.getElem?_cons_succ, hhalf, hnibble, ih]

/-- Settles O51: each byte adds two characters, and character k shows the nibble of byte k / 2 its parity names. -/
theorem hexCharacters : Obligations.HexCharacters := by
  refine fun hc bytes => ⟨hexString_length hc bytes, fun k v hv => ?_⟩
  rw [hexString_getElem?, hv, Option.map_some, nibbleAt_eq_ofNat]

end Sys2Proof.Machine

/-! PROOFS. The layout of the emission string: the line breaker row by row, the header, and the bytes E is made of. -/

namespace Sys2Proof.Machine

/-! ## Line breaks row by row (R136) -/

theorem lineBreakFrom_append (every k : Nat) (s t : List Byte) :
    lineBreakFrom every k (s ++ t) = lineBreakFrom every k s ++ lineBreakFrom every (k + s.length) t := by
  induction s generalizing k with
  | nil => rfl
  | cons c s ih =>
    have hnext : k + 1 + s.length = k + (s.length + 1) := by omega
    simp only [List.cons_append, lineBreakFrom, ih, List.length_cons, hnext]
    split <;> rfl

/-- Where no index is a multiple of `every`, there is no break. -/
theorem lineBreakFrom_of_inside {every k : Nat} {s : List Byte} (h : ∀ j, j < s.length → (k + j) % every ≠ 0) :
    lineBreakFrom every k s = s := by
  induction s generalizing k with
  | nil => rfl
  | cons c s ih =>
    have htail : lineBreakFrom every (k + 1) s = s :=
      ih fun j hj => Nat.add_right_comm k j 1 ▸ h (j + 1) (Nat.succ_lt_succ hj)
    have hhead : k % every ≠ 0 := h 0 (Nat.succ_pos _)
    rw [lineBreakFrom, if_neg hhead, htail]

/-- A row's characters come with one LF, right before them. -/
theorem lineBreakFrom_row {every : Nat} {s : List Byte} (hpos : 0 < every) (hs : s.length = every) (y : Nat) :
    lineBreakFrom every (y * every) s = lineFeed :: s := by
  cases s with
  | nil => exact absurd hs (Nat.ne_of_lt hpos)
  | cons c s =>
    have htail : lineBreakFrom every (y * every + 1) s = s := lineBreakFrom_of_inside fun j hj => by
      have hlt : 1 + j < every := by rw [← hs, List.length_cons]; omega
      rw [Nat.add_assoc, Nat.mul_add_mod', Nat.mod_eq_of_lt hlt]
      omega
    rw [lineBreakFrom, if_pos (Nat.mul_mod_left y every), htail]

theorem lineBreakFrom_append_row {every y : Nat} {s r : List Byte} (hpos : 0 < every) (hs : s.length = y * every)
    (hr : r.length = every) : lineBreakFrom every 0 (s ++ r) = lineBreakFrom every 0 s ++ lineFeed :: r := by
  rw [lineBreakFrom_append, hs, Nat.zero_add, lineBreakFrom_row hpos hr]

/-- Each row takes one character more than its own (R139). -/
theorem lineBreakFrom_length {every h : Nat} {s : List Byte} (hpos : 0 < every) (hs : s.length = h * every) :
    (lineBreakFrom every 0 s).length = h * (every + 1) := by
  induction h generalizing s with
  | zero =>
    obtain rfl : s = [] := List.eq_nil_of_length_eq_zero (hs.trans (Nat.zero_mul every))
    exact (Nat.zero_mul _).symm
  | succ h ih =>
    rw [Nat.succ_mul] at hs
    have hrows : (s.take (h * every)).length = h * every := by rw [List.length_take]; omega
    have hlast : (s.drop (h * every)).length = every := by rw [List.length_drop]; omega
    rw [← List.take_append_drop (h * every) s, lineBreakFrom_append_row hpos hrows hlast, List.length_append, ih hrows,
      List.length_cons, hlast, Nat.succ_mul]

/-- In a string of whole rows, after the rows before row y come its LF and its characters (R139). -/
theorem lineBreakFrom_drop {every h y : Nat} {s : List Byte} (hpos : 0 < every) (hs : s.length = h * every)
    (hy : y < h) : ∃ row rest, row.length = every ∧ (∀ c, c < every → row[c]? = s[y * every + c]?) ∧
      (lineBreakFrom every 0 s).drop (y * (every + 1)) = lineFeed :: row ++ rest := by
  have hle : (y + 1) * every ≤ h * every := Nat.mul_le_mul_right _ hy
  rw [Nat.succ_mul] at hle
  have hrows : (s.take (y * every)).length = y * every := by rw [List.length_take]; omega
  have hrow : ((s.drop (y * every)).take every).length = every := by rw [List.length_take, List.length_drop]; omega
  have hsplit : s = (s.take (y * every) ++ (s.drop (y * every)).take every) ++ (s.drop (y * every)).drop every := by
    rw [List.append_assoc, List.take_append_drop, List.take_append_drop]
  refine ⟨_, lineBreakFrom every (y * every + every) ((s.drop (y * every)).drop every), hrow, fun c hc => ?_, ?_⟩
  · rw [List.getElem?_take_of_lt hc, List.getElem?_drop]
  · conv_lhs => rw [hsplit]
    rw [lineBreakFrom_append, lineBreakFrom_append_row hpos hrows hrow, List.length_append, hrows, hrow, Nat.zero_add,
      List.append_assoc, List.drop_left' (lineBreakFrom_length hpos hrows)]

section Rows

variable {every h y : Nat} {s : List Byte} (hpos : 0 < every) (hs : s.length = h * every) (hy : y < h)
include hpos hs hy

/-- Each row begins with its LF (R139). -/
theorem lineBreakFrom_getElem?_rowStart : (lineBreakFrom every 0 s)[y * (every + 1)]? = some lineFeed := by
  obtain ⟨row, rest, -, -, hdrop⟩ := lineBreakFrom_drop hpos hs hy
  rw [← Nat.add_zero (y * (every + 1)), ← List.getElem?_drop, hdrop]
  rfl

/-- After its LF, a row's characters stand in order (R139). -/
theorem lineBreakFrom_getElem?_inRow {c : Nat} (hc : c < every) :
    (lineBreakFrom every 0 s)[y * (every + 1) + (c + 1)]? = s[y * every + c]? := by
  obtain ⟨row, rest, hlen, hrow, hdrop⟩ := lineBreakFrom_drop hpos hs hy
  rw [← List.getElem?_drop, hdrop, List.cons_append, List.getElem?_cons_succ,
    List.getElem?_append_left (hlen.symm ▸ hc), hrow c hc]

end Rows

/-! ## The bytes E is made of -/

theorem collect_getElem? {f : Nat → Except Fault Byte} {lo n i : Nat} {bs : List Byte} (h : collect f lo n = .ok bs)
    (hi : i < n) : ∃ v, bs[i]? = some v ∧ f (lo + i) = .ok v := by
  induction n generalizing lo i bs with
  | zero => omega
  | succ n ih =>
    simp only [collect] at h
    split at h
    · cases h
    · rename_i b hb
      split at h
      · rename_i bs' hbs
        cases h
        cases i with
        | zero => exact ⟨b, rfl, hb⟩
        | succ i => simpa [Nat.add_right_comm, Nat.add_assoc, Nat.add_comm 1] using ih hbs (Nat.lt_of_succ_lt_succ hi)
      · cases h

theorem nameBytes_getElem? {s : State} {name : List Byte} (h : nameBytes s = .ok name) {k : Nat}
    (hk : k < s.nameLen.toNat) : name[k]? = s.name.read k := by
  obtain ⟨v, hv, hread⟩ := collect_getElem? h hk
  rw [Nat.zero_add] at hread
  exact hv.trans (nameRead_ok_iff.1 hread).2.symm

theorem bufBytes_getElem? {s : State} {bytes : List Byte} (h : bufBytes s = .ok bytes) {a : Nat}
    (ha : a < s.byteLength.toNat) : bytes[a]? = s.buf.read a := by
  obtain ⟨v, hv, hread⟩ := collect_getElem? h ha
  rw [Nat.zero_add] at hread
  exact hv.trans (memRead_ok_iff.1 hread).2.symm

/-- Where E exists, so do the name and the bytes it is made of (R151). -/
theorem emission_eq_ok {s : State} {e : List Byte} (h : emission s = .ok e) :
    ∃ name bytes, nameBytes s = .ok name ∧ bufBytes s = .ok bytes ∧
      e = container name s.byteLength.toNat s.rowStride.toNat
        (payloadOf s.params.hexCase s.lineBreak s.rowStride.toNat bytes) := by
  rw [emission] at h
  split at h
  · cases h
  · rename_i name hn
    split at h
    · cases h
    · rename_i bytes hb
      exact ⟨name, bytes, hn, hb, (Except.ok.inj h).symm⟩

/-- Character k of the buffer's hex string shows BUF's byte k / 2 (R129, R133). -/
theorem hexString_bufBytes_getElem? {s : State} {bytes : List Byte} (h : bufBytes s = .ok bytes) {k : Nat} {v : Byte}
    (hk : k < 2 * s.byteLength.toNat) (hv : s.buf.read (k / 2) = some v) (hc : HexCase) :
    (hexString hc bytes)[k]? = some (hexDigit hc (nibbleAt k v)) := by
  rw [hexString_getElem?, bufBytes_getElem? h (by omega), hv, Option.map_some]

/-- The buffer's hex characters fill the image's rows (R110, R135). -/
theorem DimsAgree.two_mul_byteLength {s : State} (hd : DimsAgree s) :
    2 * s.byteLength.toNat = s.height.toNat * (s.rowStride.toNat * 2) := by
  rw [hd.byteLengthIs, byteLengthOf, ← hd.rowStrideIs, Nat.mul_comm, Nat.mul_assoc]

/-! ## The parts of E -/

theorem header_length (name : List Byte) (bl rs : Nat) : (header name bl rs).length =
    3 + name.length + 1 + (dec bl).length + 1 + (dec rs).length + 1 := by
  simp only [header, marker, List.length_append, List.length_cons, List.length_nil]

/-- The payload stands right after the header (R144). -/
theorem container_getElem? (name : List Byte) (bl rs : Nat) (payload : List Byte) (k : Nat) :
    (container name bl rs payload)[(header name bl rs).length + k]? = payload[k]? := by
  rw [container, List.getElem?_append_right (Nat.le_add_right _ _), Nat.add_sub_cancel_left]

/-- Settles O56: E is its header and its payload, and the payload is the hex string, row by row where it is broken. -/
theorem emissionLayout : Obligations.EmissionLayout := by
  intro s e hd he hdr every digit
  obtain ⟨name, bytes, hn, hb, rfl⟩ := emission_eq_ok he
  have hname : name.length = s.nameLen.toNat := collect_length hn
  have hhdr : (header name s.byteLength.toNat s.rowStride.toNat).length = hdr := by rw [header_length, hname]
  have hpos : 0 < every := Nat.mul_pos hd.rowStride_pos (by decide)
  have htotal : 2 * s.byteLength.toNat = s.height.toNat * every := hd.two_mul_byteLength
  have hhex : (hexString s.params.hexCase bytes).length = 2 * s.byteLength.toNat := by
    rw [hexString_length, collect_length hb]
  have hrows := hhex.trans htotal
  refine ⟨?length, ⟨name, hname, fun k => nameBytes_getElem? hn, List.take_left' hhdr⟩, fun hlb k v hk hv => ?plain,
    fun hlb y hy => ⟨?rowStart, fun c v hc hce hv => ?inRow⟩⟩
  case length =>
    rw [container, List.length_append, hhdr]
    cases s.lineBreak with
    | false => exact congrArg (hdr + ·) hhex
    | true =>
      refine (congrArg (hdr + ·) (lineBreakFrom_length hpos hrows)).trans ?_
      rw [if_pos rfl, htotal, Nat.mul_succ, ← Nat.add_assoc hdr]
  case plain =>
    rw [← hhdr, container_getElem?, hlb]
    exact hexString_bufBytes_getElem? hb hk hv _
  case rowStart =>
    rw [← hhdr, container_getElem?, hlb]
    exact lineBreakFrom_getElem?_rowStart hpos hrows hy
  case inRow =>
    obtain ⟨c, rfl⟩ := Nat.exists_eq_add_of_le' hc
    rw [← hhdr, container_getElem?, hlb]
    have hrow : (y + 1) * every ≤ s.height.toNat * every := Nat.mul_le_mul_right _ hy
    rw [Nat.succ_mul] at hrow
    exact (lineBreakFrom_getElem?_inRow hpos hrows hy hce).trans
      (hexString_bufBytes_getElem? hb (by omega) hv _)

end Sys2Proof.Machine

/-! PROOFS. The line breaker on whole strings: the closed form row by row, and the characters a broken string begins and
ends with. -/

namespace Sys2Proof.Machine

/-! ## The closed form row by row (R139) -/

theorem breakEvery_pos {rs : Nat} (h : 0 < rs) : 0 < breakEvery rs := Nat.mul_pos h (by decide)

/-- The first y rows of a string, each with its LF right before it: the string's own rows, so that one more row of it only
appends. -/
theorem lineBreakFrom_take_rows {every y : Nat} {s : List Byte} (hpos : 0 < every) (hs : y * every ≤ s.length) :
    lineBreakFrom every 0 (s.take (y * every)) =
      (List.range y).flatMap fun r => lineFeed :: (s.drop (r * every)).take every := by
  induction y with
  | zero => rw [Nat.zero_mul]; rfl
  | succ y ih =>
    rw [Nat.succ_mul] at hs
    have hrows : (s.take (y * every)).length = y * every := List.length_take_of_le (by omega)
    have hrow : ((s.drop (y * every)).take every).length = every :=
      List.length_take_of_le (by rw [List.length_drop]; omega)
    rw [Nat.succ_mul, List.take_add, lineBreakFrom_append_row hpos hrows hrow, ih (by omega), List.range_succ,
      List.flatMap_append, List.flatMap_singleton]

/-- A whole number of rows of bytes fills as many rows of hex characters (R133, R135). -/
theorem hexString_length_of_rows {h rs : Nat} {bytes : List Byte} (hlen : bytes.length = h * rs) (hc : HexCase) :
    (hexString hc bytes).length = h * breakEvery rs := by
  rw [hexString_length, hlen, breakEvery, Nat.mul_comm, Nat.mul_assoc]

/-- Settles O53, by induction on the rows: each one appends its LF and its characters to those before it. -/
theorem lineBreakBeforeEachRow : Obligations.LineBreakBeforeEachRow := by
  intro hc rs h bytes hrs hlen
  have hpos : 0 < breakEvery rs := breakEvery_pos hrs
  have hrows : (hexString hc bytes).length = h * breakEvery rs := hexString_length_of_rows hlen hc
  refine ⟨?closedForm, ?length⟩
  case closedForm =>
    have hform := lineBreakFrom_take_rows hpos hrows.ge
    rwa [List.take_of_length_le hrows.le] at hform
  case length =>
    rw [lineBreakString, lineBreakFrom_length hpos hrows, Nat.mul_succ, ← hrows, hexString_length]

/-! ## The first and the last character (R137, R138) -/

theorem lineBreakString_head? (rs : Nat) {s : List Byte} (hs : s ≠ []) :
    (lineBreakString rs s).head? = some lineFeed := by
  cases s with
  | nil => exact absurd rfl hs
  | cons c s => rw [lineBreakString, lineBreakFrom, if_pos (Nat.zero_mod _), List.head?_cons]

/-- An LF is put only before a character, so the last one stays last (R138). -/
theorem lineBreakFrom_getLast? (every k : Nat) (s : List Byte) :
    (lineBreakFrom every k s).getLast? = s.getLast? := by
  induction s generalizing k with
  | nil => rfl
  | cons c s ih =>
    have hlast : (c :: lineBreakFrom every (k + 1) s).getLast? = (c :: s).getLast? := by
      rw [List.getLast?_cons, ih, List.getLast?_cons]
    rw [lineBreakFrom]
    split
    · rw [List.getLast?_cons_cons, hlast]
    · exact hlast

/-- The alphabet of R131 has no LF. -/
theorem hexDigit_ne_lineFeed (hc : HexCase) (n : BitVec 4) : hexDigit hc n ≠ lineFeed := by
  cases hc <;> revert n <;> decide

theorem lineFeed_notMem_hexString (hc : HexCase) (bytes : List Byte) : lineFeed ∉ hexString hc bytes := by
  induction bytes with
  | nil => exact List.not_mem_nil
  | cons v bytes ih =>
    rw [hexString_cons]
    exact List.not_mem_cons_of_ne_of_not_mem (hexDigit_ne_lineFeed hc _).symm
      (List.not_mem_cons_of_ne_of_not_mem (hexDigit_ne_lineFeed hc _).symm ih)

theorem hexString_ne_nil (hc : HexCase) {bytes : List Byte} (h : bytes ≠ []) : hexString hc bytes ≠ [] := by
  cases bytes with
  | nil => exact absurd rfl h
  | cons v bytes => rw [hexString_cons]; exact List.cons_ne_nil _ _

/-- Settles O54: index 0 is a multiple of every row's length, the last character stays last, and no hex digit is LF. -/
theorem lineBreakLeadsNeverTrails : Obligations.LineBreakLeadsNeverTrails := by
  refine ⟨fun rs s hs => ⟨lineBreakString_head? rs hs, lineBreakFrom_getLast? _ 0 s⟩, fun hc rs bytes =>
    ⟨fun hlf => ?_, fun hb => lineBreakString_head? rs (hexString_ne_nil hc hb)⟩⟩
  have hlast : (hexString hc bytes).getLast? = some lineFeed := (lineBreakFrom_getLast? _ 0 _).symm.trans hlf
  exact lineFeed_notMem_hexString hc bytes (List.mem_of_getLast? hlast)

end Sys2Proof.Machine

/-! PROOFS. The container: FINISH, the output step, and the decimal numbers of the header. -/

namespace Sys2Proof.Machine

/-! ## FINISH -/

theorem exec_finish_of_load {s : State} (h : s.blockState = .load) : exec .finish s = finishEncode s :=
  exec_of_legal (inLoad_eq_true.2 h)

/-- FINISH is legal in LOAD alone (R179). -/
theorem exec_finish_of_ne_load {s : State} (hl : s.blockState ≠ .load) (he : s.blockState ≠ .emit) :
    exec .finish s = .next (raiseFault .sequence s) :=
  exec_of_illegal he (Bool.eq_false_iff.2 fun h => hl (inLoad_eq_true.1 h))

/-- FINISH after the last pixel, with INVERT = 1: the map of R123 on the encode's extent, then the registers of a new
emission (R124, R149). -/
theorem exec_finish_of_inverted {s : State} (hl : s.blockState = .load) (hy : s.curY = s.height) (hi : s.invert = true)
    (hd : DimsAgree s) (hb : s.byteLength.toNat ≤ s.params.bufBytes.toNat) (hc : s.buf.covers s.byteLength.toNat) :
    ∃ m, exec .finish s = .next (finishRegs (s.withBuf m)) ∧
      (∀ a v, a < s.byteLength.toNat → s.buf.read a = some v → m.read a = some (invertedByte s.width.toNat a v)) ∧
      ∀ a, s.byteLength.toNat ≤ a → m.read a = s.buf.read a := by
  obtain ⟨u, hu, hmap⟩ := invertBuf_ok hd hb hc
  refine ⟨u.buf, ?_, fun a v ha hv => ?_, fun a ha => ?_⟩
  · rw [exec_finish_of_load hl, finishEncode_of_inverted hy hi hu, ← hmap.rest]
  · rw [hmap.read_eq_some hv, if_pos ha]
  · exact hmap.read_eq_of_fixed fun v _ => if_neg (Nat.not_lt.2 ha)

/-- Settles O27: each clause is a case of FINISH's own effect, or of the check before it. -/
theorem finishBeginsEmission : Obligations.FinishBeginsEmission := by
  refine ⟨rfl, fun s => ⟨?plain, ?inverted, ?early, ?idleOrDone, ?error, acceptedWord_of_emit⟩⟩
  case plain =>
    intro hl hy hi
    exact ⟨_, (exec_finish_of_load hl).trans (finishEncode_of_plain hy hi), rfl⟩
  case inverted =>
    intro hl hy hi hd hb hc
    obtain ⟨m, hexec, hdata, habove⟩ := exec_finish_of_inverted hl hy hi hd hb hc
    exact ⟨_, hexec, rfl, hdata, habove⟩
  case early =>
    intro hl hy
    rw [exec_finish_of_load hl, finishEncode_of_early hy]
    exact (next_raiseFault _ s).1 (by simp [hl])
  case idleOrDone =>
    intro h
    rw [exec_finish_of_ne_load (by rcases h with h | h <;> simp [h]) (by rcases h with h | h <;> simp [h])]
    exact (next_raiseFault _ s).1 (by rcases h with h | h <;> simp [h])
  case error =>
    intro h
    rw [exec_finish_of_ne_load (by simp [h]) (by simp [h])]
    exact (next_raiseFault _ s).2 h

/-! ## The output step -/

/-- Settles O35: in EMIT no word is accepted, and no action of the host but reset writes what E is made of. -/
theorem emissionFixedInEmit : Obligations.EmissionFixedInEmit := by
  intro s t he hr h
  rcases step_cases s with ⟨rest, hn, hs⟩ | ⟨w, ha, _⟩ | ⟨_, _, hs⟩ | ⟨_, rest, _, hs⟩ | ⟨_, i, rest, _, hs⟩ |
    ⟨_, w, rest, _, _, hs⟩
  · rw [resetAsserted_eq_true.2 ⟨rest, hn⟩] at hr; cases hr
  · rw [acceptedWord_of_emit he] at ha; cases ha
  · rw [hs] at h; cases h; exact ⟨rfl, rfl, rfl, rfl, rfl⟩
  · rw [hs] at h; rw [outputStep_frame h]; exact ⟨rfl, rfl, rfl, rfl, rfl⟩
  · rw [hs] at h; cases h; exact ⟨rfl, rfl, rfl, rfl, rfl⟩
  · rw [hs] at h; cases h; exact ⟨rfl, rfl, rfl, rfl, rfl⟩

theorem outData_of_emission {s : State} {e : List Byte} (he : s.blockState = .emit) (hem : emission s = .ok e) :
    outData s = e[s.outCount]? := by
  simp [outData, he, hem]

theorem outLast_of_emission {s : State} {e : List Byte} (he : s.blockState = .emit) (hem : emission s = .ok e) :
    outLast s = decide (s.outCount + 1 = e.length) := by
  simp [outLast, he, hem]

/-- Settles O36: what OUT shows in EMIT, the output step by whether the byte is the last, and OUT elsewhere. -/
theorem outputStepTakesNextByte : Obligations.OutputStepTakesNextByte := by
  refine ⟨fun s e b rest he hem hb ha => ?inEmit, fun s e he hem => ?last, fun s hne => ?outside⟩
  case inEmit =>
    have hk : s.outCount < e.length := (List.getElem?_eq_some_iff.1 hb).1
    refine ⟨decide_eq_true he, (outData_of_emission he hem).trans hb, outLast_of_emission he hem, _,
      step_of_take_of_emission he hem hk ha, ?_⟩
    by_cases hlast : s.outCount + 1 = e.length
    · rw [if_pos hlast]
      exact ⟨rfl, fun _ => rfl, fun hne => absurd hlast hne⟩
    · rw [if_neg hlast]
      exact ⟨rfl, fun heq => absurd heq hlast, fun _ => he⟩
  case last => rw [outLast_of_emission he hem, decide_eq_true_iff]
  case outside => exact ⟨decide_eq_false hne, if_neg hne, if_neg hne, outputStep_of_ne hne⟩

/-! ## Whole artifacts only -/

/-- A command keeps the bytes the host has taken, or empties them where an encode or an emission begins (R35). -/
theorem effect_hostTaken {i : Instr} {s t : State} (h : effect i s = .next t) :
    t.hostTaken = s.hostTaken ∨ t.hostTaken = [] := by
  cases i with
  | nbyte b => rw [appendName_frame h]; exact .inl rfl
  | start =>
    rcases startEncode_cases s with ⟨_, he⟩ | ⟨_, _, _, he⟩ | ⟨_, _, _, m, he, _⟩ <;>
      cases he.symm.trans h
    · exact .inl rfl
    · exact .inl rfl
    · exact .inr rfl
  | pixel r g b => rw [packPixel_frame h]; exact .inl rfl
  | finish =>
    rcases finishEncode_next h with ⟨_, rfl⟩ | ⟨_, _, rfl⟩ | ⟨_, _, u, _, rfl⟩
    · rw [raiseFault_frame]; exact .inl rfl
    · exact .inr rfl
    · exact .inr rfl
  | _ => cases h; exact .inl rfl

/-- An accepted word gives the host no byte and no artifact (R155). -/
theorem accept_hostRecord {w : Word} {s t : State} (he : s.blockState ≠ .emit) (h : accept w s = .next t) :
    t.hostArtifacts = s.hostArtifacts ∧ (t.hostTaken = s.hostTaken ∨ t.hostTaken = []) := by
  rcases accept_next he h with ⟨_, rfl⟩ | ⟨_, rfl⟩ | ⟨i, _, _, rfl⟩ | ⟨i, _, _, heff⟩
  · rw [raiseFault_frame]; exact ⟨rfl, .inl rfl⟩
  · rw [raiseFault_frame]; exact ⟨rfl, .inl rfl⟩
  · rw [raiseFault_frame]; exact ⟨rfl, .inl rfl⟩
  · obtain ⟨_, _, hartifacts, _⟩ := effect_frame heff
    exact ⟨hartifacts, effect_hostTaken heff⟩

/-- The output step completes no artifact but the whole of E (R154, R155). -/
theorem Inv.outputStep_artifacts {s t : State} (h : Inv s) (he : s.blockState = .emit) (ht : outputStep s = .next t) :
    t.hostArtifacts = s.hostArtifacts ∨ ∃ e, emission s = .ok e ∧ t.hostArtifacts = s.hostArtifacts ++ [e] := by
  obtain ⟨e, hem, hk, htaken⟩ := h.emitProgress he
  cases (outputStep_of_emit he hem hk).symm.trans ht
  by_cases hlast : s.outCount + 1 = e.length
  · refine .inr ⟨e, hem, ?_⟩
    rw [if_pos hlast, takeLast_hostArtifacts, htaken, List.take_append_getElem hk, hlast, List.take_length]
  · exact .inl (by rw [if_neg hlast]; rfl)

/-- Settles O38: of all a step can be, only the output step in EMIT gives a byte, and there the invariant says what the
bytes taken before it are. -/
theorem onlyWholeArtifacts : Obligations.OnlyWholeArtifacts := by
  refine ⟨fun s t hne h => ?outside, fun s t hinv he h => ?inEmit⟩
  case outside =>
    rcases step_cases s with ⟨rest, _, hs⟩ | ⟨w, _, hs⟩ | ⟨_, _, hs⟩ | ⟨_, rest, _, hs⟩ | ⟨_, i, rest, _, hs⟩ |
      ⟨_, w, rest, _, _, hs⟩ <;> rw [hs] at h
    · cases h; exact ⟨rfl, .inr rfl⟩
    · exact accept_hostRecord (s := s.withPort none) hne h
    · cases h; exact ⟨rfl, .inl rfl⟩
    · rw [outputStep_of_ne (s := s.withAgenda rest) hne] at h
      cases h; exact ⟨rfl, .inl rfl⟩
    · cases h; exact ⟨rfl, .inl rfl⟩
    · cases h; exact ⟨rfl, .inl rfl⟩
  case inEmit =>
    rcases step_cases s with ⟨rest, _, hs⟩ | ⟨w, ha, _⟩ | ⟨_, _, hs⟩ | ⟨_, rest, _, hs⟩ | ⟨_, i, rest, _, hs⟩ |
      ⟨_, w, rest, _, _, hs⟩
    · rw [hs] at h; cases h; exact .inl rfl
    · rw [acceptedWord_of_emit he] at ha; cases ha
    · rw [hs] at h; cases h; exact .inl rfl
    · rw [hs] at h; exact (hinv.withAgenda rest).outputStep_artifacts he h
    · rw [hs] at h; cases h; exact .inl rfl
    · rw [hs] at h; cases h; exact .inl rfl

/-! ## Decimal numbers (R146) -/

/-- The character of a decimal digit. -/
def decDigit (d : Nat) : Byte := 0x30#8 + BitVec.ofNat 8 d

theorem toNat_decDigit {d : Nat} (h : d < 10) : (decDigit d).toNat = 0x30 + d := by
  rw [decDigit, BitVec.toNat_add, BitVec.toNat_ofNat, BitVec.toNat_ofNat]
  omega

theorem decDigits_succ (fuel n : Nat) (acc : List Byte) : decDigits (fuel + 1) n acc =
    if n / 10 = 0 then decDigit (n % 10) :: acc else decDigits fuel (n / 10) (decDigit (n % 10) :: acc) := rfl

/-- With fuel above n, the digits of n stand before those already written and do not depend on the fuel. -/
theorem decDigits_eq_dec_append {fuel n : Nat} (h : n < fuel) (acc : List Byte) :
    decDigits fuel n acc = dec n ++ acc := by
  induction n using Nat.strongRecOn generalizing fuel acc with
  | ind n ih =>
    obtain ⟨fuel, rfl⟩ := Nat.exists_eq_add_of_lt h
    rw [dec, decDigits_succ, decDigits_succ]
    by_cases hz : n / 10 = 0
    · rw [if_pos hz, if_pos hz]; rfl
    · have hlt : n / 10 < n := by omega
      rw [if_neg hz, if_neg hz, ih _ hlt (by omega), ih _ hlt hlt, List.append_assoc]
      rfl

theorem dec_of_lt {n : Nat} (h : n < 10) : dec n = [decDigit n] := by
  rw [dec, decDigits_succ, if_pos (Nat.div_eq_of_lt h), Nat.mod_eq_of_lt h]

/-- A number of more than one digit: the digits of its tenth, then its last digit (R146). -/
theorem dec_of_ge {n : Nat} (h : 10 ≤ n) : dec n = dec (n / 10) ++ [decDigit (n % 10)] := by
  rw [dec, decDigits_succ, if_neg (by omega), decDigits_eq_dec_append (by omega)]

/-- Digits only: '0' to '9'. -/
theorem dec_digits (n : Nat) : ∀ c ∈ dec n, 0x30 ≤ c.toNat ∧ c.toNat ≤ 0x39 := by
  have hdigit : ∀ d, d < 10 → 0x30 ≤ (decDigit d).toNat ∧ (decDigit d).toNat ≤ 0x39 := fun d hd => by
    rw [toNat_decDigit hd]; omega
  induction n using Nat.strongRecOn with
  | ind n ih =>
    intro c hc
    by_cases hn : n < 10
    · rw [dec_of_lt hn, List.mem_singleton] at hc
      exact hc ▸ hdigit n hn
    · rw [dec_of_ge (Nat.le_of_not_lt hn), List.mem_append, List.mem_singleton] at hc
      rcases hc with hc | rfl
      · exact ih (n / 10) (by omega) c hc
      · exact hdigit _ (Nat.mod_lt n (by decide))

/-- The digits' value, read in base 10, most significant first. -/
theorem dec_value (n : Nat) : (dec n).foldl (fun acc c => acc * 10 + (c.toNat - 0x30)) 0 = n := by
  induction n using Nat.strongRecOn with
  | ind n ih =>
    by_cases hn : n < 10
    · rw [dec_of_lt hn, List.foldl_cons, List.foldl_nil, toNat_decDigit hn]
      omega
    · rw [dec_of_ge (Nat.le_of_not_lt hn), List.foldl_append, ih (n / 10) (by omega), List.foldl_cons, List.foldl_nil,
        toNat_decDigit (Nat.mod_lt n (by decide))]
      omega

theorem dec_ne_nil (n : Nat) : dec n ≠ [] := by
  by_cases hn : n < 10
  · rw [dec_of_lt hn]; exact List.cons_ne_nil _ _
  · rw [dec_of_ge (Nat.le_of_not_lt hn)]; exact List.append_ne_nil_of_right_ne_nil _ (List.cons_ne_nil _ _)

/-- No number above 0 begins with the digit 0. -/
theorem dec_head? {n : Nat} (h : 1 ≤ n) : (dec n).head? ≠ some 0x30#8 := by
  induction n using Nat.strongRecOn with
  | ind n ih =>
    by_cases hn : n < 10
    · intro heq
      rw [dec_of_lt hn, List.head?_cons] at heq
      have hval := congrArg BitVec.toNat (Option.some.inj heq)
      rw [toNat_decDigit hn] at hval
      simp at hval
      omega
    · rw [dec_of_ge (Nat.le_of_not_lt hn), List.head?_append_of_ne_nil _ (dec_ne_nil _)]
      exact ih (n / 10) (by omega) (by omega)

/-- Settles O55, by induction on the number of digits: a number's last digit stands after its tenth's digits. -/
theorem decimalIsShortest : Obligations.DecimalIsShortest :=
  ⟨fun n => ⟨dec_digits n, dec_value n, dec_head?⟩, rfl, rfl⟩

/-- Settles O57: the container of the source's example, run. -/
theorem containerExample : Obligations.ContainerExample := by
  unfold Obligations.ContainerExample
  decide

end Sys2Proof.Machine

/-! PROOFS. Commands offered one by one as a run of the machine: no command sees what the host has left to do. -/

namespace Sys2Proof.Machine

/-! ## No command sees the host's agenda -/

section Agenda

variable {s t : State} (l : List HostAction)

theorem raiseFault_withAgenda (c : ErrCode) (s : State) :
    raiseFault c (s.withAgenda l) = (raiseFault c s).withAgenda l := by
  by_cases he : s.blockState = .error
  · rw [raiseFault_of_error he, raiseFault_of_error (s := s.withAgenda l) he]
  · rw [raiseFault_of_ne he, raiseFault_of_ne (s := s.withAgenda l) he]
    rfl

theorem advanceCursor_withAgenda (s : State) : advanceCursor (s.withAgenda l) = (advanceCursor s).withAgenda l := by
  rw [advanceCursor_eq, advanceCursor_eq]
  rfl

theorem memModify_withAgenda {a : Nat} {f : Byte → Byte} (h : memModify s a f = .ok t) :
    memModify (s.withAgenda l) a f = .ok (t.withAgenda l) := by
  obtain ⟨v, ha, hv, rfl⟩ := memModify_ok_iff.1 h
  exact memModify_ok_iff.2 ⟨v, ha, hv, rfl⟩

/-- A loop whose body does not see the agenda does not see it either. -/
theorem forRange_withAgenda {f : Nat → State → Except Fault State} {lo n : Nat}
    (hf : ∀ i u v, f i u = .ok v → f i (u.withAgenda l) = .ok (v.withAgenda l)) (h : forRange f lo n s = .ok t) :
    forRange f lo n (s.withAgenda l) = .ok (t.withAgenda l) := by
  induction n generalizing lo s with
  | zero => cases h; rfl
  | succ n ih =>
    simp only [forRange] at h ⊢
    split at h
    · rename_i u hu
      rw [hf lo s u hu]
      exact ih h
    · cases h

theorem clearBuf_withAgenda {n : Nat} (h : clearBuf n s = .ok t) :
    clearBuf n (s.withAgenda l) = .ok (t.withAgenda l) :=
  forRange_withAgenda l (fun _ _ _ hw => by
    obtain ⟨ha, rfl⟩ := memWrite_ok_iff.1 hw
    exact memWrite_ok_iff.2 ⟨ha, rfl⟩) h

theorem invertBuf_withAgenda (h : invertBuf s = .ok t) : invertBuf (s.withAgenda l) = .ok (t.withAgenda l) := by
  unfold invertBuf at h
  split at h
  · rename_i p hp
    have hpad : forcePadding (s.withAgenda l) = .ok (p.withAgenda l) :=
      forRange_withAgenda l (fun _ _ _ hrow => forRange_withAgenda l (fun _ _ _ => memModify_withAgenda l) hrow) hp
    have hflip : flipAll (p.withAgenda l) = .ok (t.withAgenda l) :=
      forRange_withAgenda l (fun _ _ _ => memModify_withAgenda l) h
    rw [invertBuf, hpad]
    exact hflip
  · cases h

theorem appendName_withAgenda {b : Byte} (h : appendName b s = .next t) :
    appendName b (s.withAgenda l) = .next (t.withAgenda l) := by
  rcases appendName_next h with ⟨hfull, rfl⟩ | ⟨_, hroom, rfl⟩
  · rw [appendName_of_full (s := s.withAgenda l) hfull, raiseFault_withAgenda]
  · exact appendName_of_room (s := s.withAgenda l) hroom b

/-- START with an image that fits is the zeroing of its extent (R104, R110). -/
theorem startEncode_eq_clearBuf {s : State} (hd : ¬(s.width = 0#24 ∨ s.height = 0#24))
    (hf : ¬s.params.bufBytes.toNat < byteLengthOf s.width.toNat s.height.toNat) :
    startEncode (clearError s) = outcomeOf (clearBuf (byteLengthOf s.width.toNat s.height.toNat)
      (startRegs (clearError s) (rowStrideOf s.width.toNat) (byteLengthOf s.width.toNat s.height.toNat))) :=
  (if_neg hd).trans (if_neg hf)

theorem outcomeOf_eq_next {r : Except Fault State} (h : outcomeOf r = .next t) : r = .ok t := by
  cases r with
  | ok u => cases h; rfl
  | error e => cases h

theorem startEncode_withAgenda (h : startEncode (clearError s) = .next t) :
    startEncode (clearError (s.withAgenda l)) = .next (t.withAgenda l) := by
  by_cases hzero : s.width = 0#24 ∨ s.height = 0#24
  · cases (startEncode_of_zero hzero).symm.trans h
    exact startEncode_of_zero (s := s.withAgenda l) hzero
  · by_cases hlarge : s.params.bufBytes.toNat < byteLengthOf s.width.toNat s.height.toNat
    · cases (startEncode_of_large hzero hlarge).symm.trans h
      exact startEncode_of_large (s := s.withAgenda l) hzero hlarge
    · rw [startEncode_eq_clearBuf hzero hlarge] at h
      rw [startEncode_eq_clearBuf (s := s.withAgenda l) hzero hlarge]
      exact congrArg outcomeOf (clearBuf_withAgenda l (outcomeOf_eq_next h))

theorem packPixel_withAgenda {r g b : Byte} (h : packPixel r g b s = .next t) :
    packPixel r g b (s.withAgenda l) = .next (t.withAgenda l) := by
  rcases packPixel_next h with ⟨hpast, rfl⟩ | ⟨hy, hdark, rfl⟩ | ⟨hy, hlight, v, ha, hv, rfl⟩
  · rw [packPixel_of_past (s := s.withAgenda l) hpast, raiseFault_withAgenda]
  · rw [packPixel_of_dark (s := s.withAgenda l) hy hdark, advanceCursor_withAgenda]
  · rw [packPixel_of_light (s := s.withAgenda l) hy hlight ha hv, ← advanceCursor_withAgenda]
    rfl

theorem finishEncode_withAgenda (h : finishEncode s = .next t) :
    finishEncode (s.withAgenda l) = .next (t.withAgenda l) := by
  rcases finishEncode_next h with ⟨hearly, rfl⟩ | ⟨hy, hi, rfl⟩ | ⟨hy, hi, u, hu, rfl⟩
  · rw [finishEncode_of_early (s := s.withAgenda l) hearly, raiseFault_withAgenda]
  · exact finishEncode_of_plain (s := s.withAgenda l) hy hi
  · exact finishEncode_of_inverted (s := s.withAgenda l) hy hi (invertBuf_withAgenda l hu)

theorem effect_withAgenda {i : Instr} (h : effect i s = .next t) :
    effect i (s.withAgenda l) = .next (t.withAgenda l) := by
  cases i with
  | nbyte b => exact appendName_withAgenda l h
  | start => exact startEncode_withAgenda l h
  | pixel r g b => exact packPixel_withAgenda l h
  | finish => exact finishEncode_withAgenda l h
  | _ => cases h; rfl

theorem exec_withAgenda {i : Instr} (h : exec i s = .next t) : exec i (s.withAgenda l) = .next (t.withAgenda l) := by
  by_cases he : s.blockState = .emit
  · rw [exec_of_emit he] at h
    cases h
    exact exec_of_emit (s := s.withAgenda l) he i
  · cases hl : legal i.op s.blockState with
    | false =>
      rw [exec_of_illegal he hl] at h
      cases h
      rw [exec_of_illegal (s := s.withAgenda l) he hl, raiseFault_withAgenda]
    | true =>
      rw [exec_of_legal hl] at h
      rw [exec_of_legal (s := s.withAgenda l) hl]
      exact effect_withAgenda l h

/-- Commands that answer answer one after another. -/
theorem execAll_cons_next {i : Instr} {is : List Instr} (h : execAll (i :: is) s = .next t) :
    ∃ u, exec i s = .next u ∧ execAll is u = .next t := by
  rw [execAll] at h
  split at h
  · exact ⟨_, ‹_›, h⟩
  · cases h
  · cases h

theorem execAll_withAgenda {is : List Instr} (h : execAll is s = .next t) :
    execAll is (s.withAgenda l) = .next (t.withAgenda l) := by
  induction is generalizing s with
  | nil => cases h; rfl
  | cons i is ih =>
    obtain ⟨u, hu, hrest⟩ := execAll_cons_next h
    rw [execAll_cons (exec_withAgenda l hu)]
    exact ih hrest

end Agenda

/-! ## Offering commands one by one -/

theorem core_run_add {m n : Nat} {s t : State} (h : Host.Core.run Sys2Proof.core m s = .next t) :
    Host.Core.run Sys2Proof.core (m + n) s = Host.Core.run Sys2Proof.core n t := by
  induction m generalizing s with
  | zero => cases h; rw [Nat.zero_add]
  | succ m ih =>
    rw [Nat.add_right_comm]
    simp only [Host.Core.run] at h ⊢
    split at h
    · exact ih h
    · cases h
    · cases h

/-- With CMD free, an offer at the head of the agenda goes onto it (R45). -/
theorem step_of_send {s : State} {w : Word} {rest : List HostAction} (hp : s.cmdPort = none)
    (ha : s.hostAgenda = .send w :: rest) : step s = .next ((s.withAgenda rest).withPort (some w)) := by
  have hnone : acceptedWord s = none := Option.eq_none_iff_forall_ne_some.2 fun w hw => by
    obtain ⟨_, _, hport⟩ := acceptedWord_eq_some.1 hw
    rw [hp] at hport
    cases hport
  have hnext : nextAction s = some (.send w, rest) :=
    nextAction_cons ha fun hwait => by rw [hp] at hwait; cases hwait.2
  rw [step_of_none hnone, hostStep, hnext]

/-- Outside EMIT RST is asserted only by a reset at the head of the agenda (R193). -/
theorem resetAsserted_of_head?_ne {s : State} (he : s.blockState ≠ .emit) (hr : s.hostAgenda.head? ≠ some .reset) :
    resetAsserted s = false := by
  refine Bool.eq_false_iff.2 fun htrue => ?_
  obtain ⟨rest, hnext⟩ := resetAsserted_eq_true.1 htrue
  rw [nextAction, if_neg fun hwait => he hwait.1] at hnext
  split at hnext
  · cases hnext
  · rename_i ha
    cases hnext
    rw [ha] at hr
    exact hr rfl

/-- Outside EMIT a word on CMD is accepted unless RST is asserted (R45, R182). -/
theorem step_of_offered {s : State} {w : Word} (he : s.blockState ≠ .emit) (hp : s.cmdPort = some w)
    (hr : s.hostAgenda.head? ≠ some .reset) : step s = accept w (s.withPort none) :=
  step_of_accepted (acceptedWord_eq_some.2 ⟨resetAsserted_of_head?_ne he hr, he, hp⟩)

theorem accept_encode (i : Instr) (s : State) : accept (encode i) s = exec i s := by
  rw [accept, decode_encode]

/-- One command takes two steps: its offer, and the block running it (R45, R159). -/
theorem run_command {s t : State} {i : Instr} {rest : List HostAction} (he : s.blockState ≠ .emit)
    (hp : s.cmdPort = none) (ha : s.hostAgenda = .send (encode i) :: rest) (hr : rest.head? ≠ some .reset)
    (h : exec i s = .next t) : Host.Core.run Sys2Proof.core 2 s = .next (t.withAgenda rest) := by
  have haccept : step ((s.withAgenda rest).withPort (some (encode i))) = .next (t.withAgenda rest) := by
    have hport : ((s.withAgenda rest).withPort (some (encode i))).withPort none = s.withAgenda rest :=
      calc _ = (s.withAgenda rest).withPort s.cmdPort := by rw [hp]; rfl
        _ = s.withAgenda rest := rfl
    rw [step_of_offered (s := (s.withAgenda rest).withPort (some (encode i))) he rfl hr, hport, accept_encode]
    exact exec_withAgenda rest h
  rw [core_run_succ (step_of_send hp ha), core_run_succ haccept]
  rfl

/-- FINISH alone leads to EMIT, and no command writes CMD (R169). -/
theorem effect_port {i : Instr} {s t : State} (he : s.blockState ≠ .emit) (h : effect i s = .next t) :
    t.cmdPort = s.cmdPort ∧ (i ≠ .finish → t.blockState ≠ .emit) := by
  cases i with
  | nbyte b =>
    rcases appendName_next h with ⟨_, rfl⟩ | ⟨_, _, rfl⟩
    · exact ⟨by rw [raiseFault_frame], fun _ => by simp⟩
    · exact ⟨rfl, fun _ => he⟩
  | start =>
    refine ⟨by rw [startEncode_frame h], fun _ => ?_⟩
    rcases startEncode_cases s with ⟨_, hs⟩ | ⟨_, _, _, hs⟩ | ⟨_, _, _, m, hs, _⟩ <;>
      cases hs.symm.trans h
    all_goals exact fun hb => by cases hb
  | pixel r g b =>
    refine ⟨by rw [packPixel_frame h], fun _ => ?_⟩
    rcases packPixel_next h with ⟨_, rfl⟩ | ⟨_, _, rfl⟩ | ⟨_, _, v, _, _, rfl⟩
    · simp
    · rw [advanceCursor_eq]; exact he
    · rw [advanceCursor_eq]; exact he
  | finish => exact ⟨by rw [finishEncode_frame h], fun hne => absurd rfl hne⟩
  | abort => cases h; exact ⟨rfl, fun _ => by simp⟩
  | _ => cases h; exact ⟨rfl, fun _ => he⟩

theorem exec_port {i : Instr} {s t : State} (he : s.blockState ≠ .emit) (h : exec i s = .next t) :
    t.cmdPort = s.cmdPort ∧ (i ≠ .finish → t.blockState ≠ .emit) := by
  cases hl : legal i.op s.blockState with
  | false =>
    rw [exec_of_illegal he hl] at h
    cases h
    exact ⟨by rw [raiseFault_frame], fun _ => by simp⟩
  | true =>
    rw [exec_of_legal hl] at h
    exact effect_port he h

/-- Commands offered one by one, a FINISH last, run as `execAll` runs them, two steps for each (R45, R159, R197). -/
theorem run_sendAll {is : List Instr} {s t : State} {rest : List HostAction} (he : s.blockState ≠ .emit)
    (hp : s.cmdPort = none) (hfinish : Instr.finish ∉ is) (ha : s.hostAgenda = sendAll (is ++ [.finish]) ++ rest)
    (hr : rest.head? ≠ some .reset) (h : execAll (is ++ [.finish]) s = .next t) :
    Host.Core.run Sys2Proof.core (2 * (is ++ [Instr.finish]).length) s = .next (t.withAgenda rest) := by
  induction is generalizing s t with
  | nil =>
    obtain ⟨u, hu, hnil⟩ := execAll_cons_next h
    cases hnil
    exact run_command he hp ha hr hu
  | cons i is ih =>
    obtain ⟨hi, his⟩ := not_or.1 (mt List.mem_cons.2 hfinish)
    obtain ⟨u, hu, hrest⟩ := execAll_cons_next h
    obtain ⟨hport, hne⟩ := exec_port he hu
    have hcommand : Host.Core.run Sys2Proof.core 2 s = .next (u.withAgenda (sendAll (is ++ [.finish]) ++ rest)) :=
      run_command he hp ha (by cases is <;> simp [sendAll]) hu
    have hlen : 2 * (i :: is ++ [Instr.finish]).length = 2 + 2 * (is ++ [Instr.finish]).length := by
      rw [List.cons_append, List.length_cons, Nat.mul_succ, Nat.add_comm]
    rw [hlen, core_run_add hcommand]
    exact ih (s := u.withAgenda _) (t := t.withAgenda (sendAll (is ++ [.finish]) ++ rest)) (hne (Ne.symm hi))
      (hport.trans hp) his rfl (execAll_withAgenda _ hrest)

end Sys2Proof.Machine

/-! PROOFS. What the commands of an encode leave, part by part, and the two statements about the whole encode. -/

namespace Sys2Proof.Machine

theorem Inv.after_execAll {is : List Instr} {s t : State} (h : Inv s) (ht : execAll is s = .next t) : Inv t := by
  induction is generalizing s with
  | nil => cases ht; exact h
  | cons i is ih =>
    obtain ⟨u, hu, hinv⟩ := h.exec_answers i
    rw [execAll_cons hu] at ht
    exact ih hinv ht

/-! ## The configuration -/

/-- s as SETW, SETH, SETF and NCLR leave it. -/
def configured (s : State) (w h : U24) (inv lb : Bool) : State :=
  { s with width := w, height := h, invert := inv, lineBreak := lb, nameLen := 0#32 }

theorem execAll_config {s : State} (ho : outsideEncode s.blockState = true) (w h : U24) (inv lb : Bool) :
    execAll [.setw w, .seth h, .setf inv lb, .nclr] s = .next (configured s w h inv lb) := by
  have hsetw : exec (.setw w) s = .next { s with width := w } := exec_of_legal ho
  have hseth : exec (.seth h) { s with width := w } = .next { s with width := w, height := h } := exec_of_legal ho
  have hsetf : exec (.setf inv lb) { s with width := w, height := h } =
      .next { s with width := w, height := h, invert := inv, lineBreak := lb } := exec_of_legal ho
  have hnclr : exec .nclr { s with width := w, height := h, invert := inv, lineBreak := lb } =
      .next (configured s w h inv lb) := exec_of_legal ho
  rw [execAll_cons hsetw, execAll_cons hseth, execAll_cons hsetf, execAll_cons hnclr]
  rfl

/-! ## The name -/

/-- s with the first n bytes of m as its name. -/
def named (s : State) (m : Memory) (n : Nat) : State := { s with name := m, nameLen := BitVec.ofNat 32 n }

/-- NBYTE with room in the store appends to the name (R166). -/
theorem exec_nbyte_named {s : State} (ho : outsideEncode s.blockState = true) (m : Memory) {n : Nat}
    (hn : n < s.params.nameMax.toNat) (b : Byte) :
    exec (.nbyte b) (named s m n) = .next (named s (m.write n b) (n + 1)) := by
  have hlen : (named s m n).nameLen.toNat = n := Nat.mod_eq_of_lt (hn.trans s.params.nameMax.isLt)
  refine (exec_of_legal (i := .nbyte b) (s := named s m n) ho).trans
    ((appendName_of_room (hlen.trans_lt hn) b).trans ?_)
  rw [hlen, named, named, BitVec.ofNat_add]
  rfl

/-- A name that fits the store is in it, byte by byte, after its NBYTEs (R82, R166). -/
theorem execAll_name {s : State} (ho : outsideEncode s.blockState = true) (hlen : s.nameLen = 0#32) {name : List Byte}
    (hfit : name.length ≤ s.params.nameMax.toNat) :
    ∃ m, execAll (name.map .nbyte) s = .next (named s m name.length) ∧
      ∀ k, k < name.length → m.read k = name[k]? := by
  induction name using List.reverseRecOn with
  | nil =>
    have hself : named s s.name 0 = s := by rw [named, ← hlen.trans rfl]
    exact ⟨s.name, congrArg Host.Outcome.next hself.symm, fun k hk => absurd hk (Nat.not_lt_zero k)⟩
  | append_singleton name b ih =>
    rw [List.length_append, List.length_singleton] at hfit ⊢
    obtain ⟨m, hm, hread⟩ := ih (Nat.le_of_succ_le hfit)
    refine ⟨m.write name.length b, ?_, fun k hk => ?_⟩
    · rw [List.map_append, execAll_append hm]
      exact execAll_cons (exec_nbyte_named ho m hfit b) []
    · rw [Memory.read_write]
      split
      · subst k; rw [List.getElem?_concat_length]
      · rw [List.getElem?_append_left (by omega), hread k (by omega)]

/-! ## The image -/

/-- The first n bytes of the memory are those of g, by address. -/
def Memory.holds (m : Memory) (n : Nat) (g : Nat → Byte) : Prop := ∀ a, a < n → m.read a = some (g a)

/-- The packed byte at address a of the buffer (R50, R107). -/
def packedAt (w : Nat) (img : Image) (a : Nat) : Byte := packedByte w img (a / rowStrideOf w) (a % rowStrideOf w)

theorem packedBytes_eq_map {w : Nat} (hw : 0 < w) (h : Nat) (img : Image) :
    packedBytes w h img = (List.range (byteLengthOf w h)).map (packedAt w img) := by
  have hpos : 0 < rowStrideOf w := by unfold rowStrideOf; omega
  induction h with
  | zero => rw [byteLengthOf, Nat.zero_mul]; rfl
  | succ h ih =>
    have hrow : packedRow w img h =
        ((List.range (rowStrideOf w)).map (h * rowStrideOf w + ·)).map (packedAt w img) := by
      rw [packedRow, List.map_map]
      refine List.map_congr_left fun j hj => ?_
      have hj : j < rowStrideOf w := List.mem_range.1 hj
      rw [Function.comp_apply, packedAt, Nat.mul_add_mod', Nat.mod_eq_of_lt hj, Nat.mul_comm, Nat.mul_add_div hpos,
        Nat.div_eq_of_lt hj, Nat.add_zero]
    rw [packedBytes] at ih ⊢
    rw [List.range_succ, List.flatMap_append, List.flatMap_singleton, ih, byteLengthOf, byteLengthOf, Nat.succ_mul,
      List.range_add, List.map_append, hrow]

/-- The byte of the buffer at address a when the emission begins. -/
def imageByte (inv : Bool) (w : Nat) (img : Image) (a : Nat) : Byte :=
  if inv then invertedByte w a (packedAt w img a) else packedAt w img a

/-- The bytes R156 serialises are those, in address order (R107, R123). -/
theorem map_imageByte {w : Nat} (hw : 0 < w) (h : Nat) (inv : Bool) (img : Image) :
    (List.range (byteLengthOf w h)).map (imageByte inv w img) =
      if inv then invertedBytes w (packedBytes w h img) else packedBytes w h img := by
  rw [packedBytes_eq_map hw]
  cases inv with
  | false => rfl
  | true =>
    refine List.ext_getElem? fun a => ?_
    rw [if_pos rfl, invertedBytes, List.getElem?_mapIdx, List.getElem?_map, List.getElem?_map, Option.map_map]
    by_cases ha : a < byteLengthOf w h
    · rw [List.getElem?_range ha]; rfl
    · rw [List.getElem?_eq_none (by simpa using ha)]; rfl

/-- s in LOAD with every pixel of the image packed: the registers of the encode, the cursor past the end, and BUF m. -/
def packed (s : State) (m : Memory) : State :=
  let started := startRegs (clearError s) (rowStrideOf s.width.toNat) (byteLengthOf s.width.toNat s.height.toNat)
  (started.withBuf m).withCursor 0#24 s.height

/-- START and the pixels of an image that fits pack it (R107, R110, R114). -/
theorem Inv.execAll_image {s : State} (h : Inv s) (ho : outsideEncode s.blockState = true)
    (hd : ¬(s.width = 0#24 ∨ s.height = 0#24))
    (hf : byteLengthOf s.width.toNat s.height.toNat ≤ s.params.bufBytes.toNat) (img : Image) :
    ∃ m, execAll ([.start] ++ pixelCommands s.width.toNat s.height.toNat img) s = .next (packed s m) ∧
      m.holds (byteLengthOf s.width.toNat s.height.toNat) (packedAt s.width.toNat img) := by
  obtain ⟨z, hstart, hzero⟩ := startEncode_of_fits hd hf
  have hload := h.after_startEncode hstart
  have hdims := hload.dims (.inl rfl)
  have hlen := hdims.byteLengthIs
  obtain ⟨t, hpixels, hframe, hbytes, _⟩ := packedBufferClosedForm _ img rfl hdims hload.byteLengthBound rfl rfl
    fun a ha => hzero a (hlen ▸ ha)
  refine ⟨t.buf, ?_, fun a ha => ?_⟩
  · rw [List.singleton_append, execAll_cons ((exec_start_of_outsideEncode ho).trans hstart)]
    refine hpixels.trans (congrArg Host.Outcome.next ?_)
    rw [hframe]
    rfl
  · have hin : a < _ := hlen.symm ▸ ha
    have hbyte := hbytes _ _ (hdims.row_lt hin) (Nat.mod_lt a hdims.rowStride_pos)
    rw [Nat.div_add_mod', hdims.rowStrideIs] at hbyte
    exact hbyte

/-! ## The emission -/

theorem nameBytes_eq_of_reads {s : State} {name : List Byte} (hlen : s.nameLen.toNat = name.length)
    (hmax : name.length ≤ s.params.nameMax.toNat) (hread : ∀ k, k < name.length → s.name.read k = name[k]?) :
    nameBytes s = .ok name := by
  obtain ⟨bs, hbs⟩ := nameBytes_ok (hlen ▸ hmax) fun k hk =>
    ⟨_, (hread k (hlen ▸ hk)).trans (List.getElem?_eq_getElem (hlen ▸ hk))⟩
  have hsame : bs = name := List.ext_getElem? fun k => by
    by_cases hk : k < name.length
    · rw [nameBytes_getElem? hbs (hlen ▸ hk), hread k hk]
    · rw [List.getElem?_eq_none (by rw [collect_length hbs, hlen]; omega), List.getElem?_eq_none (by omega)]
  rw [hbs, hsame]

theorem bufBytes_eq_map {s : State} {g : Nat → Byte} (hb : s.byteLength.toNat ≤ s.params.bufBytes.toNat)
    (hread : s.buf.holds s.byteLength.toNat g) :
    bufBytes s = .ok ((List.range s.byteLength.toNat).map g) := by
  rw [bufBytes, List.range_eq_range']
  exact collect_ok fun a _ ha => memRead_ok_iff.2 ⟨by omega, hread a (by omega)⟩

/-- FINISH on the packed image begins the emission of the bytes of R156 (R149). -/
theorem exec_finish_packed {s : State} {m : Memory} {img : Image} (h : Inv (packed s m))
    (hread : m.holds (byteLengthOf s.width.toNat s.height.toNat) (packedAt s.width.toNat img)) :
    ∃ n, exec .finish (packed s m) = .next (finishRegs (packed s n)) ∧
      n.holds (byteLengthOf s.width.toNat s.height.toNat) (imageByte s.invert s.width.toNat img) := by
  have hdims := h.dims (.inl rfl)
  cases hi : s.invert with
  | false => exact ⟨m, (exec_finish_of_load (s := packed s m) rfl).trans (finishEncode_of_plain rfl hi), hread⟩
  | true =>
    obtain ⟨n, hexec, hdata, _⟩ :=
      exec_finish_of_inverted (s := packed s m) rfl rfl hi hdims h.byteLengthBound h.bufWritten
    exact ⟨n, hexec, fun a ha => hdata a _ (hdims.byteLengthIs.symm ▸ ha) (hread a ha)⟩

/-- The emission string of an image whose bytes are in BUF, under a name that is in the store (R151, R156). -/
theorem emission_finishRegs_packed {s : State} {n : Memory} {img : Image} {name : List Byte}
    (h : Inv (finishRegs (packed s n))) (hname : nameBytes s = .ok name)
    (hread : n.holds (byteLengthOf s.width.toNat s.height.toNat) (imageByte s.invert s.width.toNat img)) :
    emission (finishRegs (packed s n)) =
      .ok (encodeImage s.params.hexCase name s.width.toNat s.height.toNat s.invert s.lineBreak img) := by
  have hdims := h.dims (.inr rfl)
  have hw : 0 < s.width.toNat := hdims.widthPos
  have hbytes := bufBytes_eq_map (s := finishRegs (packed s n)) h.byteLengthBound
    fun a ha => hread a (hdims.byteLengthIs ▸ ha)
  rw [encodeImage, ← map_imageByte hw]
  refine (emission_eq (s := finishRegs (packed s n)) hname hbytes).trans ?_
  rw [hdims.byteLengthIs, hdims.rowStrideIs]
  rfl

end Sys2Proof.Machine

/-! PROOFS. The two statements about the whole encode. -/

namespace Sys2Proof.Machine

/-! ## An image that fits -/

/-- s as the commands of an encode leave it: configured, with the first k bytes of m as its name, and the emission
begun on BUF n. -/
def emitting (s : State) (w h : U24) (inv lb : Bool) (m : Memory) (k : Nat) (n : Memory) : State :=
  finishRegs (packed (named (configured s w h inv lb) m k) n)

/-- The commands of an encode that fits end with the emission of R156's string begun (R114, R149, R156). -/
theorem Inv.execAll_encodeCommands {s : State} (hs : Inv s) (ho : outsideEncode s.blockState = true) {name : List Byte}
    {w h : U24} (inv lb : Bool) (img : Image) (hw : w ≠ 0#24) (hh : h ≠ 0#24)
    (hfit : byteLengthOf w.toNat h.toNat ≤ s.params.bufBytes.toNat) (hname : name.length ≤ s.params.nameMax.toNat) :
    ∃ m n, execAll (encodeCommands name w h inv lb img) s =
        .next (emitting s w h inv lb m name.length n) ∧
      emission (emitting s w h inv lb m name.length n) =
        .ok (encodeImage s.params.hexCase name w.toNat h.toNat inv lb img) := by
  obtain ⟨m, hnbytes, hread⟩ := execAll_name (s := configured s w h inv lb) ho rfl hname
  have hconfig : execAll ([.setw w, .seth h, .setf inv lb, .nclr] ++ name.map .nbyte) s =
      .next (named (configured s w h inv lb) m name.length) :=
    (execAll_append (execAll_config ho w h inv lb)).trans hnbytes
  obtain ⟨p, himage, hpacked⟩ := (hs.after_execAll hconfig).execAll_image ho (not_or.2 ⟨hw, hh⟩) hfit img
  have hpixels := (execAll_append hconfig).trans himage
  obtain ⟨n, hfinish, hbytes⟩ := exec_finish_packed (hs.after_execAll hpixels) hpacked
  have hexec : execAll (encodeCommands name w h inv lb img) s =
      .next (emitting s w h inv lb m name.length n) := by
    rw [← List.append_assoc] at hpixels
    exact (execAll_append hpixels).trans (execAll_cons hfinish [])
  have hstore : nameBytes (named (configured s w h inv lb) m name.length) = .ok name :=
    nameBytes_eq_of_reads (Nat.mod_eq_of_lt (Nat.lt_of_le_of_lt hname s.params.nameMax.isLt)) hname hread
  exact ⟨m, n, hexec, emission_finishRegs_packed (hs.after_execAll hexec) hstore hbytes⟩

theorem finish_notMem_pixelCommands (w h : Nat) (img : Image) : Instr.finish ∉ pixelCommands w h img := by
  simp [pixelCommands, rowCommands, pixelCommand]

/-- The commands of an encode, offered one by one, run as `execAll` runs them (R197). -/
theorem run_encodeCommands {s t : State} {name : List Byte} {w h : U24} {inv lb : Bool} {img : Image}
    {rest : List HostAction} (ho : outsideEncode s.blockState = true) (hp : s.cmdPort = none)
    (ha : s.hostAgenda = sendAll (encodeCommands name w h inv lb img) ++ rest) (hr : rest.head? ≠ some .reset)
    (hexec : execAll (encodeCommands name w h inv lb img) s = .next t) :
    Host.Core.run Sys2Proof.core (2 * (encodeCommands name w h inv lb img).length) s = .next (t.withAgenda rest) := by
  obtain ⟨_, hemit⟩ := outsideEncode_eq_true.1 ho
  exact run_sendAll hemit hp (by simp [finish_notMem_pixelCommands]) ha hr hexec

/-- Settles O47: the commands leave the block at the first byte of R156's string, and the takes drain it. -/
theorem encodeEmitsExactly : Obligations.EncodeEmitsExactly := by
  intro s name w h inv lb img rest hs ho hp ha hw hh hfit hname
  obtain ⟨m, n, hexec, hem⟩ := hs.execAll_encodeCommands ho inv lb img hw hh hfit hname
  have hpos : 0 < (encodeImage s.params.hexCase name w.toNat h.toNat inv lb img).length := container_length_pos _ _ _ _
  rw [encodeAgenda, List.append_assoc] at ha
  have hcommands := run_encodeCommands ho hp ha (by simp [List.head?_append, List.head?_replicate, hpos.ne']) hexec
  exact ⟨_, (core_run_add hcommands).trans (run_takes rfl hem hpos (Nat.zero_add _) rfl rfl),
    rfl, rfl, rfl, hp, rfl, rfl⟩

/-! ## An image that does not fit -/

/-- Outside an encode NBYTEs, also those the store has no room for, change the name and STATUS only, and begin no encode
(R166, R180). -/
theorem Inv.execAll_nbytes {s : State} (h : Inv s) (ho : outsideEncode s.blockState = true) (name : List Byte) :
    ∃ t, execAll (name.map .nbyte) s = .next t ∧ outsideEncode t.blockState = true ∧
      t = { s with blockState := t.blockState, err := t.err, name := t.name, nameLen := t.nameLen } := by
  induction name generalizing s with
  | nil => exact ⟨s, rfl, ho, rfl⟩
  | cons b name ih =>
    obtain ⟨u, hu⟩ := h.appendName_answers b
    have hou : outsideEncode u.blockState = true := by
      rcases appendName_next hu with ⟨_, rfl⟩ | ⟨_, _, rfl⟩
      · rw [raiseFault_blockState]; rfl
      · exact ho
    obtain ⟨t, ht, hot, hframe⟩ := ih (h.after_appendName ho hu) hou
    refine ⟨t, (execAll_cons ((exec_of_legal (i := .nbyte b) ho).trans hu) _).trans ht, hot, ?_⟩
    rw [hframe, appendName_frame hu]

/-- START refuses an image with a zero dimension or too large for BUF (R176, R177). -/
theorem startEncode_of_unfit {s : State} (h : s.width = 0#24 ∨ s.height = 0#24 ∨
      s.params.bufBytes.toNat < byteLengthOf s.width.toNat s.height.toNat) :
    startEncode (clearError s) =
      .next (s.withStatus .error (if s.width = 0#24 ∨ s.height = 0#24 then .dim else .capacity)) := by
  by_cases hzero : s.width = 0#24 ∨ s.height = 0#24
  · rw [if_pos hzero, startEncode_of_zero hzero]
  · rw [if_neg hzero, startEncode_of_large hzero ((or_assoc.2 h).resolve_left hzero)]

/-- In ERROR commands that are not legal there are dropped, one and all (R184). -/
theorem execAll_of_error {is : List Instr} {s : State} (he : s.blockState = .error)
    (hillegal : ∀ i ∈ is, legal i.op .error = false) : execAll is s = .next s := by
  induction is with
  | nil => rfl
  | cons i is ih =>
    have hdropped : exec i s = .next s := by
      rw [exec_of_illegal (by simp [he]) (he ▸ hillegal i List.mem_cons_self), raiseFault_of_error he]
    rw [execAll_cons hdropped]
    exact ih fun j hj => hillegal j (List.mem_cons_of_mem i hj)

/-- The pixels of an image and its FINISH are not legal in ERROR (R179). -/
theorem legal_error_of_mem_pixels {w h : Nat} {img : Image} :
    ∀ i ∈ pixelCommands w h img ++ [.finish], legal i.op .error = false := by
  intro i hi
  rcases List.mem_append.1 hi with hpixel | hfinish
  · obtain ⟨y, _, hrow⟩ := List.mem_flatMap.1 hpixel
    obtain ⟨x, _, rfl⟩ := List.mem_map.1 hrow
    rfl
  · rw [List.mem_singleton.1 hfinish]; rfl

/-- Settles O48: START refuses the image, whatever came of the name, and in ERROR the rest is dropped. -/
theorem encodeThatDoesNotFitEndsInError : Obligations.EncodeThatDoesNotFitEndsInError := by
  intro s name w h inv lb img rest hs ho hp ha hr hunfit
  have hconfig := execAll_config ho w h inv lb
  obtain ⟨t, hnbytes, hot, hframe⟩ := (hs.after_execAll hconfig).execAll_nbytes ho name
  have hwidth : t.width = w := by rw [hframe]; rfl
  have hheight : t.height = h := by rw [hframe]; rfl
  have hparams : t.params = s.params := by rw [hframe]; rfl
  have hstart : exec .start t = .next (t.withStatus .error (if w = 0#24 ∨ h = 0#24 then .dim else .capacity)) := by
    rw [exec_start_of_outsideEncode hot, startEncode_of_unfit (by rwa [hwidth, hheight, hparams]), hwidth, hheight]
  have hexec : execAll (encodeCommands name w h inv lb img) s =
      .next (t.withStatus .error (if w = 0#24 ∨ h = 0#24 then .dim else .capacity)) := by
    rw [encodeCommands, List.append_assoc, List.append_assoc, List.append_assoc, execAll_append hconfig,
      execAll_append hnbytes, List.singleton_append, execAll_cons hstart]
    exact execAll_of_error rfl legal_error_of_mem_pixels
  refine ⟨_, run_encodeCommands ho hp ha hr hexec, rfl, rfl, rfl, ?_, ?_, ?_⟩
  all_goals rw [hframe]
  · exact hp
  · rfl
  · rfl

end Sys2Proof.Machine

/-! PROOFS. The commands of the control unit one by one: NOP, the five configuration commands and ABORT. -/

namespace Sys2Proof.Machine

/-! ## The states these commands are legal in (R179) -/

theorem outsideEmit_eq_true {b : BlockState} : outsideEmit b = true ↔ b ≠ .emit := by
  cases b <;> simp [outsideEmit]

theorem outsideEncode_iff {b : BlockState} : outsideEncode b = true ↔ b = .idle ∨ b = .done ∨ b = .error := by
  cases b <;> simp [outsideEncode]

/-- In LOAD a configuration command only takes the fault (R47, R179). -/
theorem exec_config_of_load {i : Instr} {s : State} (hi : i.op ∈ [Op.setw, .seth, .setf, .nclr, .nbyte])
    (hl : s.blockState = .load) : exec i s = .next { s with blockState := .error, err := .sequence } := by
  obtain ⟨_, hload, _⟩ := configurationFrozenDuringEncode
  exact hload i s hi hl

/-! ## Words: their bits, and the reserved ones -/

/-- A word put together from two fields is the upper one shifted to its place, with the lower one (R69). -/
theorem append_eq_or {m n : Nat} (c : BitVec m) (v : BitVec n) :
    c ++ v = (c.setWidth (m + n) <<< n ||| v.setWidth (m + n)) :=
  (BitVec.setWidth_eq _).symm.trans BitVec.setWidth_append_eq_shiftLeft_setWidth_or

/-- A word with an assigned opcode and a reserved operand bit set only takes the fault (R78). -/
theorem accept_of_reservedBitSet {w : Word} {op : Op} (hop : opField w = op.code)
    (hbit : reservedBitSet op.format (operandField w) = true) (s : State) :
    accept w s = .next (raiseFault .reserved s) := by
  have hcode : Op.ofCode (opField w) = some op := by rw [hop, ofCode_code]
  exact accept_of_reservedBits ((decode_eq_reservedBits_iff hcode).2 hbit) s

/-- In the Z format every operand bit is reserved (R70, R78). -/
theorem accept_of_operand_ne_zero {w : Word} {op : Op} (hop : opField w = op.code) (hz : op.format = .z)
    (hne : operandField w ≠ 0#24) (s : State) : accept w s = .next (raiseFault .reserved s) :=
  accept_of_reservedBitSet hop (by rw [hz]; exact bne_iff_ne.2 hne) s

/-! ## NBYTE -/

/-- With no encode in progress NBYTE is its own effect (R166, R179). -/
theorem exec_nbyte_of_outsideEncode {s : State} (h : outsideEncode s.blockState = true) (b : Byte) :
    exec (.nbyte b) s = appendName b s := exec_of_legal h

/-- NBYTE with room in the store: the byte at index NAME_LEN, NAME_LEN one more, every other name byte as before (R166). -/
theorem exec_nbyte_of_room {s : State} (ho : outsideEncode s.blockState = true)
    (h : s.nameLen.toNat < s.params.nameMax.toNat) (b : Byte) :
    ∃ t, exec (.nbyte b) s = .next t ∧ t = { s with name := t.name, nameLen := t.nameLen } ∧
      t.nameLen.toNat = s.nameLen.toNat + 1 ∧ t.name.read s.nameLen.toNat = some b ∧
      ∀ k, k ≠ s.nameLen.toNat → t.name.read k = s.name.read k := by
  have hlen : (s.nameLen + 1#32).toNat = s.nameLen.toNat + 1 :=
    BitVec.toNat_add_of_lt (Nat.lt_of_le_of_lt h s.params.nameMax.isLt)
  exact ⟨_, (exec_nbyte_of_outsideEncode ho b).trans (appendName_of_room h b), rfl, hlen,
    Memory.read_write_same s.name _ b, fun k hk => Memory.read_write_other s.name b hk⟩

/-- NBYTE on a full store only takes the fault (R180). -/
theorem exec_nbyte_of_full {s : State} (ho : outsideEncode s.blockState = true) (h : s.nameLen = s.params.nameMax)
    (b : Byte) : exec (.nbyte b) s = .next (raiseFault .nameFull s) :=
  (exec_nbyte_of_outsideEncode ho b).trans (appendName_of_full h b)

/-- Settles O22: NBYTE's own effect by whether the store has room, and the faults before it. -/
theorem nbyteAppends : Obligations.NbyteAppends := by
  refine ⟨fun b s => ⟨?word, ?room, ?full, ?error, exec_config_of_load (by simp [Instr.op])⟩, rfl, ?reserved⟩
  case word => rw [encode_nbyte]; exact append_eq_or 0x050000#24 b
  case room => exact fun hb hroom => exec_nbyte_of_room (outsideEncode_iff.2 hb) hroom b
  case full =>
    intro hb hfull
    rw [exec_nbyte_of_full (outsideEncode_iff.2 (hb.imp_right .inl)) hfull]
    exact (next_raiseFault _ s).1 (by rcases hb with h | h <;> simp [h])
  case error =>
    intro hb hfull
    rw [exec_nbyte_of_full (outsideEncode_iff.2 (.inr (.inr hb))) hfull]
    exact (next_raiseFault _ s).2 hb
  case reserved =>
    exact fun w s hop hbits =>
      accept_of_reservedBitSet (op := .nbyte) hop ((reservedBitSet_iff .b8 w).2 (.inr (.inr ⟨rfl, hbits⟩))) s

/-! ## The other configuration commands, NOP and ABORT -/

/-- Settles O17: outside EMIT NOP is legal, and its own effect is none. -/
theorem nopChangesNothing : Obligations.NopChangesNothing :=
  ⟨rfl, fun _ hne => exec_of_legal (outsideEmit_eq_true.2 hne),
    fun _ s hop hoperand => accept_of_operand_ne_zero (op := .nop) hop rfl hoperand s⟩

/-- Settles O18: with no encode in progress SETW is legal, and its own effect is the one register write. -/
theorem setwWritesWidth : Obligations.SetwWritesWidth := fun imm _ =>
  ⟨append_eq_or 0x01#8 imm, fun hb => exec_of_legal (outsideEncode_iff.2 hb),
    exec_config_of_load (by simp [Instr.op])⟩

/-- Settles O19: with no encode in progress SETH is legal, and its own effect is the one register write. -/
theorem sethWritesHeight : Obligations.SethWritesHeight := fun imm _ =>
  ⟨append_eq_or 0x02#8 imm, fun hb => exec_of_legal (outsideEncode_iff.2 hb),
    exec_config_of_load (by simp [Instr.op])⟩

/-- Settles O20: with no encode in progress SETF is legal, and its own effect is the write of both flags. -/
theorem setfWritesFlags : Obligations.SetfWritesFlags := by
  refine ⟨fun inv lb s => ⟨?word, fun hb => exec_of_legal (outsideEncode_iff.2 hb),
    exec_config_of_load (by simp [Instr.op])⟩, fun w s hop hbits => ?reserved⟩
  case word => revert inv lb; decide
  case reserved =>
    exact accept_of_reservedBitSet (op := .setf) hop ((reservedBitSet_iff .f2 w).2 (.inr (.inl ⟨rfl, hbits⟩))) s

/-- Settles O21: with no encode in progress NCLR is legal, and a name of length 0 has no bytes to collect. -/
theorem nclrEmptiesName : Obligations.NclrEmptiesName :=
  ⟨rfl, fun _ hb => ⟨_, exec_of_legal (outsideEncode_iff.2 hb), rfl, rfl⟩,
    fun _ => exec_config_of_load (by simp [Instr.op]),
    fun _ s hop hoperand => accept_of_operand_ne_zero (op := .nclr) hop rfl hoperand s⟩

/-- Settles O24: outside EMIT ABORT is legal, and its own effect is the write of STATUS. -/
theorem abortClearsStatus : Obligations.AbortClearsStatus := by
  refine ⟨rfl, fun s hne => exec_of_legal (outsideEmit_eq_true.2 hne), fun s => acceptedWord_of_emit,
    fun w s hop hoperand => ?_⟩
  rw [accept_of_operand_ne_zero (op := .abort) hop rfl hoperand]
  exact next_raiseFault _ s

end Sys2Proof.Machine

/-! PROOFS. One step of the machine: which word it runs, and which changes of the block state it can make. -/

namespace Sys2Proof.Machine

/-! ## The word a step runs, and the host's next action -/

theorem accept_of_command {w : Word} {i : Instr} (h : decode w = .command i) (s : State) : accept w s = exec i s := by
  rw [accept, h]

/-- Outside EMIT RST is asserted exactly by a reset at the head of the agenda (R193). -/
theorem resetAsserted_iff_head? {s : State} (he : s.blockState ≠ .emit) :
    resetAsserted s = true ↔ s.hostAgenda.head? = some .reset := by
  constructor
  · intro htrue
    by_contra hne
    rw [resetAsserted_of_head?_ne he hne] at htrue
    cases htrue
  · intro hhead
    obtain ⟨rest, ha⟩ := List.head?_eq_some_iff.1 hhead
    exact resetAsserted_eq_true.2 ⟨rest, nextAction_cons ha fun _ _ h => by cases h⟩

theorem nextAction_of_nil {s : State} (h : s.hostAgenda = []) : nextAction s = none := by
  simp [nextAction, h, pastOffers]

/-- With nothing to come and no word to accept, nothing changes (R192). -/
theorem step_of_nil {s : State} (hn : acceptedWord s = none) (h : s.hostAgenda = []) : step s = .next s := by
  rw [step_of_none hn, hostStep, nextAction_of_nil h]

/-- With no word to accept, a take at the head of the agenda is the output step (R153). -/
theorem step_of_take {s : State} {rest : List HostAction} (hn : acceptedWord s = none)
    (h : s.hostAgenda = .take :: rest) : step s = outputStep (s.withAgenda rest) := by
  have hnext : nextAction s = some (.take, rest) := nextAction_cons h fun _ _ h => by cases h
  rw [step_of_none hn, hostStep, hnext]

/-- Settles O8: the word accepted by what it decodes to, and the host's action in every other step. -/
theorem stepRunsDecodedCommand : Obligations.StepRunsDecodedCommand := by
  refine ⟨fun s w => ?word, fun s => resetAsserted_iff_head?, fun s w => step_of_accepted, fun s w i h _ hd => ?command,
    fun s w h hd => ?opcode, fun s w h hd => ?bits, fun s => step_of_none, fun s => step_of_nil, fun s rest => step_of_take,
    fun s w rest => step_of_send⟩
  case word =>
    rw [acceptedWord_eq_some]
    exact ⟨fun ⟨hr, he, hp⟩ => ⟨hp, he, hr⟩, fun ⟨hp, he, hr⟩ => ⟨hr, he, hp⟩⟩
  case command => exact (step_of_accepted h).trans (accept_of_command hd _)
  case opcode => exact (step_of_accepted h).trans (accept_of_reservedOpcode hd _)
  case bits => exact (step_of_accepted h).trans (accept_of_reservedBits hd _)

/-! ## Changes of the block state (R169) -/

/-- The block states a command's own effect can lead to: the same, ERROR, or the one that START, FINISH or ABORT is for. -/
theorem effect_blockState {i : Instr} {s t : State} (h : effect i s = .next t) :
    t.blockState = s.blockState ∨ t.blockState = .error ∨ (i = .start ∧ t.blockState = .load) ∨
      (i = .finish ∧ s.curY = s.height ∧ t.blockState = .emit) ∨ (i = .abort ∧ t.blockState = .idle) := by
  cases i with
  | nbyte b =>
    rcases appendName_next h with ⟨_, rfl⟩ | ⟨_, _, rfl⟩
    · exact .inr (.inl (raiseFault_blockState _ s))
    · exact .inl rfl
  | start =>
    rcases startEncode_cases s with ⟨_, hs⟩ | ⟨_, _, _, hs⟩ | ⟨_, _, _, m, hs, _⟩ <;> cases hs.symm.trans h
    · exact .inr (.inl rfl)
    · exact .inr (.inl rfl)
    · exact .inr (.inr (.inl ⟨rfl, rfl⟩))
  | pixel r g b =>
    rcases packPixel_next h with ⟨_, rfl⟩ | ⟨_, _, rfl⟩ | ⟨_, _, v, _, _, rfl⟩
    · exact .inr (.inl (raiseFault_blockState _ s))
    · exact .inl (by rw [advanceCursor_eq]; rfl)
    · exact .inl (by rw [advanceCursor_eq]; rfl)
  | finish =>
    rcases finishEncode_next h with ⟨_, rfl⟩ | ⟨hy, _, rfl⟩ | ⟨hy, _, u, _, rfl⟩
    · exact .inr (.inl (raiseFault_blockState _ s))
    · exact .inr (.inr (.inr (.inl ⟨rfl, hy, rfl⟩)))
    · exact .inr (.inr (.inr (.inl ⟨rfl, hy, rfl⟩)))
  | abort => cases h; exact .inr (.inr (.inr (.inr ⟨rfl, rfl⟩)))
  | _ => cases h; exact .inl rfl

/-- What an accepted word can make of the block state: no change, ERROR, or a legal START, FINISH or ABORT (R169). -/
theorem accept_blockState {w : Word} {s t : State} (he : s.blockState ≠ .emit) (h : accept w s = .next t) :
    t.blockState = s.blockState ∨ t.blockState = .error ∨ ∃ i, decode w = .command i ∧
      ((i = .start ∧ (s.blockState = .idle ∨ s.blockState = .done ∨ s.blockState = .error) ∧ t.blockState = .load) ∨
        (i = .finish ∧ s.blockState = .load ∧ s.curY = s.height ∧ t.blockState = .emit) ∨
        (i = .abort ∧ s.blockState ≠ .emit ∧ t.blockState = .idle)) := by
  rcases accept_next he h with ⟨_, rfl⟩ | ⟨_, rfl⟩ | ⟨i, _, _, rfl⟩ | ⟨i, hd, hlegal, heff⟩
  · exact .inr (.inl (raiseFault_blockState _ s))
  · exact .inr (.inl (raiseFault_blockState _ s))
  · exact .inr (.inl (raiseFault_blockState _ s))
  · rcases effect_blockState heff with hsame | herror | ⟨rfl, ht⟩ | ⟨rfl, hy, ht⟩ | ⟨rfl, ht⟩
    · exact .inl hsame
    · exact .inr (.inl herror)
    · exact .inr (.inr ⟨_, hd, .inl ⟨rfl, outsideEncode_iff.1 hlegal, ht⟩⟩)
    · exact .inr (.inr ⟨_, hd, .inr (.inl ⟨rfl, inLoad_eq_true.1 hlegal, hy, ht⟩)⟩)
    · exact .inr (.inr ⟨_, hd, .inr (.inr ⟨rfl, he, ht⟩)⟩)

/-- The output step changes the block state only by the last byte, from EMIT to DONE (R153, R154, R169). -/
theorem outputStep_blockState {s t : State} (h : outputStep s = .next t) :
    t.blockState = s.blockState ∨ (s.blockState = .emit ∧ t.blockState = .done ∧ outLast s = true) := by
  rcases outputStep_next h with ⟨_, rfl⟩ | ⟨he, e, b, hem, _, ⟨hlast, rfl⟩ | ⟨_, rfl⟩⟩
  · exact .inl rfl
  · exact .inr ⟨he, rfl, (outLast_of_emission he hem).trans (decide_eq_true hlast)⟩
  · exact .inl rfl

theorem not_emit_not_error_iff {b : BlockState} : (b ≠ .emit ∧ b ≠ .error) ↔ (b = .idle ∨ b = .load ∨ b = .done) := by
  cases b <;> simp

/-- Settles O33: of all a step can be, only a reset, an accepted word and the output step write the block state. -/
theorem stateTransitions : Obligations.StateTransitions := by
  intro s t h hne
  rcases step_cases s with ⟨rest, hn, hs⟩ | ⟨w, ha, hs⟩ | ⟨_, _, hs⟩ | ⟨_, rest, hn, hs⟩ | ⟨_, i, rest, _, hs⟩ |
    ⟨_, w, rest, _, _, hs⟩ <;> rw [hs] at h
  · cases h; exact .inl ⟨resetAsserted_eq_true.2 ⟨rest, hn⟩, rfl⟩
  · obtain ⟨_, he, _⟩ := acceptedWord_eq_some.1 ha
    rcases accept_blockState (s := s.withPort none) he h with hsame | herror | ⟨i, hd, hrow⟩
    · exact absurd hsame hne
    · have hnot : s.blockState ≠ .error := fun hb => hne (herror.trans hb.symm)
      exact .inr (.inr (.inl ⟨w, ha, not_emit_not_error_iff.1 ⟨he, hnot⟩, herror⟩))
    · exact .inr (.inl ⟨w, i, ha, hd, hrow⟩)
  · cases h; exact absurd rfl hne
  · rcases outputStep_blockState h with hsame | ⟨he, ht, hlast⟩
    · exact absurd hsame hne
    · exact .inr (.inr (.inr ⟨he, by rw [hn]; rfl, ht, hlast⟩))
  · cases h; exact absurd rfl hne
  · cases h; exact absurd rfl hne

end Sys2Proof.Machine

/-! PROOFS. The legality table, the fault each word meets, and how ERROR is entered and left. -/

namespace Sys2Proof.Machine

/-! ## The legality table (R179) -/

theorem outsideEmit_iff_mem {b : BlockState} :
    outsideEmit b = true ↔ b ∈ [BlockState.idle, .load, .done, .error] := by
  cases b <;> decide

theorem outsideEncode_iff_mem {b : BlockState} :
    outsideEncode b = true ↔ b ∈ [BlockState.idle, .done, .error] := by
  cases b <;> decide

/-- Settles O28: each group of opcodes shares one row of the table, and what its row does not allow is one fault. -/
theorem legalityTable : Obligations.LegalityTable := by
  refine ⟨?outsideEmit, ?outsideEncode, ?inLoad, ?illegal, fun s => acceptedWord_of_emit, rfl⟩
  case outsideEmit =>
    intro op hop b
    simp only [List.mem_cons, List.not_mem_nil, or_false] at hop
    rcases hop with rfl | rfl | rfl <;> exact outsideEmit_iff_mem
  case outsideEncode =>
    intro op hop b
    simp only [List.mem_cons, List.not_mem_nil, or_false] at hop
    rcases hop with rfl | rfl | rfl | rfl | rfl | rfl <;> exact outsideEncode_iff_mem
  case inLoad =>
    intro op hop b
    simp only [List.mem_cons, List.not_mem_nil, or_false] at hop
    rcases hop with rfl | rfl <;> exact inLoad_eq_true
  case illegal =>
    intro i s he hl
    rw [exec_of_illegal he hl]
    exact next_raiseFault _ s

/-! ## The fault a word meets (R181) -/

/-- The faults of a command's own check (R176 to R178, R180). -/
inductive OwnFault (s : State) : Instr → ErrCode → Prop where
  | dim (h : s.width = 0#24 ∨ s.height = 0#24) : OwnFault s .start .dim
  | capacity (hw : s.width ≠ 0#24) (hh : s.height ≠ 0#24)
      (hlarge : s.params.bufBytes.toNat < byteLengthOf s.width.toNat s.height.toNat) : OwnFault s .start .capacity
  | overrun {r g b : Byte} (h : s.curY = s.height) : OwnFault s (.pixel r g b) .overrun
  | underrun (h : s.curY ≠ s.height) : OwnFault s .finish .underrun
  | nameFull {b : Byte} (h : s.nameLen = s.params.nameMax) : OwnFault s (.nbyte b) .nameFull

/-- The faults a word can meet in s, one constructor for each rank of R181. -/
inductive MeetsFault (s : State) (w : Word) : ErrCode → Prop where
  | opcode (h : decode w = .reservedOpcode) : MeetsFault s w .opcode
  | reserved (h : decode w = .reservedBits) : MeetsFault s w .reserved
  | sequence {i : Instr} (hd : decode w = .command i) (h : legal i.op s.blockState = false) : MeetsFault s w .sequence
  | own {i : Instr} {c : ErrCode} (hd : decode w = .command i) (hl : legal i.op s.blockState = true)
      (h : OwnFault s i c) : MeetsFault s w c

theorem OwnFault.ne_noError {s : State} {i : Instr} {c : ErrCode} (h : OwnFault s i c) : c ≠ .noError := by
  cases h <;> decide

/-- A fault always has a code of its own (R171). -/
theorem MeetsFault.ne_noError {s : State} {w : Word} {c : ErrCode} (h : MeetsFault s w c) : c ≠ .noError := by
  cases h with
  | opcode | reserved | sequence => decide
  | own _ _ h => exact h.ne_noError

/-- A START that ends in ERROR records its own fault, from any state (R173, R176, R177). -/
theorem startEncode_fault {s t : State} (h : startEncode (clearError s) = .next t) (ht : t.blockState = .error) :
    ∃ c, OwnFault s .start c ∧ t = s.withStatus .error c := by
  rcases startEncode_cases s with ⟨hzero, hs⟩ | ⟨hw, hh, hlarge, hs⟩ | ⟨_, _, _, m, hs, _⟩ <;> cases hs.symm.trans h
  · exact ⟨_, .dim hzero, rfl⟩
  · exact ⟨_, .capacity hw hh hlarge, rfl⟩
  · cases ht

/-- A command's own effect that enters ERROR is a fault of its own check, and writes STATUS only (R173). -/
theorem effect_fault {i : Instr} {s t : State} (he : s.blockState ≠ .error) (h : effect i s = .next t)
    (ht : t.blockState = .error) : ∃ c, OwnFault s i c ∧ t = s.withStatus .error c := by
  cases i with
  | nbyte b =>
    rcases appendName_next h with ⟨hfull, rfl⟩ | ⟨_, _, rfl⟩
    · exact ⟨_, .nameFull hfull, raiseFault_of_ne he _⟩
    · exact absurd ht he
  | start => exact startEncode_fault h ht
  | pixel r g b =>
    rcases packPixel_next h with ⟨hpast, rfl⟩ | ⟨_, _, rfl⟩ | ⟨_, _, v, _, _, rfl⟩
    · exact ⟨_, .overrun hpast, raiseFault_of_ne he _⟩
    · rw [advanceCursor_eq] at ht; exact absurd ht he
    · rw [advanceCursor_eq] at ht; exact absurd ht he
  | finish =>
    rcases finishEncode_next h with ⟨hearly, rfl⟩ | ⟨_, _, rfl⟩ | ⟨_, _, u, _, rfl⟩
    · exact ⟨_, .underrun hearly, raiseFault_of_ne he _⟩
    · cases ht
    · cases ht
  | abort => cases h; cases ht
  | _ => cases h; exact absurd ht he

/-- A command that enters ERROR meets a fault, and writes STATUS only (R173, R179). -/
theorem exec_fault {i : Instr} {s t : State} (he : s.blockState ≠ .error) (h : exec i s = .next t)
    (ht : t.blockState = .error) :
    (legal i.op s.blockState = false ∧ t = s.withStatus .error .sequence) ∨
      (legal i.op s.blockState = true ∧ ∃ c, OwnFault s i c ∧ t = s.withStatus .error c) := by
  by_cases hemit : s.blockState = .emit
  · rw [exec_of_emit hemit] at h
    cases h
    exact absurd ht he
  · cases hl : legal i.op s.blockState with
    | false =>
      rw [exec_of_illegal hemit hl] at h
      cases h
      exact .inl ⟨rfl, raiseFault_of_ne he _⟩
    | true =>
      rw [exec_of_legal hl] at h
      exact .inr ⟨rfl, effect_fault he h ht⟩

/-- A word that takes the block to ERROR meets a fault, and writes STATUS only (R173, R181). -/
theorem accept_fault {w : Word} {s t : State} (he : s.blockState ≠ .error) (h : accept w s = .next t)
    (ht : t.blockState = .error) : ∃ c, MeetsFault s w c ∧ t = s.withStatus .error c := by
  rcases accept_cases w s with ⟨hd, ha⟩ | ⟨hd, ha⟩ | ⟨i, hd, ha⟩ <;> rw [ha] at h
  · cases h; exact ⟨_, .opcode hd, raiseFault_of_ne he _⟩
  · cases h; exact ⟨_, .reserved hd, raiseFault_of_ne he _⟩
  · rcases exec_fault he h ht with ⟨hl, rfl⟩ | ⟨hl, c, hc, rfl⟩
    · exact ⟨_, .sequence hd hl, rfl⟩
    · exact ⟨c, .own hd hl hc, rfl⟩

/-! ## Entering ERROR -/

/-- Settles O29: a word that enters ERROR meets a fault, which writes STATUS; in ERROR only START's own check does. -/
theorem faultEntryWritesOnlyStatus : Obligations.FaultEntryWritesOnlyStatus := by
  refine ⟨fun c s he => raiseFault_of_error he c, fun c s he => raiseFault_of_ne he c, fun w s t he h ht => ?enters,
    fun s t he h ht => ?start⟩
  case enters =>
    obtain ⟨c, hc, rfl⟩ := accept_fault he h ht
    exact ⟨hc.ne_noError, rfl, rfl⟩
  case start =>
    rw [exec_start_of_outsideEncode (by rw [he]; rfl)] at h
    obtain ⟨c, hc, rfl⟩ := startEncode_fault h ht
    have hstatus : s.withStatus .error c = { s with err := c } := by rw [← he]; rfl
    refine ⟨?_, hstatus⟩
    cases hc with
    | dim => exact .inl rfl
    | capacity => exact .inr rfl

/-- Settles O32: what a word decodes to and the legality table leave one rank for the fault it meets. -/
theorem faultPriority : Obligations.FaultPriority := by
  intro w s t he _ h ht
  obtain ⟨c, hc, rfl⟩ := accept_fault he h ht
  rw [State.withStatus_err]
  cases hc with
  | opcode hd => exact ⟨fun _ => rfl, by simp [hd], by simp [hd]⟩
  | reserved hd => exact ⟨by simp [hd], fun _ => rfl, by simp [hd]⟩
  | sequence hd hl =>
    refine ⟨by simp [hd], by simp [hd], fun j hj => ?_⟩
    cases hd.symm.trans hj
    exact ⟨fun _ => rfl, fun hlegal => absurd (hl.symm.trans hlegal) Bool.false_ne_true⟩
  | own hd hl hown =>
    refine ⟨by simp [hd], by simp [hd], fun j hj => ?_⟩
    cases hd.symm.trans hj
    refine ⟨fun hillegal => absurd (hillegal.symm.trans hl) Bool.false_ne_true, fun _ => ?_⟩
    cases hown with
    | dim hzero => exact .inl ⟨rfl, hzero, rfl⟩
    | capacity hw hh _ => exact .inr (.inl ⟨rfl, hw, hh, rfl⟩)
    | overrun => exact .inr (.inr (.inl ⟨⟨_, _, _, rfl⟩, rfl⟩))
    | underrun => exact .inr (.inr (.inr (.inl ⟨rfl, rfl⟩)))
    | nameFull => exact .inr (.inr (.inr (.inr ⟨⟨_, rfl⟩, rfl⟩)))

/-! ## In ERROR -/

/-- In ERROR a word that would fault is dropped, but for START's own check (R173, R184). -/
theorem accept_of_error {w : Word} {s : State} (he : s.blockState = .error)
    (h : decode w = .reservedOpcode ∨ decode w = .reservedBits ∨
      (∃ i, decode w = .command i ∧ legal i.op .error = false) ∨
      (∃ b, decode w = .command (.nbyte b) ∧ s.nameLen = s.params.nameMax)) : accept w s = .next s := by
  rcases h with hd | hd | ⟨i, hd, hl⟩ | ⟨b, hd, hfull⟩
  · rw [accept_of_reservedOpcode hd, raiseFault_of_error he]
  · rw [accept_of_reservedBits hd, raiseFault_of_error he]
  · rw [accept_of_command hd, exec_of_illegal (by simp [he]) (by rw [he, hl]), raiseFault_of_error he]
  · rw [accept_of_command hd, exec_nbyte_of_full (by rw [he]; rfl) hfull, raiseFault_of_error he]

/-- In ERROR no command but START and ABORT writes STATUS (R184). -/
theorem effect_status_of_error {i : Instr} {s t : State} (he : s.blockState = .error)
    (hl : legal i.op s.blockState = true) (hstart : i ≠ .start) (habort : i ≠ .abort) (h : effect i s = .next t) :
    t.blockState = .error ∧ t.err = s.err := by
  cases i with
  | nbyte b =>
    rcases appendName_next h with ⟨_, rfl⟩ | ⟨_, _, rfl⟩
    · rw [raiseFault_of_error he]; exact ⟨he, rfl⟩
    · exact ⟨he, rfl⟩
  | start => exact absurd rfl hstart
  | abort => exact absurd rfl habort
  | pixel | finish => rw [he] at hl; cases hl
  | _ => cases h; exact ⟨he, rfl⟩

/-- Settles O30: a fault in ERROR changes nothing, and the commands that run there do not write STATUS. -/
theorem firstErrorSticky : Obligations.FirstErrorSticky := by
  intro w s t he h hstart habort
  have hstatus : t.blockState = .error ∧ t.err = s.err := by
    rcases accept_next (by simp [he]) h with ⟨_, rfl⟩ | ⟨_, rfl⟩ | ⟨i, _, _, rfl⟩ | ⟨i, hd, hl, heff⟩
    · rw [raiseFault_of_error he]; exact ⟨he, rfl⟩
    · rw [raiseFault_of_error he]; exact ⟨he, rfl⟩
    · rw [raiseFault_of_error he]; exact ⟨he, rfl⟩
    · exact effect_status_of_error he hl (fun hi => hstart (hi ▸ hd)) (fun hi => habort (hi ▸ hd)) heff
  obtain ⟨hblock, herr⟩ := hstatus
  refine ⟨hblock, herr, fun hfault => ?_⟩
  cases (accept_of_error he hfault).symm.trans h
  rfl

/-! ## Leaving ERROR -/

/-- A START that begins an encode puts the cursor at its first pixel (R110). -/
theorem startEncode_cursor {s t : State} (h : startEncode (clearError s) = .next t) (ht : t.blockState = .load) :
    t.curX = 0#24 ∧ t.curY = 0#24 := by
  rcases startEncode_cases s with ⟨_, hs⟩ | ⟨_, _, _, hs⟩ | ⟨_, _, _, m, hs, _⟩ <;> cases hs.symm.trans h
  · cases ht
  · cases ht
  · exact ⟨rfl, rfl⟩

/-- Settles O31: of the changes of the block state three start from ERROR, and START's is a new encode. -/
theorem errorLeftOnlyByStartAbortReset : Obligations.ErrorLeftOnlyByStartAbortReset := by
  intro s t he h ht
  rcases stateTransitions s t h (he ▸ ht) with hreset | ⟨w, i, ha, hd, hrow⟩ | ⟨_, _, _, herror⟩ | ⟨hemit, _⟩
  · exact .inl hreset
  · rw [← encode_of_decode hd] at ha
    rcases hrow with ⟨rfl, _, hload⟩ | ⟨_, hload, _⟩ | ⟨rfl, _, hidle⟩
    · rw [step_of_accepted ha, accept_encode, exec_start_of_outsideEncode (by rw [State.withPort_blockState, he]; rfl)] at h
      exact .inr (.inr ⟨ha, hload, startEncode_cursor h hload⟩)
    · rw [he] at hload; cases hload
    · exact .inr (.inl ⟨ha, hidle⟩)
  · exact absurd herror ht
  · rw [he] at hemit; cases hemit

end Sys2Proof.Machine

/-! PROOFS. A block with nothing to do: the end of a run, and the hang in EMIT. -/

namespace Sys2Proof.Machine

/-! ## Runs -/

theorem acceptedWord_of_port_none {s : State} (h : s.cmdPort = none) : acceptedWord s = none := by
  simp [acceptedWord, h]

/-- A state that steps to itself stays for ever. -/
theorem core_run_of_fixed {s : State} (h : step s = .next s) (n : Nat) : Host.Core.run Sys2Proof.core n s = .next s := by
  induction n with
  | zero => rfl
  | succ n ih => exact (core_run_succ h n).trans ih

theorem runOver_port {s : State} (h : runOver s = true) : s.cmdPort = none := by
  simp only [runOver, noCommandLeft, Bool.and_eq_true, Option.isNone_iff_eq_none] at h
  obtain ⟨⟨hport, _⟩, _⟩ := h
  exact hport

/-! ## The hang (R199) -/

theorem hangs_iff {s : State} :
    hangs s = true ↔ s.blockState = .emit ∧ ∀ a ∈ s.hostAgenda, a.endsEmission = false := by
  simp [hangs]

/-- From s to t the block keeps all but the word on CMD; else only the host's agenda and its reads may differ. -/
def BlockKept (s t : State) : Prop :=
  t = { s with cmdPort := t.cmdPort, hostAgenda := t.hostAgenda, hostReads := t.hostReads }

theorem BlockKept.trans {s t u : State} (hst : BlockKept s t) (htu : BlockKept t u) : BlockKept s u := by
  unfold BlockKept at *
  rw [htu, hst]

/-- In a hang the next action is an offer or a read, or there is none (R198, R199). -/
theorem nextAction_endsEmission_of_hangs {s : State} {a : HostAction} {rest : List HostAction} (h : hangs s = true)
    (hn : nextAction s = some (a, rest)) : a.endsEmission = false ∧ ∀ b ∈ rest, b.endsEmission = false := by
  obtain ⟨_, hall⟩ := hangs_iff.1 h
  obtain ⟨ha, hrest⟩ := nextAction_mem hn
  exact ⟨hall a ha, fun b hb => hall b (hrest b hb)⟩

/-- A step of a hang leaves a hang, and the block as it was (R199, log 6). -/
theorem step_of_hangs {s : State} (h : hangs s = true) : ∃ t, step s = .next t ∧ hangs t = true ∧ BlockKept s t := by
  obtain ⟨hemit, hall⟩ := hangs_iff.1 h
  rcases step_cases s with ⟨rest, hn, _⟩ | ⟨w, ha, _⟩ | ⟨_, _, hs⟩ | ⟨_, rest, hn, _⟩ | ⟨_, i, rest, hn, hs⟩ |
    ⟨_, w, rest, hagenda, _, hs⟩
  · obtain ⟨hreset, _⟩ := nextAction_endsEmission_of_hangs h hn
    cases hreset
  · rw [acceptedWord_of_emit hemit] at ha; cases ha
  · exact ⟨s, hs, h, rfl⟩
  · obtain ⟨htake, _⟩ := nextAction_endsEmission_of_hangs h hn
    cases htake
  · obtain ⟨_, hrest⟩ := nextAction_endsEmission_of_hangs h hn
    exact ⟨_, hs, hangs_iff.2 ⟨hemit, hrest⟩, rfl⟩
  · rw [hagenda] at hall
    exact ⟨_, hs, hangs_iff.2 ⟨hemit, fun b hb => hall b (List.mem_cons_of_mem _ hb)⟩, rfl⟩

/-- A hang lasts for ever (R199). -/
theorem run_of_hangs {s : State} (h : hangs s = true) (n : Nat) :
    ∃ t, Host.Core.run Sys2Proof.core n s = .next t ∧ hangs t = true ∧ BlockKept s t := by
  induction n generalizing s with
  | zero => exact ⟨s, rfl, h, rfl⟩
  | succ n ih =>
    obtain ⟨t, hs, ht, hst⟩ := step_of_hangs h
    obtain ⟨u, hrun, hu, htu⟩ := ih ht
    exact ⟨u, (core_run_succ hs n).trans hrun, hu, hst.trans htu⟩

/-- Settles O12: with CMD free and nothing to come a step changes nothing, and a hang steps to a hang. -/
theorem waitingKeepsEverything : Obligations.WaitingKeepsEverything :=
  ⟨fun _ hover hagenda => core_run_of_fixed (step_of_nil (acceptedWord_of_port_none (runOver_port hover)) hagenda),
    fun _ => run_of_hangs⟩

end Sys2Proof.Machine

/-! PROOFS. What reset leaves: the invariant, the registers' reset values, and the defaults of the first START. -/

namespace Sys2Proof.Machine

/-! ## The state right after reset (R193) -/

/-- Right after reset of a valid build the stores are empty, the lengths are 0 and no encode is in progress. -/
theorem inv_resetWith {p : Params} (hp : p.valid = true) : Inv (State.resetWith p) :=
  have hidle : ¬inEncode (State.resetWith p) := fun he => by rcases he with he | he <;> cases he
  { paramsValid := hp
    bufWf := rfl
    bufInside := Memory.inside_nil _
    nameWf := rfl
    nameInside := Memory.inside_nil _
    nameLenBound := Nat.zero_le _
    nameWritten := Memory.covers_zero _
    errExactly := by simp
    byteLengthBound := Nat.zero_le _
    bufWritten := Memory.covers_zero _
    dims := fun he => absurd he hidle
    padding := fun he => absurd he hidle
    loadCursor := fun hl => absurd (.inl hl) hidle
    takenCount := rfl
    emitProgress := fun he => absurd (.inr he) hidle
    doneArtifact := fun hd => by cases hd }

/-- Settles O58: any valid build, and the one of `Config.build`. -/
theorem invariantAtReset : Obligations.InvariantAtReset :=
  ⟨fun _ => inv_resetWith, inv_resetWith (by decide)⟩

theorem statusWord_of_idle {s : State} (hb : s.blockState = .idle) (he : s.err = .noError) : statusWord s = 0#32 := by
  rw [statusWord, hb, he]
  decide

theorem flagsWord_of_off {s : State} (hi : s.invert = false) (hl : s.lineBreak = false) : flagsWord s = 0#32 := by
  rw [flagsWord, hi, hl]
  decide

/-- Settles O11: START's dimension check comes first, and WIDTH is 0. -/
theorem defaultsAfterReset : Obligations.DefaultsAfterReset := by
  intro p
  have hstart : exec .start (State.resetWith p) = .next ((State.resetWith p).withStatus .error .dim) :=
    (exec_start_of_outsideEncode rfl).trans (startEncode_of_zero (.inl rfl))
  exact ⟨hstart, rfl, rfl, rfl, statusWord_of_idle rfl rfl⟩

/-! ## Every register at its reset value (R193) -/

/-- After reset every register reads 0 but the three constants of the build (R37 to R39, R193). -/
theorem readReg_resetBlock (s : State) (i : Byte) : readReg (resetBlock s) i =
    if i.toNat = 0x0B ∨ i.toNat = 0x0C ∨ i.toNat = 0x0D then readReg s i else 0#32 := by
  split
  case isTrue hconst =>
    have hi : i = 0x0B#8 ∨ i = 0x0C#8 ∨ i = 0x0D#8 := by bv_omega
    rcases hi with rfl | rfl | rfl <;> rfl
  case isFalse hother =>
    unfold readReg
    split
    case h_1 => exact statusWord_of_idle rfl rfl
    case h_4 => exact flagsWord_of_off rfl rfl
    case h_12 | h_13 | h_14 => omega
    all_goals rfl

/-- Settles O10: the step is the reset, whatever the state and the word on CMD. -/
theorem resetTakesEffect : Obligations.ResetTakesEffect := by
  intro s rest hagenda
  exact ⟨_, step_of_reset hagenda, rfl, rfl, rfl, rfl, rfl, rfl, rfl, rfl, rfl, rfl, rfl, rfl, rfl, rfl,
    readReg_resetBlock (s.withAgenda rest), rfl, rfl, rfl⟩

end Sys2Proof.Machine

/-! PROOFS. The host in EMIT: its next action past offers that wait, and the word that waits on CMD. -/

namespace Sys2Proof.Machine

/-! ## The host's next action -/

/-- Taking the next action keeps every other action of the agenda. -/
theorem nextAction_perm {s : State} {a : HostAction} {rest : List HostAction} (h : nextAction s = some (a, rest)) :
    s.hostAgenda.Perm (a :: rest) := by
  unfold nextAction at h
  split at h
  · obtain ⟨_, pre, post, _, hagenda, rfl⟩ := pastOffers_some h
    rw [hagenda]
    exact List.perm_middle
  · split at h
    · cases h
    · rename_i hagenda
      cases h
      rw [hagenda]

/-- The host has no next action only when all it has to come are offers. -/
theorem send_of_nextAction_none {s : State} (h : nextAction s = none) : ∀ b ∈ s.hostAgenda, ∃ w, b = .send w := by
  unfold nextAction at h
  split at h
  · exact pastOffers_none.1 h
  · split at h
    · rename_i hagenda
      rw [hagenda]
      exact fun b hb => by cases hb
    · cases h

theorem step_of_emit {s : State} (he : s.blockState = .emit) : step s = hostStep s :=
  step_of_none (acceptedWord_of_emit he)

section Waiting

variable {s : State} {w : Word} (he : s.blockState = .emit) (hp : s.cmdPort = some w)
include he hp

/-- While a word waits on CMD in EMIT the host's further offers are passed over (log 6). -/
theorem nextAction_of_waiting : nextAction s = pastOffers s.hostAgenda :=
  if_pos ⟨he, Option.isSome_of_mem hp⟩

/-- With nothing but offers to come, a word that waits keeps the whole state as it is (log 6). -/
theorem step_of_waiting_offers {ws : List Word} (ha : s.hostAgenda = ws.map .send) : step s = .next s := by
  have hnone : nextAction s = none := by
    rw [nextAction_of_waiting he hp, ha, pastOffers_none]
    exact fun b hb => (List.mem_map.1 hb).imp fun _ hw => hw.2.symm
  rw [step_of_emit he, hostStep, hnone]

/-- The action behind offers that wait is the next one (log 6). -/
theorem nextAction_behind_offers {ws : List Word} {a : HostAction} {rest : List HostAction}
    (ha : s.hostAgenda = ws.map .send ++ a :: rest) (hne : ∀ u, a ≠ .send u) :
    nextAction s = some (a, ws.map .send ++ rest) := by
  rw [nextAction_of_waiting he hp, ha, pastOffers_map_append ws hne]

/-- While a word waits on CMD in EMIT, a step short of reset moves the emission and the host's record only (R198). -/
theorem step_frame_of_waiting {t : State} (hr : resetAsserted s = false) (h : step s = .next t) :
    t = { s with blockState := t.blockState, outCount := t.outCount, hostAgenda := t.hostAgenda,
                 hostTaken := t.hostTaken, hostArtifacts := t.hostArtifacts, hostReads := t.hostReads } := by
  rcases step_cases s with ⟨rest, hn, _⟩ | ⟨u, ha, _⟩ | ⟨_, _, hs⟩ | ⟨_, rest, _, hs⟩ | ⟨_, i, rest, _, hs⟩ |
    ⟨_, u, rest, _, hfree, _⟩
  · rw [resetAsserted_eq_true.2 ⟨rest, hn⟩] at hr; cases hr
  · rw [acceptedWord_of_emit he] at ha; cases ha
  · rw [hs] at h; cases h; rfl
  · rw [hs] at h; rw [outputStep_frame h]; rfl
  · rw [hs] at h; cases h; rfl
  · rw [hp] at hfree; cases hfree

end Waiting

/-- In EMIT a step short of reset ends the emission, in DONE, or leaves the block in EMIT (R169). -/
theorem step_blockState_of_emit {s t : State} (he : s.blockState = .emit) (hr : resetAsserted s = false)
    (h : step s = .next t) : t.blockState = .emit ∨ t.blockState = .done := by
  by_cases hsame : t.blockState = s.blockState
  · exact .inl (hsame.trans he)
  · have hnone : acceptedWord s = none := acceptedWord_of_emit he
    rcases stateTransitions s t h hsame with ⟨hreset, _⟩ | ⟨w, _, ha, _⟩ | ⟨w, ha, _⟩ | ⟨_, _, hdone, _⟩
    · rw [hr] at hreset; cases hreset
    · rw [hnone] at ha; cases ha
    · rw [hnone] at ha; cases ha
    · exact .inr hdone

/-- Settles O9: the frame of a step in EMIT holds the word, and past the offers that wait stands the host's next action. -/
theorem commandWaitsInEmit : Obligations.CommandWaitsInEmit := by
  refine ⟨fun i s he => exec_of_emit he i, fun s t w he hp hr h => ?held, fun s _ hr => ?reset,
    fun s w rest _ => step_of_send, fun s w ws he hp => ⟨step_of_waiting_offers he hp, fun rest => ?behind⟩⟩
  case held =>
    have hframe := step_frame_of_waiting he hp hr h
    have hport : t.cmdPort = some w := (congrArg State.cmdPort hframe).trans hp
    exact ⟨hframe, step_blockState_of_emit he hr h,
      fun hdone hrt => step_of_accepted (acceptedWord_eq_some.2 ⟨hrt, by simp [hdone], hport⟩)⟩
  case reset =>
    obtain ⟨rest, hn⟩ := resetAsserted_eq_true.1 hr
    exact ⟨_, step_of_resetAsserted hn, rfl⟩
  case behind =>
    refine ⟨fun i ha => ?read, fun ha => ?take, fun ha => ?reset⟩
    case read =>
      rw [step_of_emit he, hostStep, nextAction_behind_offers he hp ha fun _ h => by cases h]
      rfl
    case take =>
      rw [step_of_emit he, hostStep, nextAction_behind_offers he hp ha fun _ h => by cases h]
      rfl
    case reset => exact step_of_resetAsserted (nextAction_behind_offers he hp ha fun _ h => by cases h)

end Sys2Proof.Machine

/-! PROOFS. The end of a run and the hang: what each is, and the reset that ends a hang. -/

namespace Sys2Proof.Machine

/-! ## The end of a run (R205) -/

theorem isSend_eq_false {a : HostAction} : a.isSend = false ↔ ∀ w, a ≠ .send w := by
  cases a <;> simp [HostAction.isSend]

theorem endsEmission_eq_false {a : HostAction} : a.endsEmission = false ↔ a ≠ .take ∧ a ≠ .reset := by
  cases a <;> simp [HostAction.endsEmission]

theorem runOver_iff {s : State} : runOver s = true ↔
    s.cmdPort = none ∧ (∀ w, HostAction.send w ∉ s.hostAgenda) ∧
      (s.blockState = .idle ∨ s.blockState = .done ∨ s.blockState = .error) := by
  have hagenda : (∀ a ∈ s.hostAgenda, a.isSend = false) ↔ ∀ w, HostAction.send w ∉ s.hostAgenda := by
    simp only [isSend_eq_false]
    exact ⟨fun h w hw => h _ hw w rfl, fun h a ha w haw => h w (haw ▸ ha)⟩
  simp [runOver, noCommandLeft, ← hagenda, outsideEncode_iff, and_assoc]

/-- A run that is over stays over, and short of reset only the host's agenda and reads change (R192, R205). -/
theorem step_of_runOver {s : State} (h : runOver s = true) : ∃ t, step s = .next t ∧ runOver t = true ∧
    ((resetAsserted s = true ∧ t.blockState = .idle) ∨
      t = { s with hostAgenda := t.hostAgenda, hostReads := t.hostReads }) := by
  obtain ⟨hp, hsend, hb⟩ := runOver_iff.1 h
  have hne : s.blockState ≠ .emit := fun he => by rw [he] at hb; simp at hb
  have hrest : ∀ {a rest}, nextAction s = some (a, rest) → ∀ w, HostAction.send w ∉ rest := fun hn w hw =>
    hsend w ((nextAction_mem hn).2 _ hw)
  rcases step_cases s with ⟨rest, hn, hs⟩ | ⟨w, ha, _⟩ | ⟨_, _, hs⟩ | ⟨_, rest, hn, hs⟩ | ⟨_, i, rest, hn, hs⟩ |
    ⟨_, w, rest, ha, _, _⟩
  · exact ⟨_, hs, runOver_iff.2 ⟨rfl, hrest hn, .inl rfl⟩, .inl ⟨resetAsserted_eq_true.2 ⟨rest, hn⟩, rfl⟩⟩
  · rw [acceptedWord_of_port_none hp] at ha; cases ha
  · exact ⟨s, hs, h, .inr rfl⟩
  · exact ⟨_, hs.trans (outputStep_of_ne (s := s.withAgenda rest) hne), runOver_iff.2 ⟨hp, hrest hn, hb⟩, .inr rfl⟩
  · exact ⟨_, hs, runOver_iff.2 ⟨hp, hrest hn, hb⟩, .inr rfl⟩
  · exact absurd (ha ▸ List.mem_cons_self) (hsend w)

/-- The output step that ends an emission leaves the host with the whole of E (R154, R205). -/
theorem Inv.outputStep_hostTaken {s t : State} (hinv : Inv s) (he : s.blockState = .emit) (h : outputStep s = .next t)
    (hd : t.blockState = .done) : emission s = .ok t.hostTaken := by
  obtain ⟨e, hem, hk, htaken⟩ := hinv.emitProgress he
  cases (outputStep_of_emit he hem hk).symm.trans h
  by_cases hlast : s.outCount + 1 = e.length
  · rw [if_pos hlast, takeLast_hostTaken, htaken, List.take_append_getElem hk, hlast, List.take_length, hem]
  · rw [if_neg hlast, takeByte_blockState, he] at hd
    cases hd

/-- Of all a step in EMIT can be, only the output step leads to DONE (R169, R205). -/
theorem Inv.hostTaken_of_done {s t : State} (hinv : Inv s) (he : s.blockState = .emit) (h : step s = .next t)
    (hd : t.blockState = .done) : emission s = .ok t.hostTaken := by
  have hemit : t.blockState ≠ s.blockState := by simp [he, hd]
  rcases step_cases s with ⟨rest, _, hs⟩ | ⟨w, ha, _⟩ | ⟨_, _, hs⟩ | ⟨_, rest, _, hs⟩ | ⟨_, i, rest, _, hs⟩ |
    ⟨_, w, rest, _, _, hs⟩
  · cases hs.symm.trans h; cases hd
  · rw [acceptedWord_of_emit he] at ha; cases ha
  · cases hs.symm.trans h; exact absurd rfl hemit
  · exact (hinv.withAgenda rest).outputStep_hostTaken he (hs.symm.trans h) hd
  · cases hs.symm.trans h; exact absurd rfl hemit
  · cases hs.symm.trans h; exact absurd rfl hemit

/-! ## The hang, and the reset that ends it (R199) -/

theorem hangs_iff_notMem {s : State} : hangs s = true ↔
    s.blockState = .emit ∧ HostAction.take ∉ s.hostAgenda ∧ HostAction.reset ∉ s.hostAgenda := by
  simp only [hangs_iff, endsEmission_eq_false, ne_eq]
  refine and_congr_right fun _ => ⟨fun h => ⟨fun ht => (h _ ht).1 rfl, fun hr => (h _ hr).2 rfl⟩, ?_⟩
  exact fun ⟨ht, hr⟩ a ha => ⟨fun h => ht (h ▸ ha), fun h => hr (h ▸ ha)⟩

/-- The block is in EMIT, and the host resets before it takes a byte, whatever it offers or reads first. -/
def ResetToCome (s : State) : Prop :=
  s.blockState = .emit ∧ HostAction.take ∉ s.hostAgenda ∧ HostAction.reset ∈ s.hostAgenda

/-- An action of the agenda other than the reset, once done, leaves the reset to come and one action fewer. -/
theorem ResetToCome.after_action {s t : State} {a : HostAction} (h : ResetToCome s) (he : t.blockState = .emit)
    (hperm : s.hostAgenda.Perm (a :: t.hostAgenda)) (ha : a ≠ .reset) :
    ResetToCome t ∧ t.hostAgenda.length < s.hostAgenda.length := by
  obtain ⟨_, htake, hreset⟩ := h
  rw [hperm.mem_iff, List.mem_cons] at htake hreset
  rw [hperm.length_eq]
  exact ⟨⟨he, fun ht => htake (.inr ht), hreset.resolve_left ha.symm⟩, Nat.lt_succ_self _⟩

/-- With a reset to come, a step is that reset or an action before it (R193, R199, log 6). -/
theorem step_of_resetToCome {s : State} (h : ResetToCome s) : ∃ t, step s = .next t ∧
    (t.blockState = .idle ∨ (ResetToCome t ∧ t.hostAgenda.length < s.hostAgenda.length)) := by
  have ⟨he, htake, hreset⟩ := h
  rcases step_cases s with ⟨rest, _, hs⟩ | ⟨w, ha, _⟩ | ⟨_, hn, _⟩ | ⟨_, rest, hn, _⟩ | ⟨_, i, rest, hn, hs⟩ |
    ⟨_, w, rest, ha, _, hs⟩
  · exact ⟨_, hs, .inl rfl⟩
  · rw [acceptedWord_of_emit he] at ha; cases ha
  · obtain ⟨w, hw⟩ := send_of_nextAction_none hn _ hreset
    cases hw
  · obtain ⟨hmem, _⟩ := nextAction_mem hn
    exact absurd hmem htake
  · exact ⟨_, hs, .inr (h.after_action he (nextAction_perm hn) fun h => by cases h)⟩
  · exact ⟨_, hs, .inr (h.after_action he (List.Perm.of_eq ha) fun h => by cases h)⟩

/-- A reset to come is reached, by induction on the number of actions to come (R193). -/
theorem run_of_resetToCome {s : State} (h : ResetToCome s) :
    ∃ n t, Host.Core.run Sys2Proof.core n s = .next t ∧ t.blockState = .idle := by
  induction hk : s.hostAgenda.length using Nat.strong_induction_on generalizing s with
  | _ k ih =>
    obtain ⟨t, hs, hidle | ⟨ht, hlt⟩⟩ := step_of_resetToCome h
    · exact ⟨1, t, core_run_succ hs 0, hidle⟩
    · obtain ⟨n, u, hrun, hu⟩ := ih _ (hk ▸ hlt) ht rfl
      exact ⟨n + 1, u, (core_run_succ hs n).trans hrun, hu⟩

/-- Settles O13: both predicates read off their definitions; the end of a run by one step, a hang by the reset to come. -/
theorem endOfRunAndHang : Obligations.EndOfRunAndHang := by
  refine ⟨fun s => runOver_iff, fun s => step_of_runOver, fun s t hinv => hinv.hostTaken_of_done,
    fun s hinv herror => ⟨hinv.errExactly.2 herror, decide_eq_false (by simp [herror])⟩, fun s => hangs_iff_notMem,
    fun s h => ?_⟩
  obtain ⟨he, htake, _⟩ := hangs_iff_notMem.1 h
  have hcome : ResetToCome { s with hostAgenda := s.hostAgenda ++ [.reset] } :=
    ⟨he, by simpa using htake, by simp⟩
  exact run_of_resetToCome hcome

end Sys2Proof.Machine
